-- ==== Sys2Proof/Word.lean ====
section
/-! DEFINITION. The two widths the engine knows: the byte of its streams and buffers and the 32-bit word of its
registers and header fields (spec/00_scope.md section 5.1, R7 FIELD_WIDTH, R21). -/

namespace Sys2Proof

/-- FIELD_WIDTH: every header field and every argument word has 32 bits (R7). -/
def Config.fieldWidth : Nat := 32

/-- A byte: 8 bits (spec/00_scope.md section 5.1). -/
abbrev Byte := BitVec 8

/-- A word: FIELD_WIDTH bits, unsigned (spec/00_scope.md section 5.1, R7, R21). `delta%` puts the number itself into the
type, where arithmetic on words needs it. -/
abbrev Word := BitVec (delta% Config.fieldWidth)

end Sys2Proof
end

