-- ==== Sys2Proof/Config.lean ====
section
/-! DEFINITION. What the machine takes as given: the constants the source fixes (R7), the parameters it leaves open
(R8, spec/93_implementation_defined.md section 6), what the environment may answer at each access (R12, R66, R67,
R72 to R74, R258), and the free values. Every constant declared `opaque` here has no body: nothing can be proved of
its value. -/

namespace Sys2Proof

/-- BYTE_ORDER, the byte order of every 32-bit field (R8, decision D1). -/
inductive ByteOrder where
  | little
  | big
deriving DecidableEq, Repr

/-- The content of the durable store NVS: `Absent`, or `Bytes(b)` for a byte string of any length (R35). -/
inductive Store where
  | absent
  | bytes (b : List Byte)
deriving DecidableEq, Repr, Inhabited

/-- What the environment decides at ONE access of the engine to the store, the transport or the timer. One shape serves
all accesses; each reads the parts its rule leaves open, so that any list of answers is an environment (log 4).
* `reset`: the reset input is asserted, or power is lost, during this access (R271, R289).
* `ok`: the access answers Ok (R66, R67, R72); for `TpRelease` under reset: the release had taken place.
* `count`: how many bytes went out before a failed write (R72), how many have arrived for a read (R73), how many a
  flush drops (R74), how many loop heads a marker search passes before its bound is exceeded (R179).
* `elapsed`: how much time passes (R258).
* `store`: what an `NvWrite` that fails, or is cut by a loss of power, leaves in the store (R67, R289).
* `arrived`: the bytes the remote side produces meanwhile (R36, R77). -/
structure EnvAnswer where
  reset   : Bool
  ok      : Bool
  count   : Nat
  elapsed : Nat
  store   : Store
  arrived : List Byte
deriving DecidableEq, Repr, Inhabited

namespace Config

/-- The bytes of one field or argument word: FIELD_WIDTH in bytes (R7, R62). -/
def fieldBytes : Nat := fieldWidth / 8

/-- HEADER_SIZE (R7). -/
def headerSize : Nat := 16

/-- The marker's first byte (R7 MARKER, R92). -/
def markerFirst : Byte := 0xFE#8

/-- The marker's second byte (R7 MARKER, R92). -/
def markerSecond : Byte := 0xCA#8

/-- MARKER: the two bytes `FE CA` in that order (R7, R63, R92). -/
def marker : List Byte := [markerFirst, markerSecond]

/-- CMD_PROBE (R7). -/
def cmdProbe : Word := 0#32

/-- CMD_SPI (R7). -/
def cmdSpi : Word := 43#32

/-- SEQ_INIT, the starting value of the counter on a store that is absent or short (R7, R136). -/
def seqInit : Word := 2#32

/-- NVS_FORMAT: the durable store holds 4 bytes (R8, decision D2). -/
def nvsBytes : Nat := 4

/-- SPI_ARG_WORDS (R7). -/
def spiArgWords : Nat := 7

/-- The bytes of the SPI argument block: "7 words = 28 bytes" (R7, R96). -/
def spiArgBytes : Nat := spiArgWords * fieldBytes

/-- CRC_POLY, the polynomial in reflected form (R7, R120). -/
def crcPoly : Word := 0xEDB88320#32

/-- CRC_TABLE_ENTRIES: the table of the half-byte form has 16 entries (R7, R121). -/
def crcTableEntries : Nat := 16

/-- CRC_INIT (R7). -/
def crcInit : Word := 0xFFFFFFFF#32

/-- CRC_XOROUT (R7). -/
def crcXorOut : Word := 0xFFFFFFFF#32

/-- What both payload sizes of a build are below, `2^32 - 16`: a frame's length then fits a field
(spec/93 section 6, R84, decision D18). -/
def payloadBound : Nat := 2 ^ fieldWidth - headerSize

/-- BYTE_ORDER: little-endian by the spec's decision D1 (R8, R62). It cannot be switched at run time. -/
def byteOrder : ByteOrder := .little

end Config

/-- The parameters the source leaves OPEN and no decision closes (R8; spec/93 section 6). No rule assumes a value.
The two bounds of spec/93 section 6 (`28 <= TX_PAYLOAD_MAX < 2^32 - 16` and `RX_PAYLOAD_MAX < 2^32 - 16`) are kept by
the types: TX_PAYLOAD_MAX is the argument block's 28 bytes plus `txExtra`. Each bound is `Config.payloadBound` less what
stands before it, written as a successor, so that the type has an element whatever the constants are.
`speedCodes` is the set of legal SPEED codes as a list; the engine does not check SPEED against it (R31, decision D19),
so no operation reads it. -/
structure Params where
  txExtra      : Fin (Config.payloadBound - 1 - Config.spiArgBytes + 1)
  rxMax        : Fin (Config.payloadBound - 1 + 1)
  spiK0        : Word
  spiK1        : Word
  spiK2        : Word
  spiK3        : Word
  speedReset   : Word
  speedCodes   : List Word
  tSub         : Nat
  tResync      : Nat
  tRead        : Nat
  tRetryDelay  : Nat
deriving DecidableEq, Repr, Inhabited

/-- TX_PAYLOAD_MAX, the largest request payload (R8, decision D18): at least the argument block's 28 bytes, below
`2^32 - 16`. -/
def Params.txPayloadMax (p : Params) : Nat := p.txExtra.val + Config.spiArgBytes

/-- RX_PAYLOAD_MAX, the largest reply payload (R8, decision D18): below `2^32 - 16`. -/
def Params.rxPayloadMax (p : Params) : Nat := p.rxMax.val

/-- The size of TXBUF, `16 + TX_PAYLOAD_MAX` bytes (R33). -/
def Params.txCapacity (p : Params) : Nat := p.txPayloadMax + Config.headerSize

/-- The size of RXBUF, `16 + RX_PAYLOAD_MAX` bytes (R34). -/
def Params.rxCapacity (p : Params) : Nat := p.rxPayloadMax + Config.headerSize

namespace Config

/-- The open parameters of the machine that reset starts (R8): no value is known (log 1). -/
opaque params : Params

/-- NVS_LOCATION, where the durable store is (R8, R61, decision D33): OPEN, and reached by no address. -/
opaque nvsLocation : Nat

/-- The environment's answer at the n-th access for which the state lists none (log 4). Free: any answer. -/
opaque envOracle : Nat → EnvAnswer

/-- A word the spec leaves without a value (SEQ after reset, RES after a failed exchange, a host read of either):
the n-th free word (log 2, log 13). -/
opaque freeWord : Nat → Word

/-- What a host reads from the n-th buffer byte that holds no value (R39, spec/93 U11, U12; log 3). -/
opaque freeByte : Nat → Byte

/-- What the store held before the model's first reset (R38: NVS is unchanged by reset; log 15). -/
opaque nvsAtReset : Store

/-- The bytes the transport has buffered when the model starts (R38, R271; log 15). -/
opaque rxAtReset : List Byte

end Config

end Sys2Proof
end

