-- ==== Sys2Proof/Machine/Codec.lean ====
section
/-! DEFINITION. The pure functions of the engine, on values: byte order (R62, spec/00_scope.md section 5.1), the checksum
(R120 to R127) with its two reference forms (R124), the frame as a function on values (R94, R154, R155, R157).
The machine calls them with `Config.byteOrder`; they take the order as an argument so that a claim can be made for
both (decision D1, vector V24). -/

namespace Sys2Proof.Codec

/-! ## Byte order -/

/-- The four bytes of a word, lowest offset first: `le32(v)` for the little order (spec/00_scope.md section 5.1, R62). -/
def wordBytes (o : ByteOrder) (v : Word) : List Byte :=
  match o with
  | .little => [v.extractLsb' 0 8, v.extractLsb' 8 8, v.extractLsb' 16 8, v.extractLsb' 24 8]
  | .big => [v.extractLsb' 24 8, v.extractLsb' 16 8, v.extractLsb' 8 8, v.extractLsb' 0 8]

/-- The word of the first four bytes of a string: `u32le(b)` for the little order (spec/00_scope.md section 5.1). Every
caller gives at least four bytes. -/
def bytesWord (o : ByteOrder) (b : List Byte) : Word :=
  match o with
  | .little => b.getD 3 0#8 ++ b.getD 2 0#8 ++ b.getD 1 0#8 ++ b.getD 0 0#8
  | .big => b.getD 0 0#8 ++ b.getD 1 0#8 ++ b.getD 2 0#8 ++ b.getD 3 0#8

/-! ## Where the fields stand -/

/-- The offset of `payload_length` in a frame (R91, R93). -/
def lengthAt : Nat := Config.fieldBytes

/-- The offset of `sequence_number` in a frame (R91, R93). -/
def sequenceAt : Nat := 2 * Config.fieldBytes

/-- The offset of `checksum` in a frame (R91, R93). -/
def checksumAt : Nat := 3 * Config.fieldBytes

/-- The offset of word `i` of the argument block in a payload (R96). -/
def argumentAt (i : Nat) : Nat := i * Config.fieldBytes

/-! ## The checksum -/

/-- One step of the bitwise reflected division by CRC_POLY (R121, R124). -/
def crcBit (c : Word) : Word :=
  if c.getLsbD 0 then (c >>> 1) ^^^ Config.crcPoly else c >>> 1

/-- `n` such steps. -/
def crcBits : Nat → Word → Word
  | 0, c => c
  | n + 1, c => crcBits n (crcBit c)

/-- Entry `T[k]`: `k` after the division steps of one nibble (R121). -/
def crcEntry (k : Nat) : Word := crcBits 4 (BitVec.ofNat 32 k)

/-- The table `T[0..15]`, computed from CRC_POLY (R121). Its entries as R121 lists them are a law, `crcTable_eq`. -/
def crcTable : List Word := (List.range Config.crcTableEntries).map crcEntry

/-- One nibble step: `T[(c xor b) and 0xF] xor (c >> 4)` (R122). -/
def crcNibble (c b : Word) : Word :=
  crcTable.getD ((c ^^^ b) &&& 0xF#32).toNat 0#32 ^^^ (c >>> 4)

/-- The two nibble steps of one byte, the low nibble first (R122). -/
def crcByte (c : Word) (b : Byte) : Word :=
  crcNibble (crcNibble c (b.setWidth 32)) (b.setWidth 32 >>> 4)

/-- The running remainder after a byte string, before the final complement: what CRC_ACC holds (R24, R122). -/
def crcRemainder (bs : List Byte) : Word :=
  bs.foldl crcByte Config.crcInit

/-- `crc32(B)` (R122). -/
def crc32 (bs : List Byte) : Word :=
  crcRemainder bs ^^^ Config.crcXorOut

/-- The bitwise form of the checksum (R124). -/
def crc32Bitwise (bs : List Byte) : Word :=
  bs.foldl (fun c b => crcBits 8 (c ^^^ b.setWidth 32)) Config.crcInit ^^^ Config.crcXorOut

/-- Entry `F[k]` of the 256-entry table (R124). -/
def crcFullEntry (k : Nat) : Word := crcBits 8 (BitVec.ofNat 32 k)

/-- The full-table form of the checksum (R124). -/
def crc32FullTable (bs : List Byte) : Word :=
  bs.foldl (fun c b => crcFullEntry ((c ^^^ b.setWidth 32) &&& 0xFF#32).toNat ^^^ (c >>> 8)) Config.crcInit
    ^^^ Config.crcXorOut

/-! ## The frame on values -/

/-- The header bytes in the fixed order command, payload_length, sequence_number, checksum (R91). -/
def headerBytes (o : ByteOrder) (command len seq checksum : Word) : List Byte :=
  wordBytes o command ++ wordBytes o len ++ wordBytes o seq ++ wordBytes o checksum

/-- The `payload_length` field of a payload: its byte count (R95). -/
def lengthWord (payload : List Byte) : Word := BitVec.ofNat 32 payload.length

/-- The checksum of a frame: `crc32` over the whole frame with its own four bytes taken as zero (R94, R154). -/
def frameChecksum (o : ByteOrder) (command seq : Word) (payload : List Byte) : Word :=
  crc32 (headerBytes o command (lengthWord payload) seq 0#32 ++ payload)

/-- `encode(cmd, seq, P)` (R154). -/
def encodeFrame (o : ByteOrder) (command seq : Word) (payload : List Byte) : List Byte :=
  headerBytes o command (lengthWord payload) seq (frameChecksum o command seq payload) ++ payload

/-- A frame with a sequence number and its checksum written into it, whatever bytes 8 to 15 held: what a stamp makes of a
frame (R152, R154). -/
def stampFrame (o : ByteOrder) (seq : Word) (f : List Byte) : List Byte :=
  f.take sequenceAt ++ wordBytes o seq ++
    wordBytes o (crc32 (f.take sequenceAt ++ wordBytes o seq ++ [0#8, 0#8, 0#8, 0#8] ++ f.drop Config.headerSize)) ++
    f.drop Config.headerSize

/-- The four fields of a header (R93). -/
structure Header where
  command       : Word
  payloadLength : Word
  sequence      : Word
  checksum      : Word
deriving DecidableEq, Repr

/-- `decode_header(h)` (R155): it makes no check. -/
def decodeHeader (o : ByteOrder) (h : List Byte) : Header where
  command       := bytesWord o h
  payloadLength := bytesWord o (h.drop lengthAt)
  sequence      := bytesWord o (h.drop sequenceAt)
  checksum      := bytesWord o (h.drop checksumAt)

/-- The copy `Z` of a frame with its checksum field zeroed (R157, R158). -/
def zeroChecksum (f : List Byte) : List Byte :=
  f.take checksumAt ++ [0#8, 0#8, 0#8, 0#8] ++ f.drop Config.headerSize

/-- Whether the `payload_length` field of a frame is its real payload length (R159). -/
def lengthMatches (o : ByteOrder) (f : List Byte) : Bool :=
  (decodeHeader o f).payloadLength.toNat == f.length - Config.headerSize

/-- `verify(frame)` for a frame of at least 16 bytes (R157, R159). -/
def verifyFrame (o : ByteOrder) (f : List Byte) : Bool :=
  lengthMatches o f && crc32 (zeroChecksum f) == (decodeHeader o f).checksum

/-- The 28 bytes of the SPI argument block: clock-speed code, four constants, write count, read count (R96). -/
def argumentBlock (o : ByteOrder) (speed k0 k1 k2 k3 wcount rcount : Word) : List Byte :=
  wordBytes o speed ++ wordBytes o k0 ++ wordBytes o k1 ++ wordBytes o k2 ++ wordBytes o k3 ++
    wordBytes o wcount ++ wordBytes o rcount

end Sys2Proof.Codec
end

