-- ==== Sys2Proof/Syntax.lean ====
section
/-! DEFINITION. The syntax: one constructor per row of spec/opcode_table.json. The sixteen selectors of OP carry no
operand (operands stand in ARG0 to ARG2 and the buffers, R103, R104). The five wire rows carry the fields of the
message (R91 to R99). -/

namespace Sys2Proof

inductive Instr where
  /-- OP 0x0 `CRC32` (R123). -/
  | crc32
  /-- OP 0x1 `SEQ.LOAD` (R136). -/
  | seqLoad
  /-- OP 0x2 `SEQ.NEXT` (R138). -/
  | seqNext
  /-- OP 0x3 `FRM.LAYOUT` (R151). -/
  | frmLayout
  /-- OP 0x4 `FRM.STAMP` (R152). -/
  | frmStamp
  /-- OP 0x5 `FRM.ENCODE` (R153). -/
  | frmEncode
  /-- OP 0x6 `FRM.DECHDR` (R156). -/
  | frmDechdr
  /-- OP 0x7 `FRM.VERIFY` (R157). -/
  | frmVerify
  /-- OP 0x8 `SYN.AWAIT` (R173). -/
  | synAwait
  /-- OP 0x9 `TRE.XCHG` (R186). -/
  | treXchg
  /-- OP 0xA `CMB.PROBE` (R216). -/
  | cmbProbe
  /-- OP 0xB `CMB.SPI` (R217). -/
  | cmbSpi
  /-- OP 0xC `INITIALIZE` (R221). -/
  | hostInitialize
  /-- OP 0xD `EXECUTE_SPI` (R224). -/
  | hostExecuteSpi
  /-- OP 0xE `SHUTDOWN` (R227). -/
  | hostShutdown
  /-- OP 0xF, reserved (R105). -/
  | reservedF
  /-- The marker `FE CA` alone (R92). -/
  | wireMarker
  /-- A message that is neither of the two request shapes (R91, R102): marker, header, payload. -/
  | wireFrame (command seq checksum : Word) (payload : List Byte)
  /-- A probe request (R97): command 0, payload_length 0. -/
  | wireProbeRequest (seq checksum : Word)
  /-- An SPI passthrough request (R96, R98): command 43, argument block, write bytes. -/
  | wireSpiRequest (seq checksum speed k0 k1 k2 k3 rcount : Word) (writeBytes : List Byte)
  /-- A reply (R99): any command, payload. -/
  | wireReply (command seq checksum : Word) (payload : List Byte)
deriving DecidableEq, Repr

end Sys2Proof
end

