-- ==== Sys2Proof/WellFormed.lean ====
section
/-! DEFINITION. Which instructions are well formed. The sixteen operations always are: an operand that does not fit is no
illegal encoding (R105). A message is well formed when its `payload_length` fits its field (R93, R95), its checksum is
right (R94) and it has the shape of its row (R97, R98, R102). -/

namespace Sys2Proof

open Codec

/-- The byte count of the payload fits the FIELD_WIDTH bits of the `payload_length` field (R93, R95). -/
def lengthFits (payload : List Byte) : Bool := payload.length < 2 ^ Config.fieldWidth

/-- The checksum field is the checksum of the frame (R94). -/
def checksumRight (command seq checksum : Word) (payload : List Byte) : Bool :=
  frameChecksum Config.byteOrder command seq payload == checksum

/-- The payload of an SPI request: the argument block with the count of write bytes, then the write bytes (R96, R98). -/
def spiPayload (speed k0 k1 k2 k3 rcount : Word) (writeBytes : List Byte) : List Byte :=
  argumentBlock Config.byteOrder speed k0 k1 k2 k3 (lengthWord writeBytes) rcount ++ writeBytes

/-- Word `i` of the argument block at the start of a payload (R96). -/
def argumentWord (payload : List Byte) (i : Nat) : Word := bytesWord Config.byteOrder (payload.drop (argumentAt i))

/-- A frame has the shape of a probe request (R97). -/
def isProbeShape (command : Word) (payload : List Byte) : Bool :=
  command == Config.cmdProbe && payload.isEmpty

/-- A frame has the shape of an SPI request: command 43, at least the 28 bytes of the argument block, and word 5 the
number of bytes that follow it (R98). -/
def isSpiShape (command : Word) (payload : List Byte) : Bool :=
  command == Config.cmdSpi && Config.spiArgBytes ≤ payload.length &&
    (argumentWord payload 5).toNat == payload.length - Config.spiArgBytes

/-- Well-formedness of an instruction. -/
def WellFormed (i : Instr) : Bool :=
  match i with
  | .crc32 | .seqLoad | .seqNext | .frmLayout | .frmStamp | .frmEncode | .frmDechdr | .frmVerify | .synAwait
  | .treXchg | .cmbProbe | .cmbSpi | .hostInitialize | .hostExecuteSpi | .hostShutdown | .reservedF
  | .wireMarker => true
  | .wireFrame command seq checksum payload =>
    lengthFits payload && checksumRight command seq checksum payload &&
      !isProbeShape command payload && !isSpiShape command payload
  | .wireProbeRequest seq checksum => checksumRight Config.cmdProbe seq checksum []
  | .wireSpiRequest seq checksum speed k0 k1 k2 k3 rcount writeBytes =>
    lengthFits (spiPayload speed k0 k1 k2 k3 rcount writeBytes) &&
      checksumRight Config.cmdSpi seq checksum (spiPayload speed k0 k1 k2 k3 rcount writeBytes)
  | .wireReply command seq checksum payload => lengthFits payload && checksumRight command seq checksum payload

end Sys2Proof
end

