-- ==== Sys2Proof/Decode.lean ====
section
/-! DEFINITION. The decoder, total on any bytes, and the encoder, both written from spec/30_encoding.md. A selector is
read where the host writes OP; a message is read where bytes travel: in the request direction or in the reply
direction, since the rows share one layout (R91, R99; log 11). -/

namespace Sys2Proof

open Codec

/-- Where the bytes stand: the OP register, the request direction of the wire, or its reply direction (R91, R103). -/
inductive Port where
  | op
  | request
  | reply
deriving DecidableEq, Repr

/-- Why bytes are no encoding. -/
inductive DecodeError where
  /-- No byte to read a selector from. -/
  | noSelector
  /-- The bytes do not begin with the marker `FE CA` (R92). -/
  | noMarker
  /-- After the marker fewer than 16 header bytes stand (R100). -/
  | shortHeader
  /-- Fewer bytes follow the header than `payload_length` says (R95). -/
  | shortPayload
deriving DecidableEq, Repr

/-- The operation of a selector: OP is 4 bits and all sixteen values are defined (R103, R105). -/
def ofSelector (k : BitVec 4) : Instr :=
  match k.toNat with
  | 0 => .crc32
  | 1 => .seqLoad
  | 2 => .seqNext
  | 3 => .frmLayout
  | 4 => .frmStamp
  | 5 => .frmEncode
  | 6 => .frmDechdr
  | 7 => .frmVerify
  | 8 => .synAwait
  | 9 => .treXchg
  | 10 => .cmbProbe
  | 11 => .cmbSpi
  | 12 => .hostInitialize
  | 13 => .hostExecuteSpi
  | 14 => .hostShutdown
  | _ => .reservedF

/-- Decode what the host writes to OP: the selector is bits 3:0 (R28, R103; log 12). -/
def decodeOp (bytes : List Byte) : Except DecodeError (Instr × List Byte) :=
  match bytes with
  | [] => .error .noSelector
  | b :: rest => .ok (ofSelector (b.extractLsb' 0 4), rest)

/-- The row of a message in the request direction: probe, SPI passthrough, or any other frame (R97, R98, R102). -/
def ofRequest (command seq checksum : Word) (payload : List Byte) : Instr :=
  if isProbeShape command payload then .wireProbeRequest seq checksum
  else if isSpiShape command payload then
    .wireSpiRequest seq checksum (argumentWord payload 0) (argumentWord payload 1) (argumentWord payload 2)
      (argumentWord payload 3) (argumentWord payload 4) (argumentWord payload 6) (payload.drop Config.spiArgBytes)
  else .wireFrame command seq checksum payload

/-- The row of a message: in the reply direction every frame is a reply, whatever its command (R99). -/
def ofFrame (p : Port) (h : Header) (payload : List Byte) : Instr :=
  match p with
  | .reply => .wireReply h.command h.sequence h.checksum payload
  | .op | .request => ofRequest h.command h.sequence h.checksum payload

/-- Decode a frame that follows its marker: 16 header bytes, then `payload_length` payload bytes (R91, R100). -/
def decodeFrame (p : Port) (body : List Byte) : Except DecodeError (Instr × List Byte) :=
  let h := decodeHeader Config.byteOrder body
  let rest := body.drop Config.headerSize
  if body.length < Config.headerSize then .error .shortHeader
  else if rest.length < h.payloadLength.toNat then .error .shortPayload
  else .ok (ofFrame p h (rest.take h.payloadLength.toNat), rest.drop h.payloadLength.toNat)

/-- Decode a message: the marker, alone or followed by a frame (R91, R92). -/
def decodeWire (p : Port) (bytes : List Byte) : Except DecodeError (Instr × List Byte) :=
  match bytes with
  | a :: b :: body =>
    if a = Config.markerFirst ∧ b = Config.markerSecond then
      if body.isEmpty then .ok (.wireMarker, []) else decodeFrame p body
    else .error .noMarker
  | _ => .error .noMarker

/-- The decoder: the instruction at the front of the bytes, and the bytes after it. -/
def decode (p : Port) (bytes : List Byte) : Except DecodeError (Instr × List Byte) :=
  match p with
  | .op => decodeOp bytes
  | .request => decodeWire .request bytes
  | .reply => decodeWire .reply bytes

/-! ## The encoder -/

/-- A message: marker, header, payload (R91). -/
def encodeMessage (command seq checksum : Word) (payload : List Byte) : List Byte :=
  Config.marker ++ headerBytes Config.byteOrder command (lengthWord payload) seq checksum ++ payload

/-- The bytes of an instruction: the selector of an operation (R103) or the bytes of a message, first byte sent first
(R91, R92, R97, R98). -/
def encode (i : Instr) : List Byte :=
  match i with
  | .crc32 => [0x00#8]
  | .seqLoad => [0x01#8]
  | .seqNext => [0x02#8]
  | .frmLayout => [0x03#8]
  | .frmStamp => [0x04#8]
  | .frmEncode => [0x05#8]
  | .frmDechdr => [0x06#8]
  | .frmVerify => [0x07#8]
  | .synAwait => [0x08#8]
  | .treXchg => [0x09#8]
  | .cmbProbe => [0x0A#8]
  | .cmbSpi => [0x0B#8]
  | .hostInitialize => [0x0C#8]
  | .hostExecuteSpi => [0x0D#8]
  | .hostShutdown => [0x0E#8]
  | .reservedF => [0x0F#8]
  | .wireMarker => Config.marker
  | .wireFrame command seq checksum payload => encodeMessage command seq checksum payload
  | .wireProbeRequest seq checksum => encodeMessage Config.cmdProbe seq checksum []
  | .wireSpiRequest seq checksum speed k0 k1 k2 k3 rcount writeBytes =>
    encodeMessage Config.cmdSpi seq checksum (spiPayload speed k0 k1 k2 k3 rcount writeBytes)
  | .wireReply command seq checksum payload => encodeMessage command seq checksum payload

/-- Where the bytes of an instruction are read back. -/
def portOf (i : Instr) : Port :=
  match i with
  | .crc32 | .seqLoad | .seqNext | .frmLayout | .frmStamp | .frmEncode | .frmDechdr | .frmVerify | .synAwait
  | .treXchg | .cmbProbe | .cmbSpi | .hostInitialize | .hostExecuteSpi | .hostShutdown | .reservedF => .op
  | .wireMarker | .wireFrame _ _ _ _ | .wireProbeRequest _ _ | .wireSpiRequest _ _ _ _ _ _ _ _ _ => .request
  | .wireReply _ _ _ _ => .reply

/-! ## Words of the opcode table -/

/-- The `n` low bytes of a number, the most significant first: spec/opcode_table.json writes a wire row with its first
byte most significant (log 11). -/
def bigEndianBytes : Nat → Nat → List Byte
  | 0, _ => []
  | n + 1, w => BitVec.ofNat 8 (w >>> (8 * n)) :: bigEndianBytes n w

/-- The bytes of a wire word of the table, completed with zero bytes to a whole message where it is longer than the
marker: header and declared payload. -/
def tableMessage (nbits w : Nat) : List Byte :=
  let given := bigEndianBytes (nbits / 8) w
  let headEnd := Config.marker.length + Config.headerSize
  if given.length ≤ Config.marker.length then given
  else
    let headed := given ++ List.replicate (headEnd - given.length) 0#8
    let header := decodeHeader Config.byteOrder (headed.drop Config.marker.length)
    headed ++ List.replicate (header.payloadLength.toNat - (headed.length - headEnd)) 0#8

/-- A word of up to one byte is a selector; a longer one is a message in the request direction. -/
def tablePort (nbits : Nat) : Port := if nbits ≤ 8 then .op else .request

/-- The bytes of a word of the opcode table. -/
def tableBytes (nbits w : Nat) : List Byte :=
  if nbits ≤ 8 then [BitVec.ofNat 8 w] else tableMessage nbits w

/-- The instruction the decoder reads from a word of spec/opcode_table.json. -/
def decodeTableWord (nbits w : Nat) : Option Instr :=
  match decode (tablePort nbits) (tableBytes nbits w) with
  | .ok (i, []) => some i
  | .ok (_, _ :: _) => none
  | .error _ => none

end Sys2Proof
end

