-- ==== Sys2Proof/Machine/State.lean ====
section
/-! DEFINITION. The machine's state as plain data: the registers (R20 to R32), the frame buffers (R33, R34), the engine's
edge (the durable store, the two streams, the clock, R35, R36, R259), the open parameters, and the model's own fields
(INVENTORY.md, State). The reasons a step can stop. The state after reset (R38, R270). -/

namespace Sys2Proof.Machine

/-! ## Registers -/

/-- TRE_STATE: the ten values it can hold (R27, spec/93 U6). -/
inductive TreState where
  | idle
  | build
  | send
  | resync
  | readHeader
  | readPayload
  | validate
  | done
  | retry
  | failed
deriving DecidableEq, Repr

/-- SYN_STATE (R27, R171). -/
inductive SynState where
  | search
  | gotFirst
deriving DecidableEq, Repr

/-- The error kinds (R240, R241). `transportTimeout` and `frameMismatch` label per-attempt failures only (R243). -/
inductive ErrKind where
  | allocationFailure
  | transportTimeout
  | frameMismatch
  | retriesExhausted
  | storeUnavailable
  | notReady
  | illegalOperation
deriving DecidableEq, Repr

/-- The seven per-attempt failures, in the order in which an attempt can meet them (R242, R250). -/
inductive AttemptFailure where
  | sendFailed
  | markerNotFound
  | headerShort
  | lengthMismatch
  | payloadShort
  | sequenceMismatch
  | checksumMismatch
deriving DecidableEq, Repr

/-- The flags of STATUS, bits 0 to 5 (R29). Bits 7:6 are never set and have no place here (spec/93 U5). -/
structure Status where
  busy     : Bool
  done     : Bool
  errf     : Bool
  halted   : Bool
  seqValid : Bool
  linkOk   : Bool
deriving DecidableEq, Repr

/-- The registers of the engine (R20). -/
structure Regs where
  /-- OP: the selector of the operation last started. It reads 0 (R28; log 22). -/
  op      : BitVec 4
  /-- STATUS (R29). -/
  status  : Status
  /-- ERR (R30). -/
  err     : Byte
  /-- ARG0 (R22). -/
  arg0    : Word
  /-- ARG1 (R22). -/
  arg1    : Word
  /-- ARG2 (R22). -/
  arg2    : Word
  /-- RES (R22). -/
  res     : Word
  /-- SPEED (R31). -/
  speed   : Word
  /-- SEQ (R23). -/
  seq     : Word
  /-- CRC_ACC (R24). -/
  crcAcc  : Word
  /-- TXLEN (R26). -/
  txlen   : Word
  /-- EXP_LEN (R26). -/
  expLen  : Word
  /-- MAXATT (R26). -/
  maxAtt  : Word
  /-- ATTEMPT (R26). -/
  attempt : Word
  /-- CURSEQ (R26). -/
  curseq  : Word
  /-- RCMD (R25). -/
  rcmd    : Word
  /-- RPLEN (R25). -/
  rplen   : Word
  /-- RSEQ (R25). -/
  rseq    : Word
  /-- RCSUM (R25). -/
  rcsum   : Word
  /-- TRE_STATE (R27). -/
  tre     : TreState
  /-- SYN_STATE (R27). -/
  syn     : SynState
deriving DecidableEq, Repr

/-! ## Buffers and the engine's edge -/

/-- A byte space: (offset, byte) cells with strictly rising offsets. An offset that is not listed holds no value (R39;
log 3). -/
abbrev Memory := List Host.Cell

/-- One access of the engine to its edge, as the model's history records it (R68, R70, R79, R243; log 20). -/
inductive Access where
  /-- `NvRead()` (R66). -/
  | nvRead
  /-- `NvWrite(b)` that answered Ok (`written`), or failed or was cut (R67, R289). -/
  | nvWrite (b : List Byte) (written : Bool)
  /-- `TxWrite(b)`, and whether it answered Ok (R72). -/
  | txWrite (b : List Byte) (ok : Bool)
  /-- `RxRead(n, t)` and the bytes taken (R73). -/
  | rxRead (n : Nat) (got : List Byte)
  /-- `RxFlush()` (R74). -/
  | rxFlush
  /-- `Now()` (R258). -/
  | now
  /-- `Delay(t)` (R258). -/
  | delay
  /-- `TpRelease()` (R75). -/
  | tpRelease
deriving DecidableEq, Repr

/-- What stands at the engine's edge (R36, R259) with the environment's answers (R12). All of it survives reset (R38,
R271). -/
structure Edge where
  /-- NVS, the durable store (R35). -/
  nvs         : Store
  /-- The received bytes the transport has buffered and the engine has not taken (R36, R73, R74). -/
  rx          : List Byte
  /-- Every byte handed to the transport, in order (R36, R72). -/
  sent        : List Byte
  /-- The wall-clock time (R36, R258). -/
  now         : Nat
  /-- The transport is open (R71, R75, R273). -/
  tpOpen      : Bool
  /-- The environment's next answers (log 4). -/
  answers     : List EnvAnswer
  /-- How many answers were drawn beyond that list (log 4). -/
  answersUsed : Nat
  /-- The accesses made so far, in order (log 20). -/
  trace       : List Access
deriving DecidableEq, Repr

/-! ## What the outside presents -/

/-- One line of a program (R106), or an event of the engine's surroundings. -/
inductive Event where
  /-- The host writes a register by its number; a write to OP starts an operation (R28, R32). -/
  | hostWrite (reg : Nat) (v : Word)
  /-- The host reads a register by its number (R32). -/
  | hostRead (reg : Nat)
  /-- The host writes bytes of TXBUF, ascending offsets (R33, R106). -/
  | hostWriteTx (off : Nat) (bytes : List Byte)
  /-- The host reads a byte of TXBUF (R33). -/
  | hostReadTx (off : Nat)
  /-- The host writes bytes of RXBUF (R34). -/
  | hostWriteRx (off : Nat) (bytes : List Byte)
  /-- The host reads a byte of RXBUF (R34). -/
  | hostReadRx (off : Nat)
  /-- Bytes arrive on the received stream (R36, R77, R106 `RX:`). -/
  | arrive (port : Port) (bytes : List Byte)
  /-- The transport's owner opens it (R71, R273). -/
  | openTransport
  /-- The reset input is asserted, or power was lost and is back (R262, R270). -/
  | resetInput
deriving DecidableEq, Repr

/-! ## The state -/

/-- The state of the machine. -/
structure State where
  /-- The engine's registers. -/
  regs     : Regs
  /-- TXBUF (R33). -/
  txbuf    : Memory
  /-- RXBUF (R34). -/
  rxbuf    : Memory
  /-- The engine's edge: NVS, streams, clock, transport (R35, R36). -/
  edge     : Edge
  /-- The open parameters (R8), never changed (log 1). -/
  cfg      : Params
  /-- Model's own: how many free words and bytes were drawn (log 20). -/
  freeUsed : Nat
  /-- Model's own: the causes of the failed attempts of the last exchange (R243). -/
  failures : List AttemptFailure
  /-- Model's own: what the host and its surroundings present next (R106). -/
  pending  : List Event
  /-- Model's own: what the host's last read answered (R32). -/
  hostData : Word
deriving DecidableEq, Repr

/-! ## How a step can stop -/

/-- A step that ends in a fault. -/
inductive Fault where
  /-- Raised by a host access or an operation while STATUS.BUSY = 1: the host is blocked, the spec gives no step (R28;
  spec/93 U41, U43: stuck). Safe: no step is taken. -/
  | hostBlocked
  /-- Raised by a host access to TXBUF beyond its `16 + TX_PAYLOAD_MAX` bytes (R33; log 16). Safe. -/
  | txOffsetOutside
  /-- Raised by a host access to RXBUF beyond its `16 + RX_PAYLOAD_MAX` bytes (R34; log 16). Safe. -/
  | rxOffsetOutside
deriving DecidableEq, Repr

/-- A step that is refused. -/
inductive Refusal where
  /-- Raised by an arm of `exec` whose instruction has no meaning yet. Safe. -/
  | notModelled (mnemonic : String)
  /-- Raised by an operation that would read a byte of TXBUF that holds no value (R39; spec/93 U11: refuse). Safe. -/
  | txByteWithoutValue
  /-- Raised by an operation that would read a byte of RXBUF that holds no value (R39; spec/93 U11: refuse). Safe. -/
  | rxByteWithoutValue
  /-- Raised by an operation that would use the transport while it is not open (R273; spec/93 U33: refuse). Safe. -/
  | transportNotOpen
deriving DecidableEq, Repr

/-! ## Reset -/

/-- The register values after reset (R38). SPEED is SPEED_RESET and SEQ holds no value: it is the free word given. -/
def Regs.reset (speedReset seq : Word) : Regs where
  op      := 0#4
  status  := { busy := false, done := false, errf := false, halted := false, seqValid := false, linkOk := false }
  err     := 0#8
  arg0    := 0#32
  arg1    := 0#32
  arg2    := 0#32
  res     := 0#32
  speed   := speedReset
  seq     := seq
  crcAcc  := 0#32
  txlen   := 0#32
  expLen  := 0#32
  maxAtt  := 0#32
  attempt := 0#32
  curseq  := 0#32
  rcmd    := 0#32
  rplen   := 0#32
  rseq    := 0#32
  rcsum   := 0#32
  tre     := .idle
  syn     := .search

/-- The machine right after its first reset (R38, R270): registers as R38 says, buffers without a value, the store and
the received stream as they were found, nothing presented. The transport is not open yet: its owner opens it after
the reset (R274 (2); the event `openTransport`; log 8). -/
def State.reset : State where
  regs     := Regs.reset Config.params.speedReset (Config.freeWord 0)
  txbuf    := []
  rxbuf    := []
  edge     :=
    { nvs := Config.nvsAtReset, rx := Config.rxAtReset, sent := [], now := 0, tpOpen := false, answers := [],
      answersUsed := 0, trace := [] }
  cfg      := Config.params
  freeUsed := 1
  failures := []
  pending  := []
  hostData := 0#32

end Sys2Proof.Machine
end

