-- ==== Sys2Proof/Machine/Ops.lean ====
section
/-! DEFINITION. The shared operations: the byte spaces (R60, R65), the primitives at the engine's edge (R66, R67, R72 to
R75, R258), how an operation runs and ends (R28, R251), the reset input (R270). -/

namespace Sys2Proof.Machine

open Codec

/-! ## Byte spaces -/

/-- The byte at an offset, if it holds a value (R39). -/
def Memory.get? : Memory → Nat → Option Byte
  | [], _ => none
  | (k, v) :: m, a => if a = k then some v else if a < k then none else Memory.get? m a

/-- Write one byte, keeping the cells in rising order. -/
def Memory.set : Memory → Nat → Byte → Memory
  | [], a, b => [(a, b)]
  | (k, v) :: m, a, b =>
    if a < k then (a, b) :: (k, v) :: m
    else if a = k then (a, b) :: m
    else (k, v) :: Memory.set m a b

/-- `MemWrite(space, addr, n, v)`: the bytes of `v` at `addr`, `addr + 1`, and so on (spec/00_scope.md section 5.2). -/
def Memory.write : Memory → Nat → List Byte → Memory
  | m, _, [] => m
  | m, a, b :: bs => Memory.write (Memory.set m a b) (a + 1) bs

/-- The byte at an offset; where it holds no value, a free byte, which no operation reads for its meaning (R39). -/
def Memory.byte (m : Memory) (a : Nat) : Byte := (Memory.get? m a).getD (Config.freeByte a)

/-- `MemRead(space, addr, n)`: the bytes at `addr .. addr+n-1`, lowest offset first (spec/00_scope.md section 5.2). -/
def Memory.read (m : Memory) (a : Nat) : Nat → List Byte
  | 0 => []
  | n + 1 => Memory.byte m a :: Memory.read m (a + 1) n

/-- Every byte at `a .. a+n-1` holds a value (R39). -/
def Memory.written (m : Memory) (a : Nat) : Nat → Bool
  | 0 => true
  | n + 1 => (Memory.get? m a).isSome && Memory.written m (a + 1) n

/-- The canonical form: offsets strictly rise. An unlisted byte holds no value, so no listed entry can equal it. -/
def Memory.wf : Memory → Bool
  | [] => true
  | [_] => true
  | c :: d :: m => c.1 < d.1 && Memory.wf (d :: m)

/-- Every listed offset lies below a size. -/
def Memory.below (m : Memory) (size : Nat) : Bool := m.all fun c => c.1 < size

/-- `MemWrite` of one 32-bit field (R62, R69). -/
def Memory.writeWord (m : Memory) (a : Nat) (v : Word) : Memory :=
  Memory.write m a (wordBytes Config.byteOrder v)

/-! ## How an operation runs -/

/-- Why an operation stops before its end. -/
inductive Stop where
  /-- `raise E` (R251). -/
  | raised (e : ErrKind)
  /-- The reset input came, or power was lost (R271). -/
  | cutByReset
deriving DecidableEq, Repr

/-- The run of a part of an operation: it ends with a result, or it stops; the state is what it left. -/
inductive Run (α : Type) where
  | ok (a : α) (s : State)
  | stop (why : Stop) (s : State)
deriving DecidableEq, Repr

/-- One part after another: a line's effects are complete before the next line starts, and an operation ends at the
first `raise` (R78, R107, R250). -/
def Run.bind {α β : Type} (r : Run α) (k : α → State → Run β) : Run β :=
  match r with
  | .ok a s => k a s
  | .stop why s => .stop why s

/-- `raise E`. -/
def raise {α : Type} (e : ErrKind) (s : State) : Run α := .stop (.raised e) s

/-! ## The engine's edge -/

/-- The environment's next answer: the next of the list, or a free one (log 4). -/
def Edge.answer (e : Edge) : EnvAnswer × Edge :=
  match e.answers with
  | a :: rest => (a, { e with answers := rest })
  | [] => (Config.envOracle e.answersUsed, { e with answersUsed := e.answersUsed + 1 })

/-- Time passes during an access and bytes arrive meanwhile (R36, R258). -/
def Edge.pass (e : Edge) (elapsed : Nat) (arrived : List Byte) : Edge :=
  { e with now := e.now + elapsed, rx := e.rx ++ arrived }

/-- Record an access. -/
def Edge.record (e : Edge) (x : Access) : Edge := { e with trace := e.trace ++ [x] }

/-- An access ends with its result, or it is cut by a reset (R271). -/
def afterAccess {α : Type} (a : EnvAnswer) (x : α) (s : State) : Run α :=
  if a.reset then .stop .cutByReset s else .ok x s

/-- What `NvRead` answers (R66). -/
inductive NvAnswer where
  | absent
  | bytes (b : List Byte)
  | fail
deriving DecidableEq, Repr

/-- The store's content as `NvRead` answers it (R66). -/
def Store.answer (n : Store) : NvAnswer :=
  match n with
  | .absent => .absent
  | .bytes b => .bytes b

/-- `NvRead()`: the whole store, or `Fail`; the store is not changed (R66; log 23). -/
def nvRead (s : State) : Run NvAnswer :=
  let a := s.edge.answer.1
  let e := s.edge.answer.2.pass a.elapsed a.arrived
  afterAccess a (if a.ok then Store.answer e.nvs else .fail) { s with edge := e.record .nvRead }

/-- `NvWrite(b)`: on Ok the store holds `b`, durably; on Fail, and when power is lost during it, the store holds
anything (R67, R289). -/
def nvWrite (b : List Byte) (s : State) : Run Bool :=
  let a := s.edge.answer.1
  let e := s.edge.answer.2.pass a.elapsed a.arrived
  let written := a.ok && !a.reset
  afterAccess a a.ok
    { s with edge := ({ e with nvs := if written then .bytes b else a.store }).record (.nvWrite b written) }

/-- `TxWrite(b)`: on Ok all of `b` was sent; on Fail, or when it is cut, a prefix (R72). It returns (log 6). -/
def txWrite (b : List Byte) (s : State) : Run Bool :=
  let a := s.edge.answer.1
  let e := s.edge.answer.2.pass a.elapsed a.arrived
  let sentNow := if a.ok && !a.reset then b else b.take a.count
  afterAccess a a.ok
    { s with edge := ({ e with sent := e.sent ++ sentNow }).record (.txWrite b (a.ok && !a.reset)) }

/-- `RxRead(n, t)`: at most time `t`, between 0 and `n` bytes from the front of the received stream, which are consumed
(R73). -/
def rxRead (n t : Nat) (s : State) : Run (List Byte) :=
  let a := s.edge.answer.1
  let e := s.edge.answer.2.pass (min a.elapsed t) a.arrived
  let k := min n a.count
  afterAccess a (e.rx.take k)
    { s with edge := ({ e with rx := e.rx.drop k }).record (.rxRead n (e.rx.take k)) }

/-- `RxFlush()`: drops a prefix of what the remote side has produced so far; it has no failure answer (R74, R253). -/
def rxFlush (s : State) : Run Unit :=
  let a := s.edge.answer.1
  let e := s.edge.answer.2.pass a.elapsed a.arrived
  afterAccess a () { s with edge := ({ e with rx := e.rx.drop a.count }).record .rxFlush }

/-- `Delay(t)`: returns when at least `t` has passed (R258). -/
def delay (t : Nat) (s : State) : Run Unit :=
  let a := s.edge.answer.1
  let e := s.edge.answer.2.pass (t + a.elapsed) a.arrived
  afterAccess a () { s with edge := e.record .delay }

/-- `Now()` (R258). The second part of the result is the environment's bound on the loop heads of the search that
starts here, if one does (R179; log 5). -/
def clock (s : State) : Run (Nat × Nat) :=
  let a := s.edge.answer.1
  let e := s.edge.answer.2.pass a.elapsed a.arrived
  afterAccess a (e.now, a.count) { s with edge := e.record .now }

/-- `TpRelease()` (R75). A reset may come before or after the release. What becomes of the bytes buffered on the
receive side the spec does not say: here they stay (DESIGN CHOICE, unsafe, log 28). -/
def tpRelease (s : State) : Run Unit :=
  let a := s.edge.answer.1
  let e := s.edge.answer.2.pass a.elapsed a.arrived
  afterAccess a ()
    { s with edge := ({ e with tpOpen := if a.reset && !a.ok then e.tpOpen else false }).record .tpRelease }

/-- Bytes arrive on the received stream (R36, R77). They may arrive while the transport is closed, on which the spec is
silent (DESIGN CHOICE, unsafe, log 28). -/
def deliver (bytes : List Byte) (s : State) : State :=
  { s with edge := { s.edge with rx := s.edge.rx ++ bytes } }

/-! ## Free words -/

/-- The next free word (log 20). -/
def State.freeWord (s : State) : Word := Config.freeWord s.freeUsed

/-! ## Reset -/

/-- The reset input, in any state: every register at its reset value, the buffers without a value, the edge (NVS
included), the parameters and what is presented kept (R38, R270, R271; log 24). -/
def State.resetInput (s : State) : State where
  regs     := Regs.reset s.cfg.speedReset s.freeWord
  txbuf    := []
  rxbuf    := []
  edge     := s.edge
  cfg      := s.cfg
  freeUsed := s.freeUsed + 1
  failures := []
  pending  := s.pending
  hostData := s.hostData

end Sys2Proof.Machine
end

