-- ==== Sys2Proof/Machine/Flags.lean ====
section
/-! DEFINITION. STATUS and ERR: their values as the host reads them (R29, R30, R241), what starting an operation, ending
it and raising an error do to them (R28, R251). -/

namespace Sys2Proof.Machine

/-- STATUS as a byte: bit 0 BUSY, 1 DONE, 2 ERRF, 3 HALTED, 4 SEQ_VALID, 5 LINK_OK, 7:6 zero (R29). -/
def Status.byte (f : Status) : Byte :=
  BitVec.ofBool false ++ BitVec.ofBool false ++ BitVec.ofBool f.linkOk ++ BitVec.ofBool f.seqValid ++
    BitVec.ofBool f.halted ++ BitVec.ofBool f.errf ++ BitVec.ofBool f.done ++ BitVec.ofBool f.busy

/-- The code of an error kind (R241). -/
def ErrKind.code (e : ErrKind) : Byte :=
  match e with
  | .allocationFailure => 1#8
  | .transportTimeout => 2#8
  | .frameMismatch => 3#8
  | .retriesExhausted => 4#8
  | .storeUnavailable => 5#8
  | .notReady => 6#8
  | .illegalOperation => 7#8

/-- Which error kinds are fatal: `StoreUnavailable` alone (R241, R248). -/
def ErrKind.fatal (e : ErrKind) : Bool :=
  match e with
  | .storeUnavailable => true
  | .allocationFailure | .transportTimeout | .frameMismatch | .retriesExhausted | .notReady | .illegalOperation => false

/-- The class of a per-attempt failure (R242, R244). -/
def AttemptFailure.kind (f : AttemptFailure) : ErrKind :=
  match f with
  | .sendFailed | .markerNotFound | .headerShort | .payloadShort => .transportTimeout
  | .lengthMismatch | .sequenceMismatch | .checksumMismatch => .frameMismatch

/-- The number of TRE_STATE (R27). -/
def TreState.code (t : TreState) : BitVec 4 :=
  match t with
  | .idle => 0#4
  | .build => 1#4
  | .send => 2#4
  | .resync => 3#4
  | .readHeader => 4#4
  | .readPayload => 5#4
  | .validate => 6#4
  | .done => 7#4
  | .retry => 8#4
  | .failed => 9#4

/-- The number of SYN_STATE (R27). -/
def SynState.code (t : SynState) : BitVec 1 :=
  match t with
  | .search => 0#1
  | .gotFirst => 1#1

/-- An operation starts: BUSY set, DONE, ERRF and ERR cleared (R28). -/
def State.begin (s : State) (selector : BitVec 4) : State :=
  { s with regs := { s.regs with
      op := selector
      err := 0#8
      status := { s.regs.status with busy := true, done := false, errf := false } } }

/-- An operation ends without error: BUSY cleared, DONE set (R28). -/
def State.finished (s : State) : State :=
  { s with regs := { s.regs with status := { s.regs.status with busy := false, done := true } } }

/-- What `raise E` does, for every error: ERR takes the code, ERRF is set, a fatal error halts the engine, the operation
ends (R251, R252). Nothing is saved and control goes nowhere. -/
def State.raised (s : State) (e : ErrKind) : State :=
  { s with regs := { s.regs with
      err := e.code
      status := { s.regs.status with
        busy := false, done := true, errf := true, halted := s.regs.status.halted || e.fatal } } }

/-- The end of an operation: its normal end, its error, or the reset that cut it (R28, R251, R271). -/
def Run.settle (r : Run Unit) : State :=
  match r with
  | .ok () s => s.finished
  | .stop (.raised e) s => s.raised e
  | .stop .cutByReset s => s.resetInput

/-- A host's operation of a selector: ignored while HALTED (R28, R252), no step while BUSY (R28), refused where its
precondition fails (spec/93 U11, U33), else run to its end. -/
def operate (selector : BitVec 4) (precondition : State → Option Refusal) (body : State → Run Unit) (s : State) :
    Host.Outcome State Fault Refusal :=
  if s.regs.status.halted then .next s
  else if s.regs.status.busy then .fault .hostBlocked
  else match precondition s with
    | some r => .refused r
    | none => .next (body (s.begin selector)).settle

end Sys2Proof.Machine
end

