-- ==== Sys2Proof/Machine/Operands.lean ====
section
/-! DEFINITION. The operands of the operations (R104) and their preconditions: the bytes an operation reads must have been
written (R39, spec/93 U11), and an operation that uses the transport needs it open (R273, spec/93 U33). A precondition
is asked only where the operation would come to read those bytes or use the transport: an operation that ends in
`NotReady` or `AllocationFailure`, or makes no attempt, does neither (programs P2, vectors V33 to V35; log 9, log 25). -/

namespace Sys2Proof.Machine

open Codec

/-! ## Operand forms -/

/-- ARG0 as a count or a time (R104). -/
def State.count0 (s : State) : Nat := s.regs.arg0.toNat

/-- ARG1 as a count (R104). -/
def State.count1 (s : State) : Nat := s.regs.arg1.toNat

/-- The request frame as laid out, TXBUF[0..15+TXLEN] (R152, R186). -/
def State.txFrame (s : State) : List Byte := s.txbuf.read 0 (Config.headerSize + s.regs.txlen.toNat)

/-- The first `len` bytes of RXBUF (R157). -/
def State.rxFrame (s : State) (len : Nat) : List Byte := s.rxbuf.read 0 len

/-- TX_PAYLOAD_MAX less the argument block: the most write bytes a request holds (R83, R217). -/
def State.maxWriteBytes (s : State) : Nat := s.cfg.txPayloadMax - Config.spiArgBytes

/-- The frame can be stamped: every byte of TXBUF[0..15+n] that the stamp does not write itself holds a value (R152). -/
def State.stampable (s : State) (n : Nat) : Bool := s.txbuf.written 0 sequenceAt && s.txbuf.written Config.headerSize n

/-! ## Preconditions -/

/-- No precondition. -/
def noPrecondition (_ : State) : Option Refusal := none

/-- `CRC32` reads TXBUF[0..n-1] (R123). -/
def crcPrecondition (s : State) : Option Refusal :=
  if !s.txbuf.written 0 s.count0 && s.count0 ≤ s.cfg.txCapacity then some .txByteWithoutValue else none

/-- `FRM.STAMP` reads TXBUF[0..15+TXLEN] (R152). -/
def stampPrecondition (s : State) : Option Refusal :=
  if !s.stampable s.regs.txlen.toNat then some .txByteWithoutValue else none

/-- `FRM.ENCODE` reads the payload TXBUF[16..15+n]; it writes the header itself (R153). -/
def encodePrecondition (s : State) : Option Refusal :=
  if !s.txbuf.written Config.headerSize s.count1 && s.count1 ≤ s.cfg.txPayloadMax then some .txByteWithoutValue
  else none

/-- `FRM.DECHDR` reads RXBUF[0..15] (R156). -/
def dechdrPrecondition (s : State) : Option Refusal :=
  if !s.rxbuf.written 0 Config.headerSize then some .rxByteWithoutValue else none

/-- `FRM.VERIFY` reads RXBUF[0..L-1] (R157). -/
def verifyPrecondition (s : State) : Option Refusal :=
  if Config.headerSize ≤ s.count0 && !s.rxbuf.written 0 s.count0 && s.count0 ≤ s.cfg.rxCapacity then
    some .rxByteWithoutValue
  else none

/-- `SYN.AWAIT` uses the transport (R273). -/
def awaitPrecondition (s : State) : Option Refusal := if !s.edge.tpOpen then some .transportNotOpen else none

/-- What an exchange that makes an attempt needs: the bytes of the frame, and the transport open. -/
def attemptPrecondition (frameWritten : Bool) (s : State) : Option Refusal :=
  if !frameWritten then some .txByteWithoutValue
  else if !s.edge.tpOpen then some .transportNotOpen
  else none

/-- `TRE.XCHG` (R186, R188). -/
def xchgPrecondition (s : State) : Option Refusal :=
  if s.regs.status.seqValid && s.count0 ≤ s.cfg.rxPayloadMax && s.regs.arg1 != 0#32 then
    attemptPrecondition (s.stampable s.regs.txlen.toNat) s
  else none

/-- `INITIALIZE` (R221): it lays out its own frame. -/
def startPrecondition (s : State) : Option Refusal :=
  if s.regs.arg1 != 0#32 then attemptPrecondition true s else none

/-- `EXECUTE_SPI` (R224): it lays out the header and the argument block; the write bytes are the host's. -/
def spiPrecondition (s : State) : Option Refusal :=
  if s.regs.status.linkOk && s.regs.status.seqValid && s.count1 ≤ s.cfg.rxPayloadMax &&
      s.count0 ≤ s.maxWriteBytes && s.regs.arg2 != 0#32 then
    attemptPrecondition (s.txbuf.written (Config.headerSize + Config.spiArgBytes) s.count0) s
  else none

end Sys2Proof.Machine
end

