-- ==== Sys2Proof/Machine/Checksum.lean ====
section
/-! DEFINITION. The Checksum Engine: `CRC32` (spec/40_checksum.md). -/

namespace Sys2Proof.Machine

/-- `crc32` of a byte string as the unit runs it: the remainder stays in CRC_ACC (R24, R122). -/
def State.checksummed (s : State) (bs : List Byte) : State :=
  { s with regs := { s.regs with crcAcc := Codec.crcRemainder bs } }

/-- `CRC32` (R123). -/
def crc32Body (s : State) : Run Unit :=
  if s.cfg.txCapacity < s.count0 then raise .allocationFailure s
  else
    let b := s.txbuf.read 0 s.count0
    let s := s.checksummed b
    .ok () { s with regs := { s.regs with res := Codec.crc32 b } }

/-- OP 0x0 `CRC32` (R123). -/
def execCrc32 (s : State) : Host.Outcome State Fault Refusal := operate 0x0#4 crcPrecondition crc32Body s

end Sys2Proof.Machine
end

