-- ==== Sys2Proof/Machine/Frame.lean ====
section
/-! DEFINITION. The Frame Codec: `FRM.LAYOUT`, `FRM.STAMP`, `FRM.ENCODE`, `FRM.DECHDR`, `FRM.VERIFY`
(spec/42_frame_codec.md). -/

namespace Sys2Proof.Machine

open Codec

/-- `FRM.LAYOUT cmd, n` (R151): command, length, and zeros for the sequence number and the checksum. -/
def frmLayout (cmd : Word) (n : Nat) (s : State) : Run Unit :=
  if s.cfg.txPayloadMax < n then raise .allocationFailure s
  else
    let m := s.txbuf.writeWord 0 cmd
    let m := m.writeWord lengthAt (BitVec.ofNat 32 n)
    let m := m.writeWord sequenceAt 0#32
    let m := m.writeWord checksumAt 0#32
    .ok () { s with txbuf := m, regs := { s.regs with txlen := BitVec.ofNat 32 n } }

/-- `FRM.STAMP seq` (R152): the sequence number, then the checksum over the frame with its field zeroed. -/
def frmStamp (seq : Word) (s : State) : Run Unit :=
  let m := (s.txbuf.writeWord sequenceAt seq).writeWord checksumAt 0#32
  let f := Memory.read m 0 (Config.headerSize + s.regs.txlen.toNat)
  let c := crc32 f
  let s := s.checksummed f
  .ok () { s with txbuf := Memory.writeWord m checksumAt c, regs := { s.regs with res := c } }

/-- `FRM.ENCODE cmd, n, seq` (R153): layout, then stamp. -/
def frmEncode (cmd : Word) (n : Nat) (seq : Word) (s : State) : Run Unit :=
  (frmLayout cmd n s).bind fun _ s => frmStamp seq s

/-- `FRM.DECHDR` (R156). -/
def frmDechdr (s : State) : Run Unit :=
  let h := decodeHeader Config.byteOrder (s.rxFrame Config.headerSize)
  .ok () { s with regs := { s.regs with
    rcmd := h.command, rplen := h.payloadLength, rseq := h.sequence, rcsum := h.checksum } }

/-- `FRM.VERIFY L` (R157 to R159): the length field first, then the checksum recomputed on a copy. -/
def frmVerify (len : Nat) (s : State) : Run Bool :=
  if len < Config.headerSize || s.cfg.rxCapacity < len then raise .allocationFailure s
  else
    let f := s.rxFrame len
    if !lengthMatches Config.byteOrder f then .ok false { s with regs := { s.regs with res := 0#32 } }
    else
      let saved := (decodeHeader Config.byteOrder f).checksum
      let z := zeroChecksum f
      let ok := crc32 z == saved
      let s := s.checksummed z
      .ok ok { s with regs := { s.regs with res := if ok then 1#32 else 0#32 } }

/-- `FRM.LAYOUT` as an operation: ARG0 = cmd, ARG1 = n (R151). -/
def frmLayoutBody (s : State) : Run Unit := frmLayout s.regs.arg0 s.count1 s

/-- `FRM.STAMP` as an operation: ARG0 = seq (R152). -/
def frmStampBody (s : State) : Run Unit := frmStamp s.regs.arg0 s

/-- `FRM.ENCODE` as an operation: ARG0 = cmd, ARG1 = n, ARG2 = seq (R153). -/
def frmEncodeBody (s : State) : Run Unit := frmEncode s.regs.arg0 s.count1 s.regs.arg2 s

/-- `FRM.VERIFY` as an operation: ARG0 = L (R157). -/
def frmVerifyBody (s : State) : Run Unit := (frmVerify s.count0 s).bind fun _ s => .ok () s

/-- OP 0x3 `FRM.LAYOUT` (R151). -/
def execFrmLayout (s : State) : Host.Outcome State Fault Refusal := operate 0x3#4 noPrecondition frmLayoutBody s

/-- OP 0x4 `FRM.STAMP` (R152). -/
def execFrmStamp (s : State) : Host.Outcome State Fault Refusal := operate 0x4#4 stampPrecondition frmStampBody s

/-- OP 0x5 `FRM.ENCODE` (R153). -/
def execFrmEncode (s : State) : Host.Outcome State Fault Refusal := operate 0x5#4 encodePrecondition frmEncodeBody s

/-- OP 0x6 `FRM.DECHDR` (R156). -/
def execFrmDechdr (s : State) : Host.Outcome State Fault Refusal := operate 0x6#4 dechdrPrecondition frmDechdr s

/-- OP 0x7 `FRM.VERIFY` (R157). -/
def execFrmVerify (s : State) : Host.Outcome State Fault Refusal := operate 0x7#4 verifyPrecondition frmVerifyBody s

end Sys2Proof.Machine
end

