-- ==== Sys2Proof/Machine/Sequence.lean ====
section
/-! DEFINITION. The Sequence Manager: `SEQ.LOAD` and `SEQ.NEXT` (spec/41_sequence.md). -/

namespace Sys2Proof.Machine

/-- The four bytes NVS holds for a counter value (R67, decision D2). -/
def storeBytes (v : Word) : List Byte := Codec.wordBytes Config.byteOrder v

/-- STATUS.SEQ_VALID is set (R29, R136). -/
def State.counterLoaded (s : State) : State :=
  { s with regs := { s.regs with status := { s.regs.status with seqValid := true } } }

/-- SEQ takes a value. -/
def State.withSeq (s : State) (v : Word) : State := { s with regs := { s.regs with seq := v } }

/-- The store is absent or short: SEQ_INIT, written back (R136, R140, R143). -/
def seqFresh (s : State) : Run Unit :=
  (nvWrite (storeBytes Config.seqInit) (s.withSeq Config.seqInit)).bind fun ok s =>
    if ok then .ok () s.counterLoaded else raise .storeUnavailable s

/-- `SEQ.LOAD` (R136, R137, R140, R146). -/
def seqLoadBody (s : State) : Run Unit :=
  (nvRead s).bind fun r s =>
    match r with
    | .fail => raise .storeUnavailable s
    | .absent => seqFresh s
    | .bytes b =>
      if b.length < Config.nvsBytes then seqFresh s
      else .ok () (s.withSeq (Codec.bytesWord Config.byteOrder b)).counterLoaded

/-- `SEQ.NEXT` (R138 to R141): the value before the increment is returned, the value after it is persisted. -/
def seqNext (s : State) : Run Word :=
  if !s.regs.status.seqValid then raise .notReady s
  else
    let v := s.regs.seq
    (nvWrite (storeBytes (v + 1#32)) (s.withSeq (v + 1#32))).bind fun ok s =>
      if ok then .ok v { s with regs := { s.regs with res := v } } else raise .storeUnavailable s

/-- `SEQ.NEXT` as an operation of its own. -/
def seqNextBody (s : State) : Run Unit := (seqNext s).bind fun _ s => .ok () s

/-- OP 0x1 `SEQ.LOAD` (R136). -/
def execSeqLoad (s : State) : Host.Outcome State Fault Refusal := operate 0x1#4 noPrecondition seqLoadBody s

/-- OP 0x2 `SEQ.NEXT` (R138). -/
def execSeqNext (s : State) : Host.Outcome State Fault Refusal := operate 0x2#4 noPrecondition seqNextBody s

end Sys2Proof.Machine
end

