-- ==== Sys2Proof/Machine/Sync.lean ====
section
/-! DEFINITION. The Stream Synchronizer: `SYN.AWAIT` (spec/43_synchronizer.md). -/

namespace Sys2Proof.Machine

/-- One byte taken from the received stream: the next SYN_STATE, and whether the search ends in success (R172). -/
def synNext (st : SynState) (b : Byte) : SynState × Bool :=
  match st with
  | .search => if b = Config.markerFirst then (.gotFirst, false) else (.search, false)
  | .gotFirst =>
    if b = Config.markerSecond then (.gotFirst, true)
    else if b = Config.markerFirst then (.gotFirst, false)
    else (.search, false)

/-- The search on a byte string alone: how many bytes are consumed when it succeeds, or none (R172, R176). -/
def synScan : SynState → List Byte → Option Nat
  | _, [] => none
  | st, b :: bs => if (synNext st b).2 then some 1 else (synScan (synNext st b).1 bs).map (· + 1)

/-- SYN_STATE takes a state: `pc <- S` (R27). -/
def State.toSyn (s : State) (st : SynState) : State := { s with regs := { s.regs with syn := st } }

/-- RES takes a word (R22). -/
def State.withRes (s : State) (v : Word) : State := { s with regs := { s.regs with res := v } }

/-- The loop of the search (R173 to R176). `heads` is the environment's bound on the loop heads still to come: where it
is spent, time has passed beyond the bound (R179; log 5). -/
def synLoop (bound t0 : Nat) : Nat → State → Run Bool
  | 0, s => .ok false ({ s with edge := s.edge.pass (t0 + bound + 1 - s.edge.now) [] }.withRes 0#32)
  | heads + 1, s =>
    (clock s).bind fun t s =>
      if bound < t.1 - t0 then .ok false (s.withRes 0#32)
      else (rxRead 1 s.cfg.tSub s).bind fun r s =>
        match r with
        | [] => synLoop bound t0 heads s
        | b :: _ =>
          let n := synNext s.regs.syn b
          if n.2 then .ok true ((s.toSyn n.1).withRes 1#32) else synLoop bound t0 heads (s.toSyn n.1)

/-- `SYN.AWAIT bound` (R171, R173): true for success, false for timeout. -/
def synAwait (bound : Nat) (s : State) : Run Bool :=
  (clock s).bind fun t s => synLoop bound t.1 t.2 (s.toSyn .search)

/-- `SYN.AWAIT` as an operation: ARG0 = bound (R173). -/
def synAwaitBody (s : State) : Run Unit := (synAwait s.count0 s).bind fun _ s => .ok () s

/-- OP 0x8 `SYN.AWAIT` (R173). -/
def execSynAwait (s : State) : Host.Outcome State Fault Refusal := operate 0x8#4 awaitPrecondition synAwaitBody s

end Sys2Proof.Machine
end

