-- ==== Sys2Proof/Machine/Retry.lean ====
section
/-! DEFINITION. The Transport Retry Engine: `TRE.XCHG` (spec/44_retry_engine.md). One definition per state of the
machine of R205. A step of an attempt ends with `none` where it passed, or with the per-attempt failure (R242). -/

namespace Sys2Proof.Machine

/-- TRE_STATE takes a state: `pc <- S` (R27, R205). -/
def State.toTre (s : State) (st : TreState) : State := { s with regs := { s.regs with tre := st } }

/-- The exchange ended in error: RXBUF and RES hold no value (R34, R39, R186, R290; log 13). -/
def State.replyLost (s : State) : State :=
  { s with rxbuf := [], regs := { s.regs with res := s.freeWord }, freeUsed := s.freeUsed + 1 }

/-- One step of an attempt after another: the first failure ends the attempt (R198, R250). -/
def andThen (r : Run (Option AttemptFailure)) (k : State → Run (Option AttemptFailure)) : Run (Option AttemptFailure) :=
  r.bind fun f s =>
    match f with
    | some f => .ok (some f) s
    | none => k s

/-- Step 1, Build: one fresh sequence number, recorded and stamped (R189); a store failure ends the exchange (R190). -/
def treBuild (s : State) : Run (Option AttemptFailure) :=
  match seqNext (s.toTre .build) with
  | .ok v s =>
    (frmStamp v { s with regs := { s.regs with curseq := v } }).bind fun _ s => .ok none s
  | .stop (.raised e) s => raise e s.replyLost
  | .stop .cutByReset s => .stop .cutByReset s

/-- Step 2, Send: the marker, then the frame (R76, R191, R192). -/
def treSend (s : State) : Run (Option AttemptFailure) :=
  (txWrite Config.marker (s.toTre .send)).bind fun ok s =>
    if !ok then .ok (some .sendFailed) s
    else (txWrite s.txFrame s).bind fun ok s => .ok (if ok then none else some .sendFailed) s

/-- Step 3, Resync (R193). -/
def treResync (s : State) : Run (Option AttemptFailure) :=
  (synAwait s.cfg.tResync (s.toTre .resync)).bind fun found s =>
    .ok (if found then none else some .markerNotFound) s

/-- Steps 4 and 5, ReadHeader and the length check (R194, R196). -/
def treReadHeader (exp : Word) (s : State) : Run (Option AttemptFailure) :=
  (rxRead Config.headerSize s.cfg.tRead (s.toTre .readHeader)).bind fun h s =>
    if h.length < Config.headerSize then .ok (some .headerShort) s
    else (frmDechdr { s with rxbuf := s.rxbuf.write 0 h }).bind fun _ s =>
      .ok (if s.regs.rplen = exp then none else some .lengthMismatch) s

/-- Step 6, ReadPayload, skipped for an empty payload (R197). -/
def treReadPayload (exp : Word) (s : State) : Run (Option AttemptFailure) :=
  if exp = 0#32 then .ok none s
  else (rxRead exp.toNat s.cfg.tRead (s.toTre .readPayload)).bind fun p s =>
    if p.length < exp.toNat then .ok (some .payloadShort) s
    else .ok none { s with rxbuf := s.rxbuf.write Config.headerSize p }

/-- Step 7, Validate: the sequence number, then the checksum (R198 to R200). -/
def treValidate (exp : Word) (s : State) : Run (Option AttemptFailure) :=
  let s := s.toTre .validate
  if s.regs.rseq ≠ s.regs.curseq then .ok (some .sequenceMismatch) s
  else (frmVerify (Config.headerSize + exp.toNat) s).bind fun ok s =>
    .ok (if ok then none else some .checksumMismatch) s

/-- One attempt, from Build to Validate, in the fixed order of checks (R187, R198, R250). -/
def treAttempt (exp : Word) (s : State) : Run (Option AttemptFailure) :=
  andThen (andThen (andThen (andThen (andThen
    (treBuild { s with regs := { s.regs with attempt := s.regs.attempt + 1#32 } })
    treSend) treResync) (treReadHeader exp)) (treReadPayload exp)) (treValidate exp)

/-- The Retry edge: flush, then, if another attempt follows, the delay (R203). The cause is kept in the model's own
history (R243). -/
def retryEdge (f : AttemptFailure) (again : Bool) (s : State) : Run Unit :=
  (rxFlush { s.toTre .retry with failures := s.failures ++ [f] }).bind fun _ s =>
    if again then delay s.cfg.tRetryDelay s else .ok () s

/-- The loop of attempts (R186, R187). `left` is MAXATT less ATTEMPT, the attempts still allowed. -/
def treAttempts (exp : Word) : Nat → State → Run Unit
  | 0, s => raise .retriesExhausted (s.toTre .failed).replyLost
  | left + 1, s =>
    (treAttempt exp s).bind fun r s =>
      match r with
      | none => .ok () ((s.toTre .done).withRes exp)
      | some f => (retryEdge f (left != 0) s).bind fun _ s => treAttempts exp left s

/-- `TRE.XCHG exp, max` (R186, R188). -/
def treXchg (exp max : Word) (s : State) : Run Unit :=
  if !s.regs.status.seqValid then raise .notReady s
  else if s.cfg.rxPayloadMax < exp.toNat then raise .allocationFailure s
  else treAttempts exp max.toNat
    { s with regs := { s.regs with expLen := exp, maxAtt := max, attempt := 0#32 }, failures := [] }

/-- `TRE.XCHG` as an operation: ARG0 = EXP, ARG1 = MAX (R186). -/
def treXchgBody (s : State) : Run Unit := treXchg s.regs.arg0 s.regs.arg1 s

/-- OP 0x9 `TRE.XCHG` (R186). -/
def execTreXchg (s : State) : Host.Outcome State Fault Refusal := operate 0x9#4 xchgPrecondition treXchgBody s

end Sys2Proof.Machine
end

