-- ==== Sys2Proof/Machine/Command.lean ====
section
/-! DEFINITION. The Command Builder (`CMB.PROBE`, `CMB.SPI`), the host operations (`INITIALIZE`, `EXECUTE_SPI`,
`SHUTDOWN`) and the reserved selector 0xF (spec/45_commands_host.md, R105, R249). -/

namespace Sys2Proof.Machine

open Codec

/-- `CMB.PROBE` (R216): command 0, empty payload. -/
def cmbProbe (s : State) : Run Unit := frmLayout Config.cmdProbe 0 s

/-- `CMB.SPI wcount, rcount` (R217): the argument block at payload offset 0, then the layout. -/
def cmbSpi (wcount rcount : Word) (s : State) : Run Unit :=
  if s.maxWriteBytes < wcount.toNat then raise .allocationFailure s
  else
    let m := s.txbuf.writeWord (Config.headerSize + argumentAt 0) s.regs.speed
    let m := m.writeWord (Config.headerSize + argumentAt 1) s.cfg.spiK0
    let m := m.writeWord (Config.headerSize + argumentAt 2) s.cfg.spiK1
    let m := m.writeWord (Config.headerSize + argumentAt 3) s.cfg.spiK2
    let m := m.writeWord (Config.headerSize + argumentAt 4) s.cfg.spiK3
    let m := m.writeWord (Config.headerSize + argumentAt 5) wcount
    let m := m.writeWord (Config.headerSize + argumentAt 6) rcount
    frmLayout Config.cmdSpi (Config.spiArgBytes + wcount.toNat) { s with txbuf := m }

/-- STATUS.LINK_OK takes a value (R29). -/
def State.withLink (s : State) (v : Bool) : State :=
  { s with regs := { s.regs with status := { s.regs.status with linkOk := v } } }

/-- `CMB.SPI` as an operation: ARG0 = wcount, ARG1 = rcount (R217). -/
def cmbSpiBody (s : State) : Run Unit := cmbSpi s.regs.arg0 s.regs.arg1 s

/-- `INITIALIZE` (R221, R222): ARG1 = maxatt. -/
def startBody (s : State) : Run Unit :=
  (seqLoadBody (s.withLink false)).bind fun _ s =>
    (cmbProbe s).bind fun _ s =>
      (treXchg 0#32 s.regs.arg1 s).bind fun _ s => .ok () (s.withLink true)

/-- `EXECUTE_SPI` (R224, R225): ARG0 = wcount, ARG1 = rcount, ARG2 = maxatt. -/
def spiBody (s : State) : Run Unit :=
  if !s.regs.status.linkOk then raise .notReady s
  else if s.cfg.rxPayloadMax < s.count1 then raise .allocationFailure s
  else (cmbSpi s.regs.arg0 s.regs.arg1 s).bind fun _ s => treXchg s.regs.arg1 s.regs.arg2 s

/-- `SHUTDOWN` (R227). -/
def shutdownBody (s : State) : Run Unit := (tpRelease s).bind fun _ s => .ok () (s.withLink false)

/-- The reserved selector (R105, R249). -/
def reservedBody (s : State) : Run Unit := raise .illegalOperation s

/-- OP 0xA `CMB.PROBE` (R216). -/
def execCmbProbe (s : State) : Host.Outcome State Fault Refusal := operate 0xA#4 noPrecondition cmbProbe s

/-- OP 0xB `CMB.SPI` (R217). -/
def execCmbSpi (s : State) : Host.Outcome State Fault Refusal := operate 0xB#4 noPrecondition cmbSpiBody s

/-- OP 0xC `INITIALIZE` (R221). -/
def execHostInitialize (s : State) : Host.Outcome State Fault Refusal := operate 0xC#4 startPrecondition startBody s

/-- OP 0xD `EXECUTE_SPI` (R224). -/
def execHostExecuteSpi (s : State) : Host.Outcome State Fault Refusal := operate 0xD#4 spiPrecondition spiBody s

/-- OP 0xE `SHUTDOWN` (R227). -/
def execHostShutdown (s : State) : Host.Outcome State Fault Refusal := operate 0xE#4 noPrecondition shutdownBody s

/-- OP 0xF, reserved (R105, R249). -/
def execReservedF (s : State) : Host.Outcome State Fault Refusal := operate 0xF#4 noPrecondition reservedBody s

end Sys2Proof.Machine
end

