-- ==== Sys2Proof/Machine/Wire.lean ====
section
/-! DEFINITION. The wire rows: a message of the row arrives on the received stream, as an `RX:` line of a program says
(R36, R77, R106; log 10). What the engine sends is an effect of `TRE.XCHG` (Send, R191). -/

namespace Sys2Proof.Machine

/-- The marker alone arrives (R92). -/
def execWireMarker (s : State) : Host.Outcome State Fault Refusal := .next (deliver (encode .wireMarker) s)

/-- A frame arrives, behind its marker (R91, R102). -/
def execWireFrame (command seq checksum : Word) (payload : List Byte) (s : State) :
    Host.Outcome State Fault Refusal :=
  .next (deliver (encode (.wireFrame command seq checksum payload)) s)

/-- A message of the form of a probe request arrives: an echo (R97, vector V30). -/
def execWireProbeRequest (seq checksum : Word) (s : State) : Host.Outcome State Fault Refusal :=
  .next (deliver (encode (.wireProbeRequest seq checksum)) s)

/-- A message of the form of an SPI request arrives: an echo (R98). -/
def execWireSpiRequest (seq checksum speed k0 k1 k2 k3 rcount : Word) (writeBytes : List Byte) (s : State) :
    Host.Outcome State Fault Refusal :=
  .next (deliver (encode (.wireSpiRequest seq checksum speed k0 k1 k2 k3 rcount writeBytes)) s)

/-- A reply arrives (R99). -/
def execWireReply (command seq checksum : Word) (payload : List Byte) (s : State) :
    Host.Outcome State Fault Refusal :=
  .next (deliver (encode (.wireReply command seq checksum payload)) s)

end Sys2Proof.Machine
end

