-- ==== Sys2Proof/Machine/Dispatch.lean ====
section
/-! DEFINITION. One arm per constructor of Instr. -/

namespace Sys2Proof.Machine

def exec (i : Instr) (s : State) : Host.Outcome State Fault Refusal :=
  match i with
  | .crc32 => Sys2Proof.Machine.execCrc32 s
  | .seqLoad => Sys2Proof.Machine.execSeqLoad s
  | .seqNext => Sys2Proof.Machine.execSeqNext s
  | .frmLayout => Sys2Proof.Machine.execFrmLayout s
  | .frmStamp => Sys2Proof.Machine.execFrmStamp s
  | .frmEncode => Sys2Proof.Machine.execFrmEncode s
  | .frmDechdr => Sys2Proof.Machine.execFrmDechdr s
  | .frmVerify => Sys2Proof.Machine.execFrmVerify s
  | .synAwait => Sys2Proof.Machine.execSynAwait s
  | .treXchg => Sys2Proof.Machine.execTreXchg s
  | .cmbProbe => Sys2Proof.Machine.execCmbProbe s
  | .cmbSpi => Sys2Proof.Machine.execCmbSpi s
  | .hostInitialize => Sys2Proof.Machine.execHostInitialize s
  | .hostExecuteSpi => Sys2Proof.Machine.execHostExecuteSpi s
  | .hostShutdown => Sys2Proof.Machine.execHostShutdown s
  | .reservedF => Sys2Proof.Machine.execReservedF s
  | .wireMarker => Sys2Proof.Machine.execWireMarker s
  | .wireFrame command seq checksum payload => Sys2Proof.Machine.execWireFrame command seq checksum payload s
  | .wireProbeRequest seq checksum => Sys2Proof.Machine.execWireProbeRequest seq checksum s
  | .wireSpiRequest seq checksum speed k0 k1 k2 k3 rcount writeBytes => Sys2Proof.Machine.execWireSpiRequest seq checksum speed k0 k1 k2 k3 rcount writeBytes s
  | .wireReply command seq checksum payload => Sys2Proof.Machine.execWireReply command seq checksum payload s

end Sys2Proof.Machine
end

