-- ==== Sys2Proof/Machine/Host.lean ====
section
/-! DEFINITION. The host port and the other events of the engine's surroundings (R28, R32 to R34, R36, R106, R270, R273),
and how the next of them becomes a step. -/

namespace Sys2Proof.Machine

/-! ## Registers by number -/

/-- A host read of a register by its number (R32): narrow registers read with their upper bits zero, OP and numbers above
20 read 0. SEQ has no value while SEQ_VALID = 0: the read answers a free word (R39; spec/93 U10). -/
def readReg (s : State) (n : Nat) : Word :=
  match n with
  | 1 => (Status.byte s.regs.status).setWidth 32
  | 2 => s.regs.err.setWidth 32
  | 3 => s.regs.arg0
  | 4 => s.regs.arg1
  | 5 => s.regs.arg2
  | 6 => s.regs.res
  | 7 => s.regs.speed
  | 8 => if s.regs.status.seqValid then s.regs.seq else s.freeWord
  | 9 => s.regs.crcAcc
  | 10 => s.regs.txlen
  | 11 => s.regs.expLen
  | 12 => s.regs.maxAtt
  | 13 => s.regs.attempt
  | 14 => s.regs.curseq
  | 15 => s.regs.rcmd
  | 16 => s.regs.rplen
  | 17 => s.regs.rseq
  | 18 => s.regs.rcsum
  | 19 => (TreState.code s.regs.tre).setWidth 32
  | 20 => (SynState.code s.regs.syn).setWidth 32
  | _ => 0#32

/-- A host write of a register other than OP: ARG0 to ARG2 and SPEED keep exactly what was written, a read-only register
and a number above 20 ignore it (R22, R31, R32). -/
def writeReg (s : State) (n : Nat) (v : Word) : State :=
  match n with
  | 3 => { s with regs := { s.regs with arg0 := v } }
  | 4 => { s with regs := { s.regs with arg1 := v } }
  | 5 => { s with regs := { s.regs with arg2 := v } }
  | 7 => { s with regs := { s.regs with speed := v } }
  | _ => s

/-! ## Host accesses -/

/-- A host access has no step while the engine is busy (R28, R281; spec/93 U43). -/
def whileIdle (s : State) (k : Host.Outcome State Fault Refusal) : Host.Outcome State Fault Refusal :=
  if s.regs.status.busy then .fault .hostBlocked else k

/-- What the host's read answers goes to the host. -/
def State.answered (s : State) (v : Word) : State := { s with hostData := v, freeUsed := s.freeUsed + 1 }

/-- What a host reads from a buffer byte: its value, or any value where it holds none (spec/93 U11, U12). -/
def readByte (s : State) (m : Memory) (a : Nat) : Word :=
  ((Memory.get? m a).getD (Config.freeByte s.freeUsed)).setWidth 32

/-- A host write to OP starts the operation of the selector (R28, R103). -/
def startOperation (v : Word) (s : State) : Host.Outcome State Fault Refusal :=
  match decode .op [v.setWidth 8] with
  | .ok (i, _) => exec i s
  | .error _ => .next s

/-- A host write by register number (R28, R32). -/
def hostWrite (n : Nat) (v : Word) (s : State) : Host.Outcome State Fault Refusal :=
  match n with
  | 0 => startOperation v s
  | n + 1 => whileIdle s (.next (writeReg s (n + 1) v))

/-- A host write of TXBUF bytes, inside the buffer (R33). -/
def hostWriteTx (off : Nat) (bytes : List Byte) (s : State) : Host.Outcome State Fault Refusal :=
  whileIdle s (if s.cfg.txCapacity < off + bytes.length then .fault .txOffsetOutside
    else .next { s with txbuf := s.txbuf.write off bytes })

/-- A host read of a TXBUF byte (R33). -/
def hostReadTx (off : Nat) (s : State) : Host.Outcome State Fault Refusal :=
  whileIdle s (if s.cfg.txCapacity ≤ off then .fault .txOffsetOutside
    else .next (s.answered (readByte s s.txbuf off)))

/-- A host write of RXBUF bytes, inside the buffer (R34). -/
def hostWriteRx (off : Nat) (bytes : List Byte) (s : State) : Host.Outcome State Fault Refusal :=
  whileIdle s (if s.cfg.rxCapacity < off + bytes.length then .fault .rxOffsetOutside
    else .next { s with rxbuf := s.rxbuf.write off bytes })

/-- A host read of an RXBUF byte (R34). -/
def hostReadRx (off : Nat) (s : State) : Host.Outcome State Fault Refusal :=
  whileIdle s (if s.cfg.rxCapacity ≤ off then .fault .rxOffsetOutside
    else .next (s.answered (readByte s s.rxbuf off)))

/-! ## Events of the surroundings -/

/-- Bytes arrive: a whole message of a wire row, or any other bytes, such as noise or a part of a message (R77).
They may arrive while the transport is closed (DESIGN CHOICE, unsafe, log 28). -/
def arrive (p : Port) (bytes : List Byte) (s : State) : Host.Outcome State Fault Refusal :=
  match decodeWire p bytes with
  | .ok (i, []) => exec i s
  | .ok (_, _ :: _) => .next (deliver bytes s)
  | .error _ => .next (deliver bytes s)

/-- The transport's owner opens it (R71, R75, R273). Whether bytes buffered before survive the opening the spec does not
say: here they stay (DESIGN CHOICE, unsafe, log 28). -/
def openTransport (s : State) : State := { s with edge := { s.edge with tpOpen := true } }

/-- One event. -/
def runEvent (e : Event) (s : State) : Host.Outcome State Fault Refusal :=
  match e with
  | .hostWrite n v => hostWrite n v s
  | .hostRead n => whileIdle s (.next (s.answered (readReg s n)))
  | .hostWriteTx off bytes => hostWriteTx off bytes s
  | .hostReadTx off => hostReadTx off s
  | .hostWriteRx off bytes => hostWriteRx off bytes s
  | .hostReadRx off => hostReadRx off s
  | .arrive p bytes => arrive p bytes s
  | .openTransport => .next (openTransport s)
  | .resetInput => .next s.resetInput

/-- The next event is taken from the front and run. With nothing presented the engine stays idle: nothing wakes it but a
host operation (R262, R270). -/
def runNext (s : State) : Host.Outcome State Fault Refusal :=
  match s.pending with
  | [] => .next s
  | e :: rest => runEvent e { s with pending := rest }

/-- The event that presents a word of spec/opcode_table.json: a write to OP, or a message that arrives. -/
def tableEvent (nbits w : Nat) : Event :=
  if nbits ≤ 8 then .hostWrite 0 (BitVec.ofNat 32 (w % 256)) else .arrive .request (tableMessage nbits w)

end Sys2Proof.Machine
end

