-- ==== Sys2Proof/Machine/Step.lean ====
section
/-! DEFINITION. One step of the machine: the next thing the host or its surroundings present (R11, R106; log 21). -/

namespace Sys2Proof.Machine

/-- One step. The engine fetches no instructions (R27): operations are presented one at a time (R81). -/
def step (s : State) : Host.Outcome State Fault Refusal := runNext s

/-- `s` with the instruction of a table word presented next (log 21). -/
def State.withFetchWord (s : State) (nbits w : Nat) : State :=
  { s with pending := tableEvent nbits w :: s.pending }

end Sys2Proof.Machine
end

