-- ==== Sys2Proof/Safety.lean ====
section
/-! DEFINITION. The terms in which claims about the machine are made: when the engine accepts an operation, the invariant
of its state, what has been sent, and an environment that answers promptly. -/

namespace Sys2Proof.Machine

open Codec

/-- The engine accepts an operation: neither halted nor busy (R28). -/
def State.ready (s : State) : Bool := !s.regs.status.halted && !s.regs.status.busy

/-- STATUS after an operation that ended without error (R28, R29). -/
def Status.ended (f : Status) : Status := { f with busy := false, done := true, errf := false }

/-- STATUS after an operation that ended with an error that is not fatal (R28, R251). -/
def Status.failed (f : Status) : Status := { f with busy := false, done := true, errf := true }

/-- STATUS after an operation that ended with the fatal error (R248, R251, R252). -/
def Status.stopped (f : Status) : Status := { f with busy := false, done := true, errf := true, halted := true }

/-- The state after an operation of a selector that ended without error, but for the operation's own effects (R28). -/
def State.after (s : State) (selector : BitVec 4) : State :=
  { s with regs := { s.regs with op := selector, err := 0#8, status := s.regs.status.ended } }

/-- The edge after one access that drew the answer `a` and left the answers `rest`: time passed and bytes arrived. -/
def Edge.drawn (e : Edge) (a : EnvAnswer) (rest : List EnvAnswer) : Edge :=
  { e with answers := rest, now := e.now + a.elapsed, rx := e.rx ++ a.arrived }

/-- The state after an operation of a selector that ended with a non-fatal error before any other effect (R251). -/
def State.refusedWith (s : State) (selector : BitVec 4) (e : ErrKind) : State :=
  { s with regs := { s.regs with op := selector, err := e.code, status := s.regs.status.failed } }

/-- The codes ERR can hold: those of the kinds the host sees (R30, R241). -/
def visibleCodes : List Byte := [0#8, 1#8, 4#8, 5#8, 6#8, 7#8]

/-- The store holds what SEQ holds (R35, R137, R142). -/
def Edge.holds (e : Edge) (v : Word) : Prop :=
  ∃ b, e.nvs = .bytes b ∧ 4 ≤ b.length ∧ bytesWord Config.byteOrder b = v

/-- The invariant of the machine between two steps. -/
structure State.Inv (s : State) : Prop where
  /-- TXBUF is in canonical form. -/
  txWf : s.txbuf.wf = true
  /-- RXBUF is in canonical form. -/
  rxWf : s.rxbuf.wf = true
  /-- TXBUF has `16 + TX_PAYLOAD_MAX` bytes (R33). -/
  txBelow : s.txbuf.below s.cfg.txCapacity = true
  /-- RXBUF has `16 + RX_PAYLOAD_MAX` bytes (R34). -/
  rxBelow : s.rxbuf.below s.cfg.rxCapacity = true
  /-- The laid-out frame fits TXBUF (R83, R151). -/
  txlenFits : s.regs.txlen.toNat ≤ s.cfg.txPayloadMax
  /-- The expected reply fits RXBUF (R83, R188). -/
  expFits : s.regs.expLen.toNat ≤ s.cfg.rxPayloadMax
  /-- No more attempts than MAXATT were started (R187). -/
  attemptBounded : s.regs.attempt.toNat ≤ s.regs.maxAtt.toNat
  /-- No operation is running (R28). -/
  notBusy : s.regs.status.busy = false
  /-- ERR holds a code the host may see, so never that of a per-attempt failure (R30, R243). -/
  errVisible : s.regs.err ∈ visibleCodes
  /-- ERRF says that ERR is not 0 (R29, R30). -/
  errFlag : s.regs.status.errf = (s.regs.err != 0#8)
  /-- HALTED says that the last operation ended in `StoreUnavailable` (R248, R252). -/
  haltedStore : s.regs.status.halted = (s.regs.err == ErrKind.storeUnavailable.code)
  /-- The link was probed only with the counter loaded (R221). -/
  linkCounted : s.regs.status.linkOk = true → s.regs.status.seqValid = true
  /-- Between operations TRE_STATE is IDLE, DONE or FAILED (R27), or BUILD in an engine halted there (R190, R205). -/
  treRest : s.regs.tre = .idle ∨ s.regs.tre = .done ∨ s.regs.tre = .failed ∨
    (s.regs.tre = .build ∧ s.regs.status.halted = true)
  /-- While the counter is loaded and the engine not halted, the store holds SEQ (R35, R142). -/
  storeAgrees : s.regs.status.seqValid = true → s.regs.status.halted = false → s.edge.holds s.regs.seq

/-! ## What was sent, what was taken -/

/-- The sequence numbers of the frames handed to the transport, whole or in part (R70, R76). -/
def sentNumbers (trace : List Access) : List Word :=
  trace.filterMap fun x =>
    match x with
    | .txWrite b _ => if Config.headerSize ≤ b.length then some (bytesWord Config.byteOrder (b.drop sequenceAt)) else none
    | .nvRead | .nvWrite _ _ | .rxRead _ _ | .rxFlush | .now | .delay | .tpRelease => none

/-- The bytes taken from the received stream, in order (R73). -/
def takenBytes (trace : List Access) : List Byte :=
  trace.flatMap fun x =>
    match x with
    | .rxRead _ got => got
    | .txWrite _ _ | .nvRead | .nvWrite _ _ | .rxFlush | .now | .delay | .tpRelease => []

/-- The flushes and the delays, in order: the accesses that only the Retry edge makes (R79, R203). -/
def flushesAndDelays (trace : List Access) : List Access :=
  trace.filter fun x =>
    match x with
    | .rxFlush | .delay => true
    | .nvRead | .nvWrite _ _ | .txWrite _ _ | .rxRead _ _ | .now | .tpRelease => false

/-- Every sequence number that was handed to the transport is below the value the store holds (R70). -/
def Edge.sentBelowStore (e : Edge) : Prop :=
  ∀ v ∈ sentNumbers e.trace,
    ∃ b, e.nvs = .bytes b ∧ 4 ≤ b.length ∧ v.toNat < (bytesWord Config.byteOrder b).toNat

/-- The store was never left unspecified: every write of it was completed (R67, R142, R289). -/
def Edge.storeIntact (e : Edge) : Prop := ∀ b, Access.nvWrite b false ∉ e.trace

/-- The counter has not wrapped: 0 was never persisted (R141). -/
def Edge.notWrapped (e : Edge) : Prop := Access.nvWrite (storeBytes 0#32) true ∉ e.trace

/-! ## A prompt environment -/

/-- An answer without reset, failure, delay or new bytes, which lets every byte through at once. -/
def EnvAnswer.prompt (a : EnvAnswer) : Bool :=
  !a.reset && a.ok && a.elapsed == 0 && a.arrived.isEmpty && 4294967296 ≤ a.count

/-- The next `n` answers are prompt. -/
def Edge.prompt (e : Edge) (n : Nat) : Bool := n ≤ e.answers.length && (e.answers.take n).all EnvAnswer.prompt

end Sys2Proof.Machine
end

