-- ==== Sys2Proof/Certificates/Slice0/Obligations.lean ====
section
/-! DEFINITION. The statements for the provers, each a reading of the spec's rules. -/

open Sys2Proof Sys2Proof.Machine Sys2Proof.Codec

/-! ## The Checksum Engine -/

/-- R123: `CRC32`, its result and its error. That unwritten bytes make it refused is read from R39 (log 3). -/
def Obligations.Crc32Operation : Prop :=
  ∀ s : State, s.ready = true →
    (s.count0 ≤ s.cfg.txCapacity → s.txbuf.written 0 s.count0 = true →
      exec .crc32 s = .next { s.after 0x0#4 with regs := { (s.after 0x0#4).regs with
        res := crc32 (s.txbuf.read 0 s.count0)
        crcAcc := crc32 (s.txbuf.read 0 s.count0) ^^^ 0xFFFFFFFF#32 } }) ∧
    (s.cfg.txCapacity < s.count0 → exec .crc32 s = .next (s.refusedWith 0x0#4 .allocationFailure)) ∧
    (s.count0 ≤ s.cfg.txCapacity → s.txbuf.written 0 s.count0 = false →
      exec .crc32 s = .refused .txByteWithoutValue)

/-- R124: the half-byte form equals the bitwise form and the full-table form. -/
def Obligations.HalfByteFormEqualsReferenceForms : Prop :=
  ∀ bs : List Byte, crc32 bs = crc32Bitwise bs ∧ crc32 bs = crc32FullTable bs

/-- R126, second point: the checksum is affine over bitwise xor of strings of equal length. -/
def Obligations.ChecksumIsAffine : Prop :=
  ∀ a b : List Byte, a.length = b.length →
    crc32 a ^^^ crc32 b = crc32 (List.zipWith (· ^^^ ·) a b) ^^^ crc32 (List.replicate a.length 0#8)

/-- R126, third point: changing exactly one bit of a string always changes the checksum. -/
def Obligations.OneBitChangeChangesChecksum : Prop :=
  ∀ (bs : List Byte) (i : Fin bs.length) (k : Fin 8),
    crc32 (bs.set i (bs[i] ^^^ (1#8 <<< k.val))) ≠ crc32 bs

/-! ## The Sequence Manager -/

/-- R136, R137: `SEQ.LOAD` on a store of four bytes or more. -/
def Obligations.SeqLoadTakesStoredValue : Prop :=
  ∀ (s : State) (a : EnvAnswer) (rest : List EnvAnswer) (b : List Byte), s.ready = true →
    s.edge.answers = a :: rest → a.reset = false → a.ok = true → s.edge.nvs = .bytes b → 4 ≤ b.length →
    exec .seqLoad s = .next { s.after 0x1#4 with
      regs := { (s.after 0x1#4).regs with
        seq := bytesWord .little b
        status := { s.regs.status.ended with seqValid := true } }
      edge := { s.edge.drawn a rest with trace := s.edge.trace ++ [.nvRead] } }

/-- R136, R143: `SEQ.LOAD` on a store that is absent or short starts at 2 and writes 2 back. -/
def Obligations.SeqLoadStartsFresh : Prop :=
  ∀ (s : State) (a c : EnvAnswer) (rest : List EnvAnswer), s.ready = true →
    s.edge.answers = a :: c :: rest → a.reset = false → a.ok = true → c.reset = false → c.ok = true →
    (s.edge.nvs = .absent ∨ ∃ b, s.edge.nvs = .bytes b ∧ b.length < 4) →
    exec .seqLoad s = .next { s.after 0x1#4 with
      regs := { (s.after 0x1#4).regs with
        seq := 2#32
        status := { s.regs.status.ended with seqValid := true } }
      edge := { (s.edge.drawn a (c :: rest)).drawn c rest with
        nvs := .bytes [0x02#8, 0x00#8, 0x00#8, 0x00#8]
        trace := s.edge.trace ++ [.nvRead, .nvWrite [0x02#8, 0x00#8, 0x00#8, 0x00#8] true] } }

/-- R140, R248, R252 for `SEQ.LOAD`: a failed read, and a failed write-back, halt the engine. -/
def Obligations.SeqLoadStoreFailureHalts : Prop :=
  ∀ (s : State) (a c : EnvAnswer) (rest : List EnvAnswer), s.ready = true →
    s.edge.answers = a :: c :: rest → a.reset = false →
    (a.ok = false →
      exec .seqLoad s = .next { s with
        regs := { s.regs with op := 0x1#4, err := 5#8, status := s.regs.status.stopped }
        edge := { s.edge.drawn a (c :: rest) with trace := s.edge.trace ++ [.nvRead] } }) ∧
    (a.ok = true → c.reset = false → c.ok = false →
      (s.edge.nvs = .absent ∨ ∃ b, s.edge.nvs = .bytes b ∧ b.length < 4) →
      exec .seqLoad s = .next { s with
        regs := { s.regs with op := 0x1#4, err := 5#8, status := s.regs.status.stopped, seq := 2#32 }
        edge := { (s.edge.drawn a (c :: rest)).drawn c rest with
          nvs := c.store
          trace := s.edge.trace ++ [.nvRead, .nvWrite [0x02#8, 0x00#8, 0x00#8, 0x00#8] false] } })

/-- R138, R140: `SEQ.NEXT`, its result and its fatal error. -/
def Obligations.SeqNextAllocates : Prop :=
  ∀ (s : State) (a : EnvAnswer) (rest : List EnvAnswer), s.ready = true → s.regs.status.seqValid = true →
    s.edge.answers = a :: rest → a.reset = false →
    (a.ok = true → exec .seqNext s = .next { s.after 0x2#4 with
      regs := { (s.after 0x2#4).regs with seq := s.regs.seq + 1#32, res := s.regs.seq }
      edge := { s.edge.drawn a rest with
        nvs := .bytes (wordBytes .little (s.regs.seq + 1#32))
        trace := s.edge.trace ++ [.nvWrite (wordBytes .little (s.regs.seq + 1#32)) true] } }) ∧
    (a.ok = false → exec .seqNext s = .next { s with
      regs := { s.regs with
        op := 0x2#4, err := 5#8, status := s.regs.status.stopped, seq := s.regs.seq + 1#32 }
      edge := { s.edge.drawn a rest with
        nvs := a.store
        trace := s.edge.trace ++ [.nvWrite (wordBytes .little (s.regs.seq + 1#32)) false] } })

/-- R139: without a loaded counter no operation allocates a number: `NotReady`, nothing else. -/
def Obligations.NoAllocationWithoutCounter : Prop :=
  ∀ s : State, s.ready = true → s.Inv → s.regs.status.seqValid = false →
    exec .seqNext s = .next (s.refusedWith 0x2#4 .notReady) ∧
    exec .treXchg s = .next (s.refusedWith 0x9#4 .notReady) ∧
    exec .hostExecuteSpi s = .next (s.refusedWith 0xD#4 .notReady)

/-- R141: at 0xFFFFFFFF the counter wraps to 0, no error, no flag. -/
def Obligations.SeqWrapsSilently : Prop :=
  ∀ (s : State) (a : EnvAnswer) (rest : List EnvAnswer), s.ready = true → s.regs.status.seqValid = true →
    s.edge.answers = a :: rest → a.reset = false → a.ok = true → s.regs.seq = 0xFFFFFFFF#32 →
    ∃ t, exec .seqNext s = .next t ∧ t.regs.res = 0xFFFFFFFF#32 ∧ t.regs.seq = 0#32 ∧
      t.edge.nvs = .bytes [0x00#8, 0x00#8, 0x00#8, 0x00#8] ∧ t.regs.err = 0#8 ∧
      t.regs.status = s.regs.status.ended

/-- R142: a number that `SEQ.NEXT` returns was never sent before, in this run or before a restart, while the store is
intact (the premise `sentBelowStore` is the invariant of `PersistBeforeSend`). -/
def Obligations.AllocatedNumberWasNeverSent : Prop :=
  ∀ s t : State, s.Inv → s.edge.sentBelowStore → s.ready = true →
    exec .seqNext s = .next t → t.regs.status.done = true → t.regs.err = 0#8 →
    t.regs.res ∉ sentNumbers s.edge.trace

/-- R142, R271: after an allocation, a reset that follows it and a new `SEQ.LOAD` set SEQ above the number just allocated,
unless it wrapped. -/
def Obligations.RestartContinuesAboveAllocated : Prop :=
  ∀ (s t : State) (a : EnvAnswer) (rest : List EnvAnswer), s.ready = true →
    exec .seqNext s = .next t → t.regs.status.done = true → t.regs.err = 0#8 → s.regs.seq ≠ 0xFFFFFFFF#32 →
    t.edge.answers = a :: rest → a.reset = false → a.ok = true →
    ∃ u, exec .seqLoad t.resetInput = .next u ∧ u.regs.err = 0#8 ∧ u.regs.status.seqValid = true ∧
      u.regs.seq = t.regs.seq ∧ t.regs.res.toNat < u.regs.seq.toNat

/-- R23, R145: no other operation changes SEQ or the store. -/
def Obligations.OtherOperationsKeepCounter : Prop :=
  ∀ (s t : State) (i : Instr), portOf i = .op → s.ready = true →
    i ∉ [Instr.seqLoad, .seqNext, .treXchg, .hostInitialize, .hostExecuteSpi] →
    exec i s = .next t → t.regs.status.done = true →
    t.regs.seq = s.regs.seq ∧ t.edge.nvs = s.edge.nvs ∧ t.regs.status.seqValid = s.regs.status.seqValid

/-! ## The Frame Codec -/

/-- R151: `FRM.LAYOUT`, result, frame and error. -/
def Obligations.LayoutOperation : Prop :=
  ∀ s : State, s.ready = true →
    (s.count1 ≤ s.cfg.txPayloadMax →
      ∃ t, exec .frmLayout s = .next t ∧
        t = { s.after 0x3#4 with
          txbuf := t.txbuf, regs := { (s.after 0x3#4).regs with txlen := s.regs.arg1 } } ∧
        t.txbuf.written 0 16 = true ∧
        t.txbuf.read 0 16 = headerBytes .little s.regs.arg0 s.regs.arg1 0#32 0#32 ∧
        ∀ a, 16 ≤ a → t.txbuf.get? a = s.txbuf.get? a) ∧
    (s.cfg.txPayloadMax < s.count1 → exec .frmLayout s = .next (s.refusedWith 0x3#4 .allocationFailure))

/-- R152: `FRM.STAMP`, result and frame. That unwritten bytes make it refused is read from R39 (log 3). -/
def Obligations.StampOperation : Prop :=
  ∀ s : State, s.ready = true →
    (s.stampable s.regs.txlen.toNat = true →
      ∃ t c, exec .frmStamp s = .next t ∧
        t.txFrame = stampFrame .little s.regs.arg0 s.txFrame ∧
        wordBytes .little c = t.txbuf.read 12 4 ∧ t.txbuf.written 8 8 = true ∧
        t = { s.after 0x4#4 with
          txbuf := t.txbuf, regs := { (s.after 0x4#4).regs with res := c, crcAcc := c ^^^ 0xFFFFFFFF#32 } } ∧
        ∀ a, a < 8 ∨ 16 ≤ a → t.txbuf.get? a = s.txbuf.get? a) ∧
    (s.stampable s.regs.txlen.toNat = false → exec .frmStamp s = .refused .txByteWithoutValue)

/-- R153, R154: `FRM.ENCODE` makes the frame that `encode` makes of its operands. That unwritten bytes make it refused is
read from R39 (log 3). -/
def Obligations.EncodeOperation : Prop :=
  ∀ s : State, s.ready = true →
    (s.count1 ≤ s.cfg.txPayloadMax → s.txbuf.written 16 s.count1 = true →
      ∃ t, exec .frmEncode s = .next t ∧
        t.txFrame = encodeFrame .little s.regs.arg0 s.regs.arg2 (s.txbuf.read 16 s.count1) ∧
        t = { s.after 0x5#4 with
          txbuf := t.txbuf
          regs := { (s.after 0x5#4).regs with
            txlen := s.regs.arg1
            res := frameChecksum .little s.regs.arg0 s.regs.arg2 (s.txbuf.read 16 s.count1)
            crcAcc := frameChecksum .little s.regs.arg0 s.regs.arg2 (s.txbuf.read 16 s.count1) ^^^
              0xFFFFFFFF#32 } } ∧
        ∀ a, 16 ≤ a → t.txbuf.get? a = s.txbuf.get? a) ∧
    (s.cfg.txPayloadMax < s.count1 → exec .frmEncode s = .next (s.refusedWith 0x5#4 .allocationFailure)) ∧
    (s.count1 ≤ s.cfg.txPayloadMax → s.txbuf.written 16 s.count1 = false →
      exec .frmEncode s = .refused .txByteWithoutValue)

/-- R155, R156: `FRM.DECHDR`, its result. That unwritten bytes make it refused is read from R39 (log 3). -/
def Obligations.DecodeHeaderOperation : Prop :=
  ∀ s : State, s.ready = true →
    (s.rxbuf.written 0 16 = true →
      exec .frmDechdr s = .next { s.after 0x6#4 with regs := { (s.after 0x6#4).regs with
        rcmd := bytesWord .little (s.rxbuf.read 0 4)
        rplen := bytesWord .little (s.rxbuf.read 4 4)
        rseq := bytesWord .little (s.rxbuf.read 8 4)
        rcsum := bytesWord .little (s.rxbuf.read 12 4) } }) ∧
    (s.rxbuf.written 0 16 = false → exec .frmDechdr s = .refused .rxByteWithoutValue)

/-- R157 to R159: `FRM.VERIFY`. That unwritten bytes make it refused is read from R39 (log 3). -/
def Obligations.VerifyOperation : Prop :=
  ∀ s : State, s.ready = true →
    (16 ≤ s.count0 → s.count0 ≤ s.cfg.rxCapacity → s.rxbuf.written 0 s.count0 = true →
      (lengthMatches .little (s.rxFrame s.count0) = false →
        exec .frmVerify s = .next { s.after 0x7#4 with regs := { (s.after 0x7#4).regs with res := 0#32 } }) ∧
      (lengthMatches .little (s.rxFrame s.count0) = true →
        exec .frmVerify s = .next { s.after 0x7#4 with regs := { (s.after 0x7#4).regs with
          res := if verifyFrame .little (s.rxFrame s.count0) then 1#32 else 0#32
          crcAcc := crc32 (zeroChecksum (s.rxFrame s.count0)) ^^^ 0xFFFFFFFF#32 } })) ∧
    (s.count0 < 16 ∨ s.cfg.rxCapacity < s.count0 →
      exec .frmVerify s = .next (s.refusedWith 0x7#4 .allocationFailure)) ∧
    (16 ≤ s.count0 → s.count0 ≤ s.cfg.rxCapacity → s.rxbuf.written 0 s.count0 = false →
      exec .frmVerify s = .refused .rxByteWithoutValue)

/-- R160: what `encode` makes verifies, and decodes to what it was made of. -/
def Obligations.EncodedFrameVerifies : Prop :=
  ∀ (o : ByteOrder) (cmd seq : Word) (p : List Byte), p.length < 4294967280 →
    verifyFrame o (encodeFrame o cmd seq p) = true ∧
    decodeHeader o (encodeFrame o cmd seq p) = ⟨cmd, lengthWord p, seq, frameChecksum o cmd seq p⟩ ∧
    (encodeFrame o cmd seq p).drop 16 = p

/-- R160: one flipped bit anywhere in an encoded frame makes `verify` false. -/
def Obligations.OneFlippedBitFailsVerify : Prop :=
  ∀ (o : ByteOrder) (cmd seq : Word) (p : List Byte), p.length < 4294967280 →
    ∀ (i : Fin (encodeFrame o cmd seq p).length) (k : Fin 8),
      verifyFrame o ((encodeFrame o cmd seq p).set i ((encodeFrame o cmd seq p)[i] ^^^ (1#8 <<< k.val))) = false

/-! ## The Stream Synchronizer -/

/-- R172: the search succeeds on a byte string exactly where a marker stands, and consumes it through the first `CA`
that directly follows an `FE`. -/
def Obligations.SearchFindsFirstMarker : Prop :=
  ∀ (bs : List Byte) (k : Nat), synScan .search bs = some k ↔
    (2 ≤ k ∧ bs[k - 2]? = some 0xFE#8 ∧ bs[k - 1]? = some 0xCA#8 ∧
      ∀ j, 2 ≤ j → j < k → ¬ (bs[j - 2]? = some 0xFE#8 ∧ bs[j - 1]? = some 0xCA#8))

/-- R173 to R176: with a prompt environment `SYN.AWAIT` finds the marker in the received stream and consumes exactly
through it. -/
def Obligations.AwaitFindsMarker : Prop :=
  ∀ (s : State) (k : Nat), s.ready = true → s.edge.tpOpen = true → synScan .search s.edge.rx = some k →
    k < 4294967296 → s.edge.prompt (2 * k + 1) = true →
    ∃ t, exec .synAwait s = .next t ∧
      t = { s.after 0x8#4 with
        regs := { (s.after 0x8#4).regs with res := 1#32, syn := .gotFirst }
        edge := { s.edge with
          rx := s.edge.rx.drop k, answers := s.edge.answers.drop (2 * k + 1), trace := t.edge.trace } }

/-- R172 to R176, for every environment: a search that was not cut by a reset answers 1 exactly when the bytes it took
end in the first marker of the bytes it took, and 0 exactly when they hold none. The record of the bytes taken is the
model's history (log 20). -/
def Obligations.AwaitAnswersByBytesTaken : Prop :=
  ∀ s t : State, s.ready = true → exec .synAwait s = .next t → t.regs.status.done = true →
    ∃ l, takenBytes t.edge.trace = takenBytes s.edge.trace ++ l ∧
      (t.regs.res = 1#32 ∨ t.regs.res = 0#32) ∧
      (t.regs.res = 1#32 ↔ synScan .search l = some l.length) ∧
      (t.regs.res = 0#32 ↔ synScan .search l = none)

/-- R179, R175: a timeout is possible on every stream, and puts nothing back: here the environment lets the bound pass
before the first sub-read. A closed transport is refused (R273). -/
def Obligations.AwaitMayTimeOut : Prop :=
  ∀ (s : State) (a : EnvAnswer) (rest : List EnvAnswer), s.ready = true →
    (s.edge.tpOpen = true → s.edge.answers = a :: rest → a.reset = false → a.count = 0 →
      ∃ t, exec .synAwait s = .next t ∧ s.count0 < t.edge.now - s.edge.now ∧
        t = { s.after 0x8#4 with
          regs := { (s.after 0x8#4).regs with res := 0#32, syn := .search }
          edge := { s.edge.drawn a rest with now := t.edge.now, trace := s.edge.trace ++ [.now] } }) ∧
    (s.edge.tpOpen = false → exec .synAwait s = .refused .transportNotOpen)

/-! ## The Transport Retry Engine -/

/-- R188, R250, R83: the two tested preconditions of `TRE.XCHG`, `NotReady` first. R39, R273: where an attempt would be
made over unwritten bytes, or on a closed transport, `TRE.XCHG`, `INITIALIZE` and `EXECUTE_SPI` are refused; that they
are refused there and nowhere else is the model's reading (log 3, log 9, log 25). -/
def Obligations.ExchangePreconditions : Prop :=
  ∀ s : State, s.ready = true →
    (s.regs.status.seqValid = false → exec .treXchg s = .next (s.refusedWith 0x9#4 .notReady)) ∧
    (s.regs.status.seqValid = true → s.cfg.rxPayloadMax < s.count0 →
      exec .treXchg s = .next (s.refusedWith 0x9#4 .allocationFailure)) ∧
    (s.regs.status.seqValid = true → s.count0 ≤ s.cfg.rxPayloadMax → s.regs.arg1 ≠ 0#32 →
      (s.stampable s.regs.txlen.toNat = false → exec .treXchg s = .refused .txByteWithoutValue) ∧
      (s.stampable s.regs.txlen.toNat = true → s.edge.tpOpen = false →
        exec .treXchg s = .refused .transportNotOpen)) ∧
    (s.regs.arg1 ≠ 0#32 → s.edge.tpOpen = false → exec .hostInitialize s = .refused .transportNotOpen) ∧
    (s.regs.status.linkOk = true → s.regs.status.seqValid = true → s.count1 ≤ s.cfg.rxPayloadMax →
      s.count0 ≤ s.cfg.txPayloadMax - 28 → s.regs.arg2 ≠ 0#32 →
      (s.txbuf.written 44 s.count0 = false → exec .hostExecuteSpi s = .refused .txByteWithoutValue) ∧
      (s.txbuf.written 44 s.count0 = true → s.edge.tpOpen = false →
        exec .hostExecuteSpi s = .refused .transportNotOpen))

/-- R206: with no attempt allowed nothing is allocated, sent or flushed. -/
def Obligations.ZeroAttempts : Prop :=
  ∀ s : State, s.ready = true → s.regs.status.seqValid = true → s.count0 ≤ s.cfg.rxPayloadMax →
    s.regs.arg1 = 0#32 →
    ∃ t, exec .treXchg s = .next t ∧ t.regs.err = 4#8 ∧ t.regs.status = s.regs.status.failed ∧
      t.regs.tre = .failed ∧ t.regs.attempt = 0#32 ∧ t.regs.maxAtt = 0#32 ∧ t.regs.seq = s.regs.seq ∧
      t.edge = s.edge ∧ t.txbuf = s.txbuf

/-- R186, R189, R191, R201: a correct reply to the first attempt. -/
def Obligations.ExchangeSucceeds : Prop :=
  ∀ (s : State) (cmd : Word) (payload tail : List Byte), s.ready = true → s.regs.status.seqValid = true →
    payload.length = s.count0 → s.count0 ≤ s.cfg.rxPayloadMax → s.regs.arg1 ≠ 0#32 →
    s.stampable s.regs.txlen.toNat = true → s.edge.tpOpen = true → s.edge.prompt 10 = true →
    s.edge.rx = [0xFE#8, 0xCA#8] ++ encodeFrame .little cmd s.regs.seq payload ++ tail →
    ∃ t, exec .treXchg s = .next t ∧
      t.regs.err = 0#8 ∧ t.regs.status = s.regs.status.ended ∧ t.regs.res = s.regs.arg0 ∧
      t.regs.expLen = s.regs.arg0 ∧ t.regs.maxAtt = s.regs.arg1 ∧ t.regs.attempt = 1#32 ∧
      t.regs.curseq = s.regs.seq ∧ t.regs.seq = s.regs.seq + 1#32 ∧
      t.edge.nvs = .bytes (wordBytes .little (s.regs.seq + 1#32)) ∧
      t.regs.tre = .done ∧ t.regs.syn = .gotFirst ∧
      t.regs.rcmd = cmd ∧ t.regs.rplen = s.regs.arg0 ∧ t.regs.rseq = s.regs.seq ∧
      t.regs.rcsum = frameChecksum .little cmd s.regs.seq payload ∧
      t.rxbuf.read 0 (16 + s.count0) = encodeFrame .little cmd s.regs.seq payload ∧
      t.rxbuf.read 16 s.count0 = payload ∧
      t.txFrame = stampFrame .little s.regs.seq s.txFrame ∧
      t.edge.sent = s.edge.sent ++ [0xFE#8, 0xCA#8] ++ stampFrame .little s.regs.seq s.txFrame ∧
      t.edge.rx = tail

/-- R199, R208: a correct reply that carries another sequence number is not accepted. -/
def Obligations.StaleReplyIsRefused : Prop :=
  ∀ (s : State) (cmd q : Word) (payload tail : List Byte), s.ready = true → s.regs.status.seqValid = true →
    payload.length = s.count0 → s.count0 ≤ s.cfg.rxPayloadMax → s.regs.arg1 = 1#32 →
    s.stampable s.regs.txlen.toNat = true → s.edge.tpOpen = true → s.edge.prompt 11 = true →
    s.edge.rx = [0xFE#8, 0xCA#8] ++ encodeFrame .little cmd q payload ++ tail → q ≠ s.regs.seq →
    ∃ t, exec .treXchg s = .next t ∧ t.regs.err = 4#8 ∧ t.regs.attempt = 1#32 ∧ t.regs.tre = .failed ∧
      t.regs.seq = s.regs.seq + 1#32 ∧ t.failures = [.sequenceMismatch] ∧ t.rxbuf = []

/-- R196, R250: a reply of another length is refused before its payload is read, whatever else is wrong with it. -/
def Obligations.WrongLengthIsRefusedUnread : Prop :=
  ∀ (s : State) (cmd len q c : Word) (tail : List Byte), s.ready = true → s.regs.status.seqValid = true →
    s.count0 ≤ s.cfg.rxPayloadMax → s.regs.arg1 = 1#32 →
    s.stampable s.regs.txlen.toNat = true → s.edge.tpOpen = true → s.edge.prompt 10 = true →
    s.edge.rx = [0xFE#8, 0xCA#8] ++ headerBytes .little cmd len q c ++ tail → len ≠ s.regs.arg0 →
    ∃ t, exec .treXchg s = .next t ∧ t.regs.err = 4#8 ∧ t.failures = [.lengthMismatch] ∧
      takenBytes t.edge.trace = takenBytes s.edge.trace ++ [0xFE#8, 0xCA#8] ++ headerBytes .little cmd len q c

/-- R187, R202, R204, R207: an exchange that fails made exactly MAXATT attempts and spent as many numbers. The recorded
causes are the model's history (log 20). -/
def Obligations.ExhaustedExchangeMadeAllAttempts : Prop :=
  ∀ s t : State, s.ready = true → exec .treXchg s = .next t → t.regs.err = 4#8 →
    t.regs.status = s.regs.status.failed ∧ t.regs.tre = .failed ∧
    t.regs.maxAtt = s.regs.arg1 ∧ t.regs.attempt = s.regs.arg1 ∧ t.regs.expLen = s.regs.arg0 ∧
    t.regs.seq = s.regs.seq + s.regs.arg1 ∧ t.failures.length = s.count1 ∧
    (s.regs.arg1 ≠ 0#32 → t.edge.nvs = .bytes (wordBytes .little t.regs.seq)) ∧ t.rxbuf = []

/-- R187, R198 to R201, R207: an exchange that succeeds did so in one of its attempts, with a reply of the expected
length, the number of that attempt and a right checksum. The recorded causes are the model's history (log 20). -/
def Obligations.SuccessfulExchangeIsValidated : Prop :=
  ∀ s t : State, s.ready = true → exec .treXchg s = .next t → t.regs.status.done = true → t.regs.err = 0#8 →
    1 ≤ t.regs.attempt.toNat ∧ t.regs.attempt.toNat ≤ s.count1 ∧ t.failures.length + 1 = t.regs.attempt.toNat ∧
    t.regs.res = s.regs.arg0 ∧ t.regs.tre = .done ∧
    t.regs.curseq = s.regs.seq + (t.regs.attempt - 1#32) ∧ t.regs.seq = s.regs.seq + t.regs.attempt ∧
    t.edge.nvs = .bytes (wordBytes .little t.regs.seq) ∧
    t.regs.rplen = s.regs.arg0 ∧ t.regs.rseq = t.regs.curseq ∧
    t.rxbuf.written 0 (16 + s.count0) = true ∧
    verifyFrame .little (t.rxbuf.read 0 (16 + s.count0)) = true ∧
    (decodeHeader .little (t.rxbuf.read 0 (16 + s.count0))).sequence = t.regs.curseq

/-- R190, R70: where the store fails in Build, nothing of the attempt is stamped or sent, and the engine halts. -/
def Obligations.StoreFailureInBuildSendsNothing : Prop :=
  ∀ (s : State) (a : EnvAnswer) (rest : List EnvAnswer), s.ready = true → s.regs.status.seqValid = true →
    s.count0 ≤ s.cfg.rxPayloadMax → s.regs.arg1 ≠ 0#32 → s.stampable s.regs.txlen.toNat = true →
    s.edge.tpOpen = true → s.edge.answers = a :: rest → a.reset = false → a.ok = false →
    ∃ t, exec .treXchg s = .next t ∧ t.regs.err = 5#8 ∧ t.regs.status = s.regs.status.stopped ∧
      t.regs.attempt = 1#32 ∧ t.regs.curseq = s.regs.curseq ∧ t.regs.tre = .build ∧
      t.regs.seq = s.regs.seq + 1#32 ∧ t.txbuf = s.txbuf ∧ t.edge.sent = s.edge.sent ∧
      t.edge.trace = s.edge.trace ++ [.nvWrite (wordBytes .little (s.regs.seq + 1#32)) false]

/-- R203, R251: the Retry edge flushes, then delays only where another attempt follows, and leaves ERR, the flags, the
frame and the counter alone. In an exchange another attempt follows exactly where ATTEMPT < MAXATT (R187, R202, R203,
R206): every failed attempt but the last allowed one is followed by a flush and a delay, that one by a flush alone,
and nothing else flushes or delays. The record of the accesses and of the causes is the model's history (log 20). -/
def Obligations.RetryEdgeFlushesThenDelays : Prop :=
  (∀ (f : AttemptFailure) (again : Bool) (s t : State), retryEdge f again s = .ok () t →
    t.edge.trace = s.edge.trace ++ Access.rxFlush :: (if again then [Access.delay] else []) ∧
    t.regs = { s.regs with tre := .retry } ∧ t.txbuf = s.txbuf ∧ t.rxbuf = s.rxbuf ∧
    t.edge.nvs = s.edge.nvs ∧ t.edge.sent = s.edge.sent ∧ t.failures = s.failures ++ [f] ∧
    (again = true → s.edge.now + s.cfg.tRetryDelay ≤ t.edge.now)) ∧
  (∀ s t : State, s.ready = true → s.regs.status.seqValid = true → s.count0 ≤ s.cfg.rxPayloadMax →
    exec .treXchg s = .next t → t.regs.status.done = true →
    flushesAndDelays t.edge.trace = flushesAndDelays s.edge.trace ++
      (List.replicate (t.regs.attempt.toNat - 1) [Access.rxFlush, Access.delay]).flatten ++
      (if t.regs.err = 4#8 ∧ s.regs.arg1 ≠ 0#32 then [Access.rxFlush] else []))

/-- The frame of the exchange (R22, R31, R33, R204): an exchange that was not cut by a reset leaves the operands, SPEED,
TXLEN, the other flags and every byte of TXBUF outside 8..15 alone, and every byte of RXBUF beyond the expected reply;
one that ended with RetriesExhausted or StoreUnavailable may leave those without a value instead (log 13). -/
def Obligations.ExchangeFrame : Prop :=
  ∀ s t : State, s.ready = true → exec .treXchg s = .next t → t.regs.status.done = true →
    t.regs.arg0 = s.regs.arg0 ∧ t.regs.arg1 = s.regs.arg1 ∧ t.regs.arg2 = s.regs.arg2 ∧
    t.regs.speed = s.regs.speed ∧ t.regs.txlen = s.regs.txlen ∧
    t.regs.status.seqValid = s.regs.status.seqValid ∧ t.regs.status.linkOk = s.regs.status.linkOk ∧
    (t.regs.status.halted = true → t.regs.err = 5#8) ∧
    (∀ a, a < 8 ∨ 16 ≤ a → t.txbuf.get? a = s.txbuf.get? a) ∧
    (∀ a, 16 + s.count0 ≤ a → t.rxbuf.get? a = s.rxbuf.get? a ∨ t.rxbuf.get? a = none) ∧
    (t.regs.err ≠ 4#8 → t.regs.err ≠ 5#8 → ∀ a, 16 + s.count0 ≤ a → t.rxbuf.get? a = s.rxbuf.get? a) ∧
    t.edge.tpOpen = s.edge.tpOpen

/-! ## The Command Builder and the host operations -/

/-- R216: `CMB.PROBE`. -/
def Obligations.ProbeLayout : Prop :=
  ∀ s : State, s.ready = true →
    ∃ t, exec .cmbProbe s = .next t ∧
      t = { s.after 0xA#4 with txbuf := t.txbuf, regs := { (s.after 0xA#4).regs with txlen := 0#32 } } ∧
      t.txbuf.written 0 16 = true ∧ t.txbuf.read 0 16 = List.replicate 16 0#8 ∧
      ∀ a, 16 ≤ a → t.txbuf.get? a = s.txbuf.get? a

/-- R217, R96, R98: `CMB.SPI`, result, frame and error. -/
def Obligations.SpiLayout : Prop :=
  ∀ s : State, s.ready = true →
    (s.count0 ≤ s.cfg.txPayloadMax - 28 →
      ∃ t, exec .cmbSpi s = .next t ∧
        t = { s.after 0xB#4 with
          txbuf := t.txbuf, regs := { (s.after 0xB#4).regs with txlen := 28#32 + s.regs.arg0 } } ∧
        t.regs.txlen.toNat = 28 + s.count0 ∧ t.txbuf.written 0 44 = true ∧
        t.txbuf.read 0 44 = headerBytes .little 43#32 (28#32 + s.regs.arg0) 0#32 0#32 ++
          argumentBlock .little s.regs.speed s.cfg.spiK0 s.cfg.spiK1 s.cfg.spiK2 s.cfg.spiK3
            s.regs.arg0 s.regs.arg1 ∧
        ∀ a, 44 ≤ a → t.txbuf.get? a = s.txbuf.get? a) ∧
    (s.cfg.txPayloadMax - 28 < s.count0 →
      exec .cmbSpi s = .next (s.refusedWith 0xB#4 .allocationFailure))

/-- R221, R97: `INITIALIZE` on a store that holds a value, answered by a correct probe reply. The message sent is the
wire row of the probe request. -/
def Obligations.InitializeSucceeds : Prop :=
  ∀ (s : State) (b : List Byte) (v cmd : Word) (tail : List Byte), s.ready = true →
    s.edge.nvs = .bytes b → 4 ≤ b.length → bytesWord .little b = v → s.regs.arg1 ≠ 0#32 →
    s.edge.tpOpen = true → s.edge.prompt 10 = true →
    s.edge.rx = encode (.wireReply cmd v (frameChecksum .little cmd v []) []) ++ tail →
    ∃ t, exec .hostInitialize s = .next t ∧ t.regs.err = 0#8 ∧
      t.regs.status = { s.regs.status.ended with seqValid := true, linkOk := true } ∧
      t.regs.seq = v + 1#32 ∧ t.edge.nvs = .bytes (wordBytes .little (v + 1#32)) ∧
      t.regs.res = 0#32 ∧ t.regs.attempt = 1#32 ∧ t.regs.curseq = v ∧ t.regs.txlen = 0#32 ∧
      t.regs.tre = .done ∧
      t.edge.sent = s.edge.sent ++ encode (.wireProbeRequest v (frameChecksum .little 0#32 v [])) ∧
      t.edge.rx = tail ∧
      t.regs.arg0 = s.regs.arg0 ∧ t.regs.arg1 = s.regs.arg1 ∧ t.regs.arg2 = s.regs.arg2 ∧
      t.regs.speed = s.regs.speed ∧ ∀ a, 16 ≤ a → t.txbuf.get? a = s.txbuf.get? a

/-- R221: an `INITIALIZE` that ended without a reset leaves LINK_OK set exactly when it ended without error. -/
def Obligations.LinkOkMeansInitialized : Prop :=
  ∀ s t : State, s.ready = true → exec .hostInitialize s = .next t → t.regs.status.done = true →
    t.regs.status.linkOk = (t.regs.err == 0#8)

/-- R224, R226, R98: `EXECUTE_SPI` answered by a correct reply. The message sent is the wire row of the SPI request. -/
def Obligations.ExecuteSpiSucceeds : Prop :=
  ∀ (s : State) (cmd : Word) (payload tail w : List Byte), s.ready = true →
    s.regs.status.linkOk = true → s.regs.status.seqValid = true →
    payload.length = s.count1 → s.count1 ≤ s.cfg.rxPayloadMax → s.count0 ≤ s.cfg.txPayloadMax - 28 →
    s.regs.arg2 ≠ 0#32 → s.txbuf.written 44 s.count0 = true → w = s.txbuf.read 44 s.count0 →
    s.edge.tpOpen = true → s.edge.prompt 10 = true →
    s.edge.rx = encode (.wireReply cmd s.regs.seq (frameChecksum .little cmd s.regs.seq payload) payload) ++ tail →
    ∃ t c, exec .hostExecuteSpi s = .next t ∧
      t.regs.err = 0#8 ∧ t.regs.status = s.regs.status.ended ∧ t.regs.res = s.regs.arg1 ∧
      t.rxbuf.written 16 s.count1 = true ∧ t.rxbuf.read 16 s.count1 = payload ∧
      t.regs.seq = s.regs.seq + 1#32 ∧ t.edge.nvs = .bytes (wordBytes .little (s.regs.seq + 1#32)) ∧
      t.edge.sent = s.edge.sent ++ encode (.wireSpiRequest s.regs.seq c s.regs.speed s.cfg.spiK0 s.cfg.spiK1
        s.cfg.spiK2 s.cfg.spiK3 s.regs.arg1 w) ∧
      c = frameChecksum .little 43#32 s.regs.seq (spiPayload s.regs.speed s.cfg.spiK0 s.cfg.spiK1 s.cfg.spiK2
        s.cfg.spiK3 s.regs.arg1 w) ∧
      t.edge.rx = tail ∧ t.regs.speed = s.regs.speed ∧
      t.regs.arg0 = s.regs.arg0 ∧ t.regs.arg1 = s.regs.arg1 ∧ t.regs.arg2 = s.regs.arg2 ∧
      ∀ a, 44 ≤ a → t.txbuf.get? a = s.txbuf.get? a

/-- R225, and R224, R83, R245 for counts that do not fit: where `EXECUTE_SPI` is turned away it changes nothing but ERR and
the flags. -/
def Obligations.ExecuteSpiTurnedAway : Prop :=
  ∀ s : State, s.ready = true →
    (s.regs.status.linkOk = false → exec .hostExecuteSpi s = .next (s.refusedWith 0xD#4 .notReady)) ∧
    (s.regs.status.linkOk = true → s.cfg.rxPayloadMax < s.count1 ∨ s.cfg.txPayloadMax - 28 < s.count0 →
      exec .hostExecuteSpi s = .next (s.refusedWith 0xD#4 .allocationFailure))

/-- The frames of the two host operations that exchange (R29, R33, R34, R221, R224): what they leave unchanged where they
were not cut by a reset. One that ended with RetriesExhausted or StoreUnavailable may leave the bytes of RXBUF without a
value (log 13). -/
def Obligations.HostOperationFrame : Prop :=
  ∀ s t : State, s.ready = true → t.regs.status.done = true →
    (exec .hostInitialize s = .next t →
      (∀ a, 16 ≤ a → t.txbuf.get? a = s.txbuf.get? a) ∧
      (∀ a, 16 ≤ a → t.rxbuf.get? a = s.rxbuf.get? a ∨ t.rxbuf.get? a = none) ∧
      (t.regs.err ≠ 4#8 → t.regs.err ≠ 5#8 → ∀ a, 16 ≤ a → t.rxbuf.get? a = s.rxbuf.get? a) ∧
      (t.regs.status.halted = true → t.regs.err = 5#8) ∧ t.edge.tpOpen = s.edge.tpOpen) ∧
    (exec .hostExecuteSpi s = .next t →
      (∀ a, 44 ≤ a → t.txbuf.get? a = s.txbuf.get? a) ∧
      (∀ a, 16 + s.count1 ≤ a → t.rxbuf.get? a = s.rxbuf.get? a ∨ t.rxbuf.get? a = none) ∧
      (t.regs.err ≠ 4#8 → t.regs.err ≠ 5#8 → ∀ a, 16 + s.count1 ≤ a → t.rxbuf.get? a = s.rxbuf.get? a) ∧
      t.regs.status.seqValid = s.regs.status.seqValid ∧ t.regs.status.linkOk = s.regs.status.linkOk ∧
      (t.regs.status.halted = true → t.regs.err = 5#8) ∧ t.edge.tpOpen = s.edge.tpOpen)

/-- R227, R75: `SHUTDOWN` releases the transport; R75, R273: its owner's opening opens it and changes nothing else. That
the bytes buffered on the receive side stay in both is the model's choice (log 28). -/
def Obligations.ShutdownReleasesOwnerOpens : Prop :=
  (∀ (s : State) (a : EnvAnswer) (rest : List EnvAnswer), s.ready = true →
    s.edge.answers = a :: rest → a.reset = false →
    exec .hostShutdown s = .next { s.after 0xE#4 with
      regs := { (s.after 0xE#4).regs with status := { s.regs.status.ended with linkOk := false } }
      edge := { s.edge.drawn a rest with tpOpen := false, trace := s.edge.trace ++ [.tpRelease] } }) ∧
  (∀ (s : State) (rest : List Event), s.pending = .openTransport :: rest →
    step s = .next { s with pending := rest, edge := { s.edge with tpOpen := true } })

/-- R249, R105: the reserved selector raises `IllegalOperation` with no other effect. -/
def Obligations.ReservedSelectorRaises : Prop :=
  ∀ s : State, s.ready = true → exec .reservedF s = .next (s.refusedWith 0xF#4 .illegalOperation)

/-- R246, R290, R34: no partial payload is returned by an exchange that failed. -/
def Obligations.NoPartialPayload : Prop :=
  ∀ (s t : State) (i : Instr), i ∈ [Instr.treXchg, .hostInitialize, .hostExecuteSpi] → s.ready = true →
    exec i s = .next t → (t.regs.err = 4#8 ∨ (t.regs.err = 5#8 ∧ i ≠ .hostInitialize)) → t.rxbuf = []

/-! ## The machine as a whole -/

/-- R252, R28: a halted engine ignores every operation; while one runs no other starts. -/
def Obligations.OperationsNeedIdleEngine : Prop :=
  ∀ (s : State) (i : Instr), portOf i = .op →
    (s.regs.status.halted = true → exec i s = .next s) ∧
    (s.regs.status.halted = false → s.regs.status.busy = true → exec i s = .fault .hostBlocked)

/-- R252, R270: HALTED is left only by reset, and until then ERR, SEQ and NVS stay. -/
def Obligations.OnlyResetLeavesHalted : Prop :=
  ∀ s t : State, s.regs.status.halted = true → step s = .next t →
    (∀ rest, s.pending ≠ .resetInput :: rest) →
    t.regs.status = s.regs.status ∧ t.regs.err = s.regs.err ∧ t.regs.seq = s.regs.seq ∧ t.edge.nvs = s.edge.nvs

/-- R22, R31, R271: an operation that ended leaves ARG0 to ARG2 and SPEED alone; one that a reset cut leaves every
register at its reset value and the buffers without a value, and its partial results are lost. None changes a
parameter. -/
def Obligations.OperationEndsOrIsCut : Prop :=
  ∀ (s t : State) (i : Instr), portOf i = .op → s.ready = true → exec i s = .next t →
    t.cfg = s.cfg ∧ t.pending = s.pending ∧ t.hostData = s.hostData ∧
    (t.regs.status.done = true →
      t.regs.status.busy = false ∧ t.regs.arg0 = s.regs.arg0 ∧ t.regs.arg1 = s.regs.arg1 ∧
      t.regs.arg2 = s.regs.arg2 ∧ t.regs.speed = s.regs.speed) ∧
    (t.regs.status.done = false →
      (∃ v, t.regs = Regs.reset s.cfg.speedReset v) ∧ t.txbuf = [] ∧ t.rxbuf = [] ∧ t.failures = [])

/-- R36, R72, R258: time never decreases and nothing sent is recalled, whatever step is taken. -/
def Obligations.TimeAndSentStreamOnlyGrow : Prop :=
  ∀ s t : State, step s = .next t →
    s.edge.now ≤ t.edge.now ∧ s.edge.sent <+: t.edge.sent ∧ s.edge.trace <+: t.edge.trace

/-- R73: the bounded read takes at most `n` bytes from the front of the received stream within time `t`. -/
def Obligations.BoundedReadTakesFromFront : Prop :=
  ∀ (n t : Nat) (s u : State) (r : List Byte), rxRead n t s = .ok r u →
    ∃ arrived, r.length ≤ n ∧ r ++ u.edge.rx = s.edge.rx ++ arrived ∧
      s.edge.now ≤ u.edge.now ∧ u.edge.now ≤ s.edge.now + t ∧
      u = { s with edge := { u.edge with nvs := s.edge.nvs, sent := s.edge.sent, tpOpen := s.edge.tpOpen } }

/-- R38, R270, R271: the reset input, in any state. -/
def Obligations.ResetInputGivesResetValues : Prop :=
  ∀ (s : State) (rest : List Event), s.pending = .resetInput :: rest →
    ∃ t, step s = .next t ∧ Status.byte t.regs.status = 0#8 ∧ t.regs.err = 0#8 ∧ t.regs.arg0 = 0#32 ∧
      t.regs.arg1 = 0#32 ∧ t.regs.arg2 = 0#32 ∧ t.regs.res = 0#32 ∧ t.regs.speed = s.cfg.speedReset ∧
      t.regs.crcAcc = 0#32 ∧ t.regs.txlen = 0#32 ∧ t.regs.expLen = 0#32 ∧ t.regs.maxAtt = 0#32 ∧
      t.regs.attempt = 0#32 ∧ t.regs.curseq = 0#32 ∧ t.regs.rcmd = 0#32 ∧ t.regs.rplen = 0#32 ∧
      t.regs.rseq = 0#32 ∧ t.regs.rcsum = 0#32 ∧ t.regs.tre = .idle ∧ t.regs.syn = .search ∧
      (∀ a, t.txbuf.get? a = none ∧ t.rxbuf.get? a = none) ∧ t.edge = s.edge ∧ t.pending = rest

/-- The reset state meets the invariant, and nothing has been sent from it. -/
def Obligations.ResetMeetsInvariant : Prop := State.reset.Inv ∧ State.reset.edge.sentBelowStore

/-- Every step keeps the invariant: canonical buffers inside their bounds, legal ERR and flags, legal TRE_STATE, the
store in agreement with SEQ. -/
def Obligations.StepKeepsInvariant : Prop := ∀ s t : State, s.Inv → step s = .next t → t.Inv

/-- R70, R280, R271: at every step boundary, resets in the middle of operations included, every sequence number handed
to the transport is below what the store holds, while the store is intact and SEQ has not wrapped. -/
def Obligations.PersistBeforeSend : Prop :=
  ∀ s t : State, s.Inv → s.edge.sentBelowStore → step s = .next t → t.edge.storeIntact → t.edge.notWrapped →
    t.edge.sentBelowStore

/-! ## Encodings and steps -/

/-- Decoding an encoded well-formed instruction gives it back, with nothing left. -/
def Obligations.DecodeEncodeRoundTrip : Prop :=
  ∀ i : Instr, WellFormed i = true → decode (portOf i) (encode i) = .ok (i, [])

/-- A message that decodes encodes to the bytes it was read from (R91, R95). -/
def Obligations.EncodeDecodedMessage : Prop :=
  ∀ (p : Port) (bytes rest : List Byte) (i : Instr), decodeWire p bytes = .ok (i, rest) → encode i ++ rest = bytes

/-- Words written out from R91 to R99 and R103. -/
def Obligations.WordsDecode : Prop :=
  decode .op [0x00#8] = .ok (.crc32, []) ∧ decode .op [0x0D#8] = .ok (.hostExecuteSpi, []) ∧
  decode .op [0x0F#8] = .ok (.reservedF, []) ∧
  decode .request [0xFE#8, 0xCA#8] = .ok (.wireMarker, []) ∧
  decode .request [0xFE#8, 0xCA#8, 0x00#8, 0x00#8, 0x00#8, 0x00#8, 0x00#8, 0x00#8, 0x00#8, 0x00#8,
    0x05#8, 0x00#8, 0x00#8, 0x00#8, 0x31#8, 0x45#8, 0x5B#8, 0xA4#8] =
      .ok (.wireProbeRequest 5#32 0xA45B4531#32, []) ∧
  decode .reply [0xFE#8, 0xCA#8, 0x2B#8, 0x00#8, 0x00#8, 0x00#8, 0x03#8, 0x00#8, 0x00#8, 0x00#8,
    0x03#8, 0x00#8, 0x00#8, 0x00#8, 0x20#8, 0x71#8, 0x19#8, 0x74#8, 0x01#8, 0x02#8, 0x03#8] =
      .ok (.wireReply 43#32 3#32 0x74197120#32 [0x01#8, 0x02#8, 0x03#8], [])

/-- R28, R103, R106: a step runs the instruction that the next event presents: a selector written to OP, or a whole
message that arrives; with nothing presented the machine stays as it is (R262, R270). That a program is a list of events
is the model's choice (log 21), and that a word wider than OP selects by its low 4 bits its reading (log 12). -/
def Obligations.StepRunsPresentedInstruction : Prop :=
  ∀ (s : State) (rest : List Event),
    (∀ (v : Word) (i : Instr), s.pending = .hostWrite 0 v :: rest → decode .op [v.setWidth 8] = .ok (i, []) →
      step s = exec i { s with pending := rest }) ∧
    (∀ (p : Port) (bytes : List Byte) (i : Instr), s.pending = .arrive p bytes :: rest →
      decodeWire p bytes = .ok (i, []) → step s = exec i { s with pending := rest }) ∧
    (s.pending = [] → step s = .next s)

/-- R77: whatever bytes arrive, as a whole message or not, they are appended to the received stream and nothing else
happens. That a wire row executed is its arrival is the model's choice (log 10), and so is that bytes arrive on a closed
transport (log 28). -/
def Obligations.ArrivalAppendsToStream : Prop :=
  (∀ (s : State) (p : Port) (bytes : List Byte) (rest : List Event), s.pending = .arrive p bytes :: rest →
    step s = .next { s with pending := rest, edge := { s.edge with rx := s.edge.rx ++ bytes } }) ∧
  (∀ (s : State) (i : Instr), portOf i ≠ .op →
    exec i s = .next { s with edge := { s.edge with rx := s.edge.rx ++ encode i } })

/-- R32, R22, R31: the host's register port: each number reads its register, STATUS with its flags in their bits (R29), the
state registers as their numbers (R27). A read of SEQ that holds no value is left out (R39). -/
def Obligations.HostRegisterPort : Prop :=
  ∀ (s : State) (n : Nat) (v : Word) (rest : List Event), s.regs.status.busy = false →
    (s.pending = .hostWrite n v :: rest → n ≠ 0 → n ∉ [3, 4, 5, 7] → step s = .next { s with pending := rest }) ∧
    (∀ r : Regs, (n, r) ∈ [(3, { s.regs with arg0 := v }), (4, { s.regs with arg1 := v }),
        (5, { s.regs with arg2 := v }), (7, { s.regs with speed := v })] →
      s.pending = .hostWrite n v :: rest → step s = .next { s with pending := rest, regs := r }) ∧
    (s.pending = .hostRead n :: rest →
      ∃ t, step s = .next t ∧ t = { s with pending := rest, hostData := t.hostData, freeUsed := s.freeUsed + 1 } ∧
        (∀ w, (n, w) ∈ [(0, 0#32), (2, s.regs.err.setWidth 32), (3, s.regs.arg0), (4, s.regs.arg1),
            (5, s.regs.arg2), (6, s.regs.res), (7, s.regs.speed), (9, s.regs.crcAcc), (10, s.regs.txlen),
            (11, s.regs.expLen), (12, s.regs.maxAtt), (13, s.regs.attempt), (14, s.regs.curseq),
            (15, s.regs.rcmd), (16, s.regs.rplen), (17, s.regs.rseq), (18, s.regs.rcsum)] → t.hostData = w) ∧
        (n = 1 → ∀ k, t.hostData.getLsbD k = [s.regs.status.busy, s.regs.status.done, s.regs.status.errf,
          s.regs.status.halted, s.regs.status.seqValid, s.regs.status.linkOk].getD k false) ∧
        (n = 8 → s.regs.status.seqValid = true → t.hostData = s.regs.seq) ∧
        (n = 19 → ∀ w, (s.regs.tre, w) ∈ [(.idle, 0#32), (.build, 1#32), (.send, 2#32), (.resync, 3#32),
          (.readHeader, 4#32), (.readPayload, 5#32), (.validate, 6#32), (.done, 7#32), (.retry, 8#32),
          (.failed, 9#32)] → t.hostData = w) ∧
        (n = 20 → ∀ w, (s.regs.syn, w) ∈ [(.search, 0#32), (.gotFirst, 1#32)] → t.hostData = w) ∧
        (20 < n → t.hostData = 0#32))

/-- R33, R34: the host's buffer port: bytes written inside a buffer are held there and no other byte changes; a byte that
holds a value reads as it; beyond the buffer the access faults (the model's choice, log 16). -/
def Obligations.HostBufferPort : Prop :=
  ∀ (s : State) (off : Nat) (bytes : List Byte) (rest : List Event), s.regs.status.busy = false →
    (s.pending = .hostWriteTx off bytes :: rest → off + bytes.length ≤ s.cfg.txCapacity →
      ∃ t, step s = .next t ∧ t = { s with pending := rest, txbuf := t.txbuf } ∧
        t.txbuf.written off bytes.length = true ∧ t.txbuf.read off bytes.length = bytes ∧
        ∀ a, a < off ∨ off + bytes.length ≤ a → t.txbuf.get? a = s.txbuf.get? a) ∧
    (s.pending = .hostWriteRx off bytes :: rest → off + bytes.length ≤ s.cfg.rxCapacity →
      ∃ t, step s = .next t ∧ t = { s with pending := rest, rxbuf := t.rxbuf } ∧
        t.rxbuf.written off bytes.length = true ∧ t.rxbuf.read off bytes.length = bytes ∧
        ∀ a, a < off ∨ off + bytes.length ≤ a → t.rxbuf.get? a = s.rxbuf.get? a) ∧
    (∀ b, s.pending = .hostReadTx off :: rest → off < s.cfg.txCapacity → s.txbuf.get? off = some b →
      ∃ t, step s = .next t ∧ t.hostData = b.setWidth 32 ∧ t.txbuf = s.txbuf ∧ t.regs = s.regs) ∧
    (∀ b, s.pending = .hostReadRx off :: rest → off < s.cfg.rxCapacity → s.rxbuf.get? off = some b →
      ∃ t, step s = .next t ∧ t.hostData = b.setWidth 32 ∧ t.rxbuf = s.rxbuf ∧ t.regs = s.regs) ∧
    (s.pending = .hostWriteTx off bytes :: rest → s.cfg.txCapacity < off + bytes.length →
      step s = .fault .txOffsetOutside) ∧
    (s.pending = .hostWriteRx off bytes :: rest → s.cfg.rxCapacity < off + bytes.length →
      step s = .fault .rxOffsetOutside)
end

