-- ==== Sys2Proof/Laws/Config.lean ====
section
/-! SUPPORT. The numbers that the constants of R7 and the offsets made of them come to, and the bounds of the open sizes. A
proof cites these, so that a constant is unfolded nowhere else. -/

namespace Sys2Proof

@[simp] theorem Config.fieldWidth_eq : Config.fieldWidth = 32 := rfl
@[simp] theorem Config.headerSize_eq : Config.headerSize = 16 := rfl
@[simp] theorem Config.fieldBytes_eq : Config.fieldBytes = 4 := rfl
@[simp] theorem Config.nvsBytes_eq : Config.nvsBytes = 4 := rfl
@[simp] theorem Config.spiArgBytes_eq : Config.spiArgBytes = 28 := rfl
@[simp] theorem Config.payloadBound_eq : Config.payloadBound = 4294967280 := rfl

@[simp] theorem Codec.lengthAt_eq : Codec.lengthAt = 4 := rfl
@[simp] theorem Codec.sequenceAt_eq : Codec.sequenceAt = 8 := rfl
@[simp] theorem Codec.checksumAt_eq : Codec.checksumAt = 12 := rfl
@[simp] theorem Codec.argumentAt_eq (i : Nat) : Codec.argumentAt i = i * 4 := rfl

/-- "header size is fixed at 16 bytes (four 32-bit fields)" (R93). -/
theorem Config.headerSize_eq_fields : Config.headerSize = 4 * Config.fieldBytes := rfl

/-- TX_PAYLOAD_MAX is at least 28 (spec/93 section 6). -/
theorem Params.le_txPayloadMax (p : Params) : 28 ≤ p.txPayloadMax := Nat.le_add_left _ _

/-- TX_PAYLOAD_MAX is below `2^32 - 16` (spec/93 section 6). -/
theorem Params.txPayloadMax_lt (p : Params) : p.txPayloadMax < 4294967280 := by
  have h : p.txExtra.val < 4294967252 := p.txExtra.isLt
  simp only [Params.txPayloadMax, Config.spiArgBytes_eq]
  omega

/-- RX_PAYLOAD_MAX is below `2^32 - 16` (spec/93 section 6). -/
theorem Params.rxPayloadMax_lt (p : Params) : p.rxPayloadMax < 4294967280 := p.rxMax.isLt

theorem Params.txCapacity_eq (p : Params) : p.txCapacity = p.txPayloadMax + 16 := rfl
theorem Params.rxCapacity_eq (p : Params) : p.rxCapacity = p.rxPayloadMax + 16 := rfl

/-! ## The definitions over these constants, with the numbers in them -/

namespace Codec

theorem decodeHeader_eq (o : ByteOrder) (h : List Byte) :
    decodeHeader o h = ⟨bytesWord o h, bytesWord o (h.drop 4), bytesWord o (h.drop 8), bytesWord o (h.drop 12)⟩ := rfl

theorem zeroChecksum_eq (f : List Byte) :
    zeroChecksum f = f.take 12 ++ [0#8, 0#8, 0#8, 0#8] ++ f.drop 16 := rfl

theorem stampFrame_eq (o : ByteOrder) (seq : Word) (f : List Byte) :
    stampFrame o seq f = f.take 8 ++ wordBytes o seq ++
      wordBytes o (crc32 (f.take 8 ++ wordBytes o seq ++ [0#8, 0#8, 0#8, 0#8] ++ f.drop 16)) ++ f.drop 16 := rfl

theorem lengthMatches_eq (o : ByteOrder) (f : List Byte) :
    lengthMatches o f = ((decodeHeader o f).payloadLength.toNat == f.length - 16) := rfl

end Codec

open Codec

theorem lengthFits_iff {p : List Byte} : lengthFits p = true ↔ p.length < 4294967296 := decide_eq_true_iff

theorem argumentWord_eq (p : List Byte) (i : Nat) :
    argumentWord p i = bytesWord Config.byteOrder (p.drop (i * 4)) := rfl

theorem isSpiShape_iff {command : Word} {p : List Byte} : isSpiShape command p = true ↔
    command = 43#32 ∧ 28 ≤ p.length ∧ (bytesWord Config.byteOrder (p.drop 20)).toNat = p.length - 28 := by
  simp only [isSpiShape, Bool.and_eq_true, beq_iff_eq, decide_eq_true_iff, and_assoc]
  rfl

theorem Machine.State.maxWriteBytes_eq (s : State) : s.maxWriteBytes = s.cfg.txPayloadMax - 28 := rfl

theorem Machine.State.stampable_eq (s : State) (n : Nat) :
    s.stampable n = (s.txbuf.written 0 8 && s.txbuf.written 16 n) := rfl

end Sys2Proof
end

