-- ==== Sys2Proof/Laws/Codec.lean ====
section
/-! SUPPORT. The laws of the byte order and the header: fields read back, lengths. -/

namespace Sys2Proof.Codec

/-! ## Byte order -/

@[simp] theorem length_wordBytes (o : ByteOrder) (v : Word) : (wordBytes o v).length = 4 := by cases o <;> rfl

/-- The bits of four bytes in a row, the last one lowest. -/
theorem getLsbD_fourBytes (a b c d : Byte) (i : Nat) :
    BitVec.getLsbD (d ++ c ++ b ++ a : BitVec (8 + 8 + 8 + 8)) i =
      if i < 8 then a.getLsbD i else if i < 16 then b.getLsbD (i - 8)
      else if i < 24 then c.getLsbD (i - 16) else d.getLsbD (i - 24) := by
  simp only [BitVec.getLsbD_append]
  by_cases h1 : i < 8
  · simp [h1]
  · by_cases h2 : i < 16
    · simp [h1, h2, show i - 8 < 8 by omega]
    · by_cases h3 : i < 24
      · simp [h1, h2, h3, show ¬ i - 8 < 8 by omega, show i - 16 < 8 by omega, show i - 8 - 8 = i - 16 by omega]
      · simp [h1, h2, h3, show ¬ i - 8 < 8 by omega, show ¬ i - 8 - 8 < 8 by omega,
          show i - 8 - 8 - 8 = i - 24 by omega]

/-- Four bytes cut from a word make it again. -/
theorem fourBytes_extract (v : Word) :
    (v.extractLsb' 24 8 ++ v.extractLsb' 16 8 ++ v.extractLsb' 8 8 ++ v.extractLsb' 0 8 : BitVec (8 + 8 + 8 + 8)) = v := by
  apply BitVec.eq_of_getLsbD_eq
  intro i hi
  rw [getLsbD_fourBytes]
  simp only [BitVec.getLsbD_extractLsb']
  split
  · simp [*]
  · split
    · simp [show i - 8 < 8 by omega, show 8 + (i - 8) = i by omega]
    · split
      · simp [show i - 16 < 8 by omega, show 16 + (i - 16) = i by omega]
      · simp [show i - 24 < 8 by omega, show 24 + (i - 24) = i by omega]

/-- The bytes of a word made of four bytes. -/
theorem extract_fourBytes (a b c d : Byte) :
    BitVec.extractLsb' 0 8 (d ++ c ++ b ++ a : BitVec (8 + 8 + 8 + 8)) = a ∧
    BitVec.extractLsb' 8 8 (d ++ c ++ b ++ a : BitVec (8 + 8 + 8 + 8)) = b ∧
    BitVec.extractLsb' 16 8 (d ++ c ++ b ++ a : BitVec (8 + 8 + 8 + 8)) = c ∧
    BitVec.extractLsb' 24 8 (d ++ c ++ b ++ a : BitVec (8 + 8 + 8 + 8)) = d := by
  refine ⟨?_, ?_, ?_, ?_⟩ <;>
  · apply BitVec.eq_of_getLsbD_eq
    intro i hi
    simp only [BitVec.getLsbD_extractLsb', getLsbD_fourBytes, hi, decide_true, Bool.true_and]
    split <;> (try split) <;> (try split) <;>
      first
        | omega
        | (congr 1; omega)

/-- A field reads back from its four bytes, whatever follows them. -/
theorem bytesWord_wordBytes_append (o : ByteOrder) (v : Word) (rest : List Byte) :
    bytesWord o (wordBytes o v ++ rest) = v := by
  cases o <;> exact fourBytes_extract v

@[simp] theorem bytesWord_wordBytes (o : ByteOrder) (v : Word) : bytesWord o (wordBytes o v) = v := by
  have := bytesWord_wordBytes_append o v []
  simpa using this

/-- The four bytes of the field a string begins with are its first four bytes. -/
theorem wordBytes_bytesWord (o : ByteOrder) (a b c d : Byte) (rest : List Byte) :
    wordBytes o (bytesWord o (a :: b :: c :: d :: rest)) = [a, b, c, d] := by
  cases o
  · obtain ⟨h0, h1, h2, h3⟩ := extract_fourBytes a b c d
    show [_, _, _, _] = _
    exact congr (congrArg _ h0) (congr (congrArg _ h1) (congr (congrArg _ h2) (congrArg (fun x => [x]) h3)))
  · obtain ⟨h0, h1, h2, h3⟩ := extract_fourBytes d c b a
    show [_, _, _, _] = _
    exact congr (congrArg _ h3) (congr (congrArg _ h2) (congr (congrArg _ h1) (congrArg (fun x => [x]) h0)))

@[simp] theorem length_headerBytes (o : ByteOrder) (c l q k : Word) : (headerBytes o c l q k).length = 16 := by
  simp [headerBytes]

@[simp] theorem length_encodeFrame (o : ByteOrder) (c q : Word) (p : List Byte) :
    (encodeFrame o c q p).length = 16 + p.length := by
  simp [encodeFrame]

@[simp] theorem length_argumentBlock (o : ByteOrder) (a b c d e f g : Word) :
    (argumentBlock o a b c d e f g).length = 28 := by
  simp [argumentBlock]

end Sys2Proof.Codec
end

