-- ==== Sys2Proof/Laws/Checksum.lean ====
section
/-! SUPPORT. The laws of the division that the checksum runs: it is linear over xor and loses no bit (R120 to R122, R126). -/

namespace Sys2Proof.Codec

/-! ## One step -/

theorem crcBit_eq (a : Word) : crcBit a = (a >>> 1) ^^^ (if a.getLsbD 0 then Config.crcPoly else 0#32) := by
  unfold crcBit; split <;> simp

/-- One step is linear over xor. -/
theorem crcBit_xor (a b : Word) : crcBit (a ^^^ b) = crcBit a ^^^ crcBit b := by
  have z : ∀ p q r : Word, p ^^^ q = r ^^^ (r ^^^ (p ^^^ q)) := by
    intro p q r; rw [← BitVec.xor_assoc, BitVec.xor_self, BitVec.zero_xor]
  rw [crcBit_eq, crcBit_eq, crcBit_eq, BitVec.ushiftRight_xor_distrib]
  simp only [BitVec.getLsbD_xor]
  cases a.getLsbD 0 <;> cases b.getLsbD 0 <;> simp <;>
    first
      | ac_rfl
      | (refine (z _ _ Config.crcPoly).trans ?_; ac_rfl)

/-- Only zero steps to zero: the top bit of the polynomial is set. -/
theorem eq_zero_of_crcBit (a : Word) (h : crcBit a = 0#32) : a = 0#32 := by
  unfold crcBit at h
  split at h
  · exfalso
    have h31 : (a >>> 1).getLsbD 31 = false := by
      rw [BitVec.getLsbD_ushiftRight]; exact BitVec.getLsbD_of_ge _ _ (by decide)
    have := congrArg (fun x : Word => x.getLsbD 31) h
    simp only [BitVec.getLsbD_xor, h31] at this
    revert this; decide
  · rename_i hb
    simp only [Bool.not_eq_true] at hb
    apply BitVec.eq_of_getLsbD_eq
    intro i hi
    cases i with
    | zero => rw [hb]; simp
    | succ i =>
      have := congrArg (fun x : Word => x.getLsbD i) h
      simp only [BitVec.getLsbD_ushiftRight] at this
      rw [Nat.add_comm] at this
      rw [this]; simp

/-! ## Several steps -/

theorem crcBits_xor (n : Nat) (a b : Word) : crcBits n (a ^^^ b) = crcBits n a ^^^ crcBits n b := by
  induction n generalizing a b with
  | zero => rfl
  | succ n ih => simp only [crcBits, crcBit_xor, ih]

theorem crcBits_add (m n : Nat) (c : Word) : crcBits (m + n) c = crcBits n (crcBits m c) := by
  induction m generalizing c with
  | zero => simp [crcBits]
  | succ m ih => rw [Nat.succ_add, crcBits, ih]; rfl

/-- Steps over zero bits only shift. -/
theorem crcBits_of_low_zero (n : Nat) (c : Word) (h : ∀ i < n, c.getLsbD i = false) : crcBits n c = c >>> n := by
  induction n generalizing c with
  | zero => simp [crcBits]
  | succ n ih =>
    have hc : crcBit c = c >>> 1 := by rw [crcBit, if_neg (by rw [h 0 (by omega)]; decide)]
    rw [crcBits, hc, ih, ← BitVec.shiftRight_add, Nat.add_comm]
    intro i hi
    rw [BitVec.getLsbD_ushiftRight]
    exact h _ (by omega)

theorem crcBits_injective (n : Nat) {a b : Word} (h : crcBits n a = crcBits n b) : a = b := by
  have ker : ∀ (n : Nat) (a : Word), crcBits n a = 0#32 → a = 0#32 := by
    intro n
    induction n with
    | zero => exact fun a h => h
    | succ n ih => exact fun a h => eq_zero_of_crcBit _ (ih _ h)
  have hx : a ^^^ b = 0#32 := ker n _ (by rw [crcBits_xor, h, BitVec.xor_self])
  have h2 : a ^^^ b ^^^ b = 0#32 ^^^ b := by rw [hx]
  rwa [BitVec.xor_assoc, BitVec.xor_self, BitVec.xor_zero, BitVec.zero_xor] at h2

/-! ## The table -/

/-- The sixteen entries as R121 prints them. -/
theorem crcTable_eq : crcTable =
    [0x00000000#32, 0x1DB71064#32, 0x3B6E20C8#32, 0x26D930AC#32,
     0x76DC4190#32, 0x6B6B51F4#32, 0x4DB26158#32, 0x5005713C#32,
     0xEDB88320#32, 0xF00F9344#32, 0xD6D6A3E8#32, 0xCB61B38C#32,
     0x9B64C2B0#32, 0x86D3D2D4#32, 0xA00AE278#32, 0xBDBDF21C#32] := by decide +kernel

/-- An entry is four division steps of its index (R121). -/
theorem crcTable_getD {k : Nat} (h : k < Config.crcTableEntries) : crcTable.getD k 0#32 = crcEntry k := by
  simp [crcTable, List.getD_eq_getElem?_getD, h]

end Sys2Proof.Codec
end

