-- ==== Sys2Proof/Laws/Memory.lean ====
section
/-! SUPPORT. The laws of the byte spaces: a read after a write to the same place gives the value written, a write leaves
every other place alone, every write keeps the canonical form and the bound. -/

namespace Sys2Proof.Machine

/-- Read after write of one byte. -/
theorem Memory.get?_set (m : Memory) (a : Nat) (b : Byte) (x : Nat) :
    (m.set a b).get? x = if x = a then some b else m.get? x := by
  induction m with
  | nil =>
    simp only [Memory.set, Memory.get?]
    split
    · rfl
    · split <;> rfl
  | cons c m ih =>
    obtain ⟨k, v⟩ := c
    simp only [Memory.set]
    split
    · simp only [Memory.get?]
      by_cases hx : x = a
      · simp [hx]
      · simp only [if_neg hx]
        split
        · have h1 : x ≠ k := by omega
          have h2 : x < k := by omega
          simp [h1, h2]
        · rfl
    · split
      · rename_i h
        subst h
        simp only [Memory.get?]
        split <;> rfl
      · simp only [Memory.get?, ih]
        by_cases hx : x = a
        · subst hx
          rename_i h1 h2
          have h3 : ¬ x < k := by omega
          simp [h2, h3]
        · simp [hx]

/-- A write of a byte string: inside it reads back, outside it nothing changes. -/
theorem Memory.get?_write (m : Memory) (a : Nat) (bs : List Byte) (x : Nat) :
    (m.write a bs).get? x = if a ≤ x ∧ x < a + bs.length then bs[x - a]? else m.get? x := by
  induction bs generalizing m a with
  | nil =>
    have : ¬ (a ≤ x ∧ x < a + ([] : List Byte).length) := by simp
    rw [if_neg this]; rfl
  | cons b bs ih =>
    simp only [Memory.write, ih, Memory.get?_set, List.length_cons]
    by_cases h1 : a + 1 ≤ x ∧ x < a + 1 + bs.length
    · have h2 : a ≤ x ∧ x < a + (bs.length + 1) := by omega
      rw [if_pos h1, if_pos h2]
      have : x - a = (x - (a + 1)) + 1 := by omega
      rw [this, List.getElem?_cons_succ]
    · rw [if_neg h1]
      by_cases h3 : x = a
      · subst h3; simp
      · have h2 : ¬ (a ≤ x ∧ x < a + (bs.length + 1)) := by omega
        rw [if_neg h3, if_neg h2]

/-- The frame of a write: outside the stored bytes every byte is as before. -/
theorem Memory.get?_write_outside {m : Memory} {a x : Nat} {bs : List Byte} (h : x < a ∨ a + bs.length ≤ x) :
    (m.write a bs).get? x = m.get? x := by
  rw [Memory.get?_write, if_neg (by omega)]

theorem Memory.byte_write_outside {m : Memory} {a x : Nat} {bs : List Byte} (h : x < a ∨ a + bs.length ≤ x) :
    (m.write a bs).byte x = m.byte x := by
  simp only [Memory.byte, Memory.get?_write_outside h]

theorem Memory.byte_write_inside {m : Memory} {a x : Nat} {bs : List Byte} (h : a ≤ x) (h' : x < a + bs.length) :
    (m.write a bs).byte x = bs[x - a]'(by omega) := by
  have : x - a < bs.length := by omega
  simp [Memory.byte, Memory.get?_write, h, h', List.getElem?_eq_getElem this]

/-! ## Reading -/

@[simp] theorem Memory.length_read (m : Memory) (a n : Nat) : (m.read a n).length = n := by
  induction n generalizing a with
  | zero => rfl
  | succ n ih => simp [Memory.read, ih]

/-- A read byte by byte. -/
theorem Memory.getElem_read (m : Memory) (a n i : Nat) (h : i < (m.read a n).length) :
    (m.read a n)[i] = m.byte (a + i) := by
  induction n generalizing a i with
  | zero => simp [Memory.read] at h
  | succ n ih =>
    cases i with
    | zero => simp [Memory.read]
    | succ i =>
      simp only [Memory.read, List.getElem_cons_succ]
      rw [ih]; congr 1; omega

/-- Two spaces that agree on a range are read alike there. -/
theorem Memory.read_congr {m m' : Memory} {a n : Nat} (h : ∀ x, a ≤ x → x < a + n → m.byte x = m'.byte x) :
    m.read a n = m'.read a n := by
  apply List.ext_getElem (by simp)
  intro i h1 _
  rw [Memory.length_read] at h1
  rw [Memory.getElem_read, Memory.getElem_read]
  exact h _ (by omega) (by omega)

/-- What was written is read back. -/
theorem Memory.read_write_self (m : Memory) (a : Nat) (bs : List Byte) : (m.write a bs).read a bs.length = bs := by
  apply List.ext_getElem (by simp)
  intro i h1 h2
  rw [Memory.getElem_read, Memory.byte_write_inside (by omega) (by omega)]
  congr 1; omega

/-- A read that does not meet a write is as before it. -/
theorem Memory.read_write_outside {m : Memory} {a n w : Nat} {bs : List Byte} (h : a + n ≤ w ∨ w + bs.length ≤ a) :
    (m.write w bs).read a n = m.read a n :=
  Memory.read_congr fun _ _ _ => Memory.byte_write_outside (by omega)

/-- A range is read in two parts. -/
theorem Memory.read_add (m : Memory) (a n k : Nat) : m.read a (n + k) = m.read a n ++ m.read (a + n) k := by
  induction n generalizing a with
  | zero => simp [Memory.read]
  | succ n ih =>
    rw [show n + 1 + k = (n + k) + 1 by omega, show a + (n + 1) = a + 1 + n by omega]
    simp only [Memory.read, List.cons_append, ih]

/-- The bytes of a range hold values exactly when each does. -/
theorem Memory.written_iff (m : Memory) (a n : Nat) :
    m.written a n = true ↔ ∀ x, a ≤ x → x < a + n → (m.get? x).isSome = true := by
  induction n generalizing a with
  | zero => simp [Memory.written]; intro x h1 h2; omega
  | succ n ih =>
    simp only [Memory.written, Bool.and_eq_true, ih]
    constructor
    · rintro ⟨h0, h⟩ x h1 h2
      by_cases hx : x = a
      · subst hx; exact h0
      · exact h x (by omega) (by omega)
    · intro h
      exact ⟨h a (by omega) (by omega), fun x h1 h2 => h x (by omega) (by omega)⟩

/-- A write makes its bytes hold values and takes none away. -/
theorem Memory.isSome_get?_write {m : Memory} {a x : Nat} {bs : List Byte} :
    ((m.write a bs).get? x).isSome = true ↔ (a ≤ x ∧ x < a + bs.length) ∨ (m.get? x).isSome = true := by
  rw [Memory.get?_write]
  split
  · rename_i h
    have : x - a < bs.length := by omega
    simp [List.getElem?_eq_getElem this, h]
  · rename_i h
    simp [h]

/-! ## The canonical form and the bound -/

theorem Memory.wf_cons_cons (c d : Host.Cell) (m : Memory) :
    Memory.wf (c :: d :: m) = true ↔ c.1 < d.1 ∧ Memory.wf (d :: m) = true := by
  simp [Memory.wf]

/-- The head of a space after one byte was written. -/
theorem Memory.set_head (m : Memory) (a : Nat) (b : Byte) :
    ∃ c rest, m.set a b = c :: rest ∧ (c.1 = a ∨ ∃ d rest', m = d :: rest' ∧ c.1 = d.1) := by
  cases m with
  | nil => exact ⟨_, _, rfl, .inl rfl⟩
  | cons d m =>
    obtain ⟨k, v⟩ := d
    simp only [Memory.set]
    split
    · exact ⟨_, _, rfl, .inl rfl⟩
    · split
      · exact ⟨_, _, rfl, .inl rfl⟩
      · exact ⟨_, _, rfl, .inr ⟨_, _, rfl, rfl⟩⟩

/-- One byte written keeps the canonical form. -/
theorem Memory.wf_set {m : Memory} (h : m.wf = true) (a : Nat) (b : Byte) : (m.set a b).wf = true := by
  induction m with
  | nil => rfl
  | cons c m ih =>
    obtain ⟨k, v⟩ := c
    have hm : Memory.wf m = true := by
      cases m with
      | nil => rfl
      | cons d m => exact ((Memory.wf_cons_cons _ _ _).mp h).2
    simp only [Memory.set]
    split
    · rename_i hlt
      exact (Memory.wf_cons_cons _ _ _).mpr ⟨hlt, h⟩
    · split
      · rename_i h1 h2
        subst h2
        cases m with
        | nil => rfl
        | cons d m => exact (Memory.wf_cons_cons _ _ _).mpr ((Memory.wf_cons_cons _ _ _).mp h)
      · rename_i h1 h2
        obtain ⟨c, rest, he, hc⟩ := Memory.set_head m a b
        have ih' := ih hm
        rw [he] at ih' ⊢
        refine (Memory.wf_cons_cons _ _ _).mpr ⟨?_, ih'⟩
        rcases hc with hc | ⟨d, rest', rfl, hc⟩
        · rw [hc]; show k < a; omega
        · rw [hc]; exact ((Memory.wf_cons_cons _ _ _).mp h).1

/-- Every write keeps the canonical form. -/
theorem Memory.wf_write {m : Memory} (h : m.wf = true) (a : Nat) (bs : List Byte) : (m.write a bs).wf = true := by
  induction bs generalizing m a with
  | nil => exact h
  | cons b bs ih => exact ih (Memory.wf_set h a b) (a + 1)

theorem Memory.below_set {m : Memory} {size : Nat} (h : m.below size = true) {a : Nat} (ha : a < size) (b : Byte) :
    (m.set a b).below size = true := by
  induction m with
  | nil => simpa [Memory.set, Memory.below] using ha
  | cons c m ih =>
    obtain ⟨k, v⟩ := c
    simp only [Memory.below, List.all_cons, Bool.and_eq_true, decide_eq_true_eq] at h
    have ih' := ih h.2
    simp only [Memory.below] at ih'
    simp only [Memory.set]
    split
    · simp only [Memory.below, List.all_cons, Bool.and_eq_true, decide_eq_true_eq]; exact ⟨ha, h⟩
    · split
      · simp only [Memory.below, List.all_cons, Bool.and_eq_true, decide_eq_true_eq]; exact ⟨ha, h.2⟩
      · simp only [Memory.below, List.all_cons, Bool.and_eq_true, decide_eq_true_eq]; exact ⟨h.1, ih'⟩

/-- A write inside the bound keeps it. -/
theorem Memory.below_write {m : Memory} {size : Nat} (h : m.below size = true) {a : Nat} {bs : List Byte}
    (ha : a + bs.length ≤ size) : (m.write a bs).below size = true := by
  induction bs generalizing m a with
  | nil => exact h
  | cons b bs ih =>
    simp only [List.length_cons] at ha
    exact ih (Memory.below_set h (by omega) b) (by omega)

end Sys2Proof.Machine
end

