-- ==== Sys2Proof/Laws/State.lean ====
section
/-! SUPPORT. What each named update of the state does to each field, once, so that no later proof unfolds a record
update. -/

namespace Sys2Proof.Machine

variable (s : State)

/-! ## `State.begin` -/

@[simp] theorem State.begin_regs (k : BitVec 4) : (s.begin k).regs = { s.regs with
      op := k, err := 0#8, status := { s.regs.status with busy := true, done := false, errf := false } } := rfl
@[simp] theorem State.begin_txbuf (k : BitVec 4) : (s.begin k).txbuf = s.txbuf := rfl
@[simp] theorem State.begin_rxbuf (k : BitVec 4) : (s.begin k).rxbuf = s.rxbuf := rfl
@[simp] theorem State.begin_edge (k : BitVec 4) : (s.begin k).edge = s.edge := rfl
@[simp] theorem State.begin_cfg (k : BitVec 4) : (s.begin k).cfg = s.cfg := rfl
@[simp] theorem State.begin_freeUsed (k : BitVec 4) : (s.begin k).freeUsed = s.freeUsed := rfl
@[simp] theorem State.begin_failures (k : BitVec 4) : (s.begin k).failures = s.failures := rfl
@[simp] theorem State.begin_pending (k : BitVec 4) : (s.begin k).pending = s.pending := rfl
@[simp] theorem State.begin_hostData (k : BitVec 4) : (s.begin k).hostData = s.hostData := rfl

/-! ## `State.finished` -/

@[simp] theorem State.finished_regs : (s.finished).regs = { s.regs with status := { s.regs.status with busy := false, done := true } } := rfl
@[simp] theorem State.finished_txbuf : (s.finished).txbuf = s.txbuf := rfl
@[simp] theorem State.finished_rxbuf : (s.finished).rxbuf = s.rxbuf := rfl
@[simp] theorem State.finished_edge : (s.finished).edge = s.edge := rfl
@[simp] theorem State.finished_cfg : (s.finished).cfg = s.cfg := rfl
@[simp] theorem State.finished_freeUsed : (s.finished).freeUsed = s.freeUsed := rfl
@[simp] theorem State.finished_failures : (s.finished).failures = s.failures := rfl
@[simp] theorem State.finished_pending : (s.finished).pending = s.pending := rfl
@[simp] theorem State.finished_hostData : (s.finished).hostData = s.hostData := rfl

/-! ## `State.raised` -/

@[simp] theorem State.raised_regs (e : ErrKind) : (s.raised e).regs = { s.regs with
      err := e.code
      status := { s.regs.status with
        busy := false, done := true, errf := true, halted := s.regs.status.halted || e.fatal } } := rfl
@[simp] theorem State.raised_txbuf (e : ErrKind) : (s.raised e).txbuf = s.txbuf := rfl
@[simp] theorem State.raised_rxbuf (e : ErrKind) : (s.raised e).rxbuf = s.rxbuf := rfl
@[simp] theorem State.raised_edge (e : ErrKind) : (s.raised e).edge = s.edge := rfl
@[simp] theorem State.raised_cfg (e : ErrKind) : (s.raised e).cfg = s.cfg := rfl
@[simp] theorem State.raised_freeUsed (e : ErrKind) : (s.raised e).freeUsed = s.freeUsed := rfl
@[simp] theorem State.raised_failures (e : ErrKind) : (s.raised e).failures = s.failures := rfl
@[simp] theorem State.raised_pending (e : ErrKind) : (s.raised e).pending = s.pending := rfl
@[simp] theorem State.raised_hostData (e : ErrKind) : (s.raised e).hostData = s.hostData := rfl

/-! ## `State.checksummed` -/

@[simp] theorem State.checksummed_regs (bs : List Byte) : (s.checksummed bs).regs = { s.regs with crcAcc := Codec.crcRemainder bs } := rfl
@[simp] theorem State.checksummed_txbuf (bs : List Byte) : (s.checksummed bs).txbuf = s.txbuf := rfl
@[simp] theorem State.checksummed_rxbuf (bs : List Byte) : (s.checksummed bs).rxbuf = s.rxbuf := rfl
@[simp] theorem State.checksummed_edge (bs : List Byte) : (s.checksummed bs).edge = s.edge := rfl
@[simp] theorem State.checksummed_cfg (bs : List Byte) : (s.checksummed bs).cfg = s.cfg := rfl
@[simp] theorem State.checksummed_freeUsed (bs : List Byte) : (s.checksummed bs).freeUsed = s.freeUsed := rfl
@[simp] theorem State.checksummed_failures (bs : List Byte) : (s.checksummed bs).failures = s.failures := rfl
@[simp] theorem State.checksummed_pending (bs : List Byte) : (s.checksummed bs).pending = s.pending := rfl
@[simp] theorem State.checksummed_hostData (bs : List Byte) : (s.checksummed bs).hostData = s.hostData := rfl

/-! ## `State.counterLoaded` -/

@[simp] theorem State.counterLoaded_regs : (s.counterLoaded).regs = { s.regs with status := { s.regs.status with seqValid := true } } := rfl
@[simp] theorem State.counterLoaded_txbuf : (s.counterLoaded).txbuf = s.txbuf := rfl
@[simp] theorem State.counterLoaded_rxbuf : (s.counterLoaded).rxbuf = s.rxbuf := rfl
@[simp] theorem State.counterLoaded_edge : (s.counterLoaded).edge = s.edge := rfl
@[simp] theorem State.counterLoaded_cfg : (s.counterLoaded).cfg = s.cfg := rfl
@[simp] theorem State.counterLoaded_freeUsed : (s.counterLoaded).freeUsed = s.freeUsed := rfl
@[simp] theorem State.counterLoaded_failures : (s.counterLoaded).failures = s.failures := rfl
@[simp] theorem State.counterLoaded_pending : (s.counterLoaded).pending = s.pending := rfl
@[simp] theorem State.counterLoaded_hostData : (s.counterLoaded).hostData = s.hostData := rfl

/-! ## `State.withSeq` -/

@[simp] theorem State.withSeq_regs (v : Word) : (s.withSeq v).regs = { s.regs with seq := v } := rfl
@[simp] theorem State.withSeq_txbuf (v : Word) : (s.withSeq v).txbuf = s.txbuf := rfl
@[simp] theorem State.withSeq_rxbuf (v : Word) : (s.withSeq v).rxbuf = s.rxbuf := rfl
@[simp] theorem State.withSeq_edge (v : Word) : (s.withSeq v).edge = s.edge := rfl
@[simp] theorem State.withSeq_cfg (v : Word) : (s.withSeq v).cfg = s.cfg := rfl
@[simp] theorem State.withSeq_freeUsed (v : Word) : (s.withSeq v).freeUsed = s.freeUsed := rfl
@[simp] theorem State.withSeq_failures (v : Word) : (s.withSeq v).failures = s.failures := rfl
@[simp] theorem State.withSeq_pending (v : Word) : (s.withSeq v).pending = s.pending := rfl
@[simp] theorem State.withSeq_hostData (v : Word) : (s.withSeq v).hostData = s.hostData := rfl

/-! ## `State.toSyn` -/

@[simp] theorem State.toSyn_regs (st : SynState) : (s.toSyn st).regs = { s.regs with syn := st } := rfl
@[simp] theorem State.toSyn_txbuf (st : SynState) : (s.toSyn st).txbuf = s.txbuf := rfl
@[simp] theorem State.toSyn_rxbuf (st : SynState) : (s.toSyn st).rxbuf = s.rxbuf := rfl
@[simp] theorem State.toSyn_edge (st : SynState) : (s.toSyn st).edge = s.edge := rfl
@[simp] theorem State.toSyn_cfg (st : SynState) : (s.toSyn st).cfg = s.cfg := rfl
@[simp] theorem State.toSyn_freeUsed (st : SynState) : (s.toSyn st).freeUsed = s.freeUsed := rfl
@[simp] theorem State.toSyn_failures (st : SynState) : (s.toSyn st).failures = s.failures := rfl
@[simp] theorem State.toSyn_pending (st : SynState) : (s.toSyn st).pending = s.pending := rfl
@[simp] theorem State.toSyn_hostData (st : SynState) : (s.toSyn st).hostData = s.hostData := rfl

/-! ## `State.withRes` -/

@[simp] theorem State.withRes_regs (v : Word) : (s.withRes v).regs = { s.regs with res := v } := rfl
@[simp] theorem State.withRes_txbuf (v : Word) : (s.withRes v).txbuf = s.txbuf := rfl
@[simp] theorem State.withRes_rxbuf (v : Word) : (s.withRes v).rxbuf = s.rxbuf := rfl
@[simp] theorem State.withRes_edge (v : Word) : (s.withRes v).edge = s.edge := rfl
@[simp] theorem State.withRes_cfg (v : Word) : (s.withRes v).cfg = s.cfg := rfl
@[simp] theorem State.withRes_freeUsed (v : Word) : (s.withRes v).freeUsed = s.freeUsed := rfl
@[simp] theorem State.withRes_failures (v : Word) : (s.withRes v).failures = s.failures := rfl
@[simp] theorem State.withRes_pending (v : Word) : (s.withRes v).pending = s.pending := rfl
@[simp] theorem State.withRes_hostData (v : Word) : (s.withRes v).hostData = s.hostData := rfl

/-! ## `State.toTre` -/

@[simp] theorem State.toTre_regs (st : TreState) : (s.toTre st).regs = { s.regs with tre := st } := rfl
@[simp] theorem State.toTre_txbuf (st : TreState) : (s.toTre st).txbuf = s.txbuf := rfl
@[simp] theorem State.toTre_rxbuf (st : TreState) : (s.toTre st).rxbuf = s.rxbuf := rfl
@[simp] theorem State.toTre_edge (st : TreState) : (s.toTre st).edge = s.edge := rfl
@[simp] theorem State.toTre_cfg (st : TreState) : (s.toTre st).cfg = s.cfg := rfl
@[simp] theorem State.toTre_freeUsed (st : TreState) : (s.toTre st).freeUsed = s.freeUsed := rfl
@[simp] theorem State.toTre_failures (st : TreState) : (s.toTre st).failures = s.failures := rfl
@[simp] theorem State.toTre_pending (st : TreState) : (s.toTre st).pending = s.pending := rfl
@[simp] theorem State.toTre_hostData (st : TreState) : (s.toTre st).hostData = s.hostData := rfl

/-! ## `State.withLink` -/

@[simp] theorem State.withLink_regs (v : Bool) : (s.withLink v).regs = { s.regs with status := { s.regs.status with linkOk := v } } := rfl
@[simp] theorem State.withLink_txbuf (v : Bool) : (s.withLink v).txbuf = s.txbuf := rfl
@[simp] theorem State.withLink_rxbuf (v : Bool) : (s.withLink v).rxbuf = s.rxbuf := rfl
@[simp] theorem State.withLink_edge (v : Bool) : (s.withLink v).edge = s.edge := rfl
@[simp] theorem State.withLink_cfg (v : Bool) : (s.withLink v).cfg = s.cfg := rfl
@[simp] theorem State.withLink_freeUsed (v : Bool) : (s.withLink v).freeUsed = s.freeUsed := rfl
@[simp] theorem State.withLink_failures (v : Bool) : (s.withLink v).failures = s.failures := rfl
@[simp] theorem State.withLink_pending (v : Bool) : (s.withLink v).pending = s.pending := rfl
@[simp] theorem State.withLink_hostData (v : Bool) : (s.withLink v).hostData = s.hostData := rfl

/-! ## `State.replyLost` -/

@[simp] theorem State.replyLost_regs : s.replyLost.regs = { s.regs with res := s.freeWord } := rfl
@[simp] theorem State.replyLost_txbuf : s.replyLost.txbuf = s.txbuf := rfl
@[simp] theorem State.replyLost_rxbuf : s.replyLost.rxbuf = [] := rfl
@[simp] theorem State.replyLost_edge : s.replyLost.edge = s.edge := rfl
@[simp] theorem State.replyLost_cfg : s.replyLost.cfg = s.cfg := rfl
@[simp] theorem State.replyLost_freeUsed : s.replyLost.freeUsed = s.freeUsed + 1 := rfl
@[simp] theorem State.replyLost_failures : s.replyLost.failures = s.failures := rfl
@[simp] theorem State.replyLost_pending : s.replyLost.pending = s.pending := rfl
@[simp] theorem State.replyLost_hostData : s.replyLost.hostData = s.hostData := rfl

/-! ## `State.resetInput` -/

@[simp] theorem State.resetInput_regs : s.resetInput.regs = Regs.reset s.cfg.speedReset s.freeWord := rfl
@[simp] theorem State.resetInput_txbuf : s.resetInput.txbuf = [] := rfl
@[simp] theorem State.resetInput_rxbuf : s.resetInput.rxbuf = [] := rfl
@[simp] theorem State.resetInput_edge : s.resetInput.edge = s.edge := rfl
@[simp] theorem State.resetInput_cfg : s.resetInput.cfg = s.cfg := rfl
@[simp] theorem State.resetInput_freeUsed : s.resetInput.freeUsed = s.freeUsed + 1 := rfl
@[simp] theorem State.resetInput_failures : s.resetInput.failures = [] := rfl
@[simp] theorem State.resetInput_pending : s.resetInput.pending = s.pending := rfl
@[simp] theorem State.resetInput_hostData : s.resetInput.hostData = s.hostData := rfl

/-! ## `deliver` -/

@[simp] theorem deliver_regs (bytes : List Byte) : (deliver bytes s).regs = s.regs := rfl
@[simp] theorem deliver_txbuf (bytes : List Byte) : (deliver bytes s).txbuf = s.txbuf := rfl
@[simp] theorem deliver_rxbuf (bytes : List Byte) : (deliver bytes s).rxbuf = s.rxbuf := rfl
@[simp] theorem deliver_edge (bytes : List Byte) : (deliver bytes s).edge = { s.edge with rx := s.edge.rx ++ bytes } := rfl
@[simp] theorem deliver_cfg (bytes : List Byte) : (deliver bytes s).cfg = s.cfg := rfl
@[simp] theorem deliver_freeUsed (bytes : List Byte) : (deliver bytes s).freeUsed = s.freeUsed := rfl
@[simp] theorem deliver_failures (bytes : List Byte) : (deliver bytes s).failures = s.failures := rfl
@[simp] theorem deliver_pending (bytes : List Byte) : (deliver bytes s).pending = s.pending := rfl
@[simp] theorem deliver_hostData (bytes : List Byte) : (deliver bytes s).hostData = s.hostData := rfl

/-! ## `Edge` -/

@[simp] theorem Edge.pass_nvs (e : Edge) (t : Nat) (b : List Byte) : (e.pass t b).nvs = e.nvs := rfl
@[simp] theorem Edge.pass_rx (e : Edge) (t : Nat) (b : List Byte) : (e.pass t b).rx = e.rx ++ b := rfl
@[simp] theorem Edge.pass_sent (e : Edge) (t : Nat) (b : List Byte) : (e.pass t b).sent = e.sent := rfl
@[simp] theorem Edge.pass_now (e : Edge) (t : Nat) (b : List Byte) : (e.pass t b).now = e.now + t := rfl
@[simp] theorem Edge.pass_tpOpen (e : Edge) (t : Nat) (b : List Byte) : (e.pass t b).tpOpen = e.tpOpen := rfl
@[simp] theorem Edge.pass_answers (e : Edge) (t : Nat) (b : List Byte) : (e.pass t b).answers = e.answers := rfl
@[simp] theorem Edge.pass_answersUsed (e : Edge) (t : Nat) (b : List Byte) : (e.pass t b).answersUsed = e.answersUsed := rfl
@[simp] theorem Edge.pass_trace (e : Edge) (t : Nat) (b : List Byte) : (e.pass t b).trace = e.trace := rfl
@[simp] theorem Edge.record_nvs (e : Edge) (x : Access) : (e.record x).nvs = e.nvs := rfl
@[simp] theorem Edge.record_rx (e : Edge) (x : Access) : (e.record x).rx = e.rx := rfl
@[simp] theorem Edge.record_sent (e : Edge) (x : Access) : (e.record x).sent = e.sent := rfl
@[simp] theorem Edge.record_now (e : Edge) (x : Access) : (e.record x).now = e.now := rfl
@[simp] theorem Edge.record_tpOpen (e : Edge) (x : Access) : (e.record x).tpOpen = e.tpOpen := rfl
@[simp] theorem Edge.record_answers (e : Edge) (x : Access) : (e.record x).answers = e.answers := rfl
@[simp] theorem Edge.record_answersUsed (e : Edge) (x : Access) : (e.record x).answersUsed = e.answersUsed := rfl
@[simp] theorem Edge.record_trace (e : Edge) (x : Access) : (e.record x).trace = e.trace ++ [x] := rfl

/-- Drawing an answer changes nothing of the edge but the answers. -/
@[simp] theorem Edge.answer_nvs (e : Edge) : e.answer.2.nvs = e.nvs := by unfold Edge.answer; split <;> rfl
@[simp] theorem Edge.answer_rx (e : Edge) : e.answer.2.rx = e.rx := by unfold Edge.answer; split <;> rfl
@[simp] theorem Edge.answer_sent (e : Edge) : e.answer.2.sent = e.sent := by unfold Edge.answer; split <;> rfl
@[simp] theorem Edge.answer_now (e : Edge) : e.answer.2.now = e.now := by unfold Edge.answer; split <;> rfl
@[simp] theorem Edge.answer_tpOpen (e : Edge) : e.answer.2.tpOpen = e.tpOpen := by unfold Edge.answer; split <;> rfl
@[simp] theorem Edge.answer_trace (e : Edge) : e.answer.2.trace = e.trace := by unfold Edge.answer; split <;> rfl

end Sys2Proof.Machine
end

