-- ==== Sys2Proof/Laws/Run.lean ====
section
/-! SUPPORT. The run of an operation's parts: what `bind` does, how a relation between states is carried along a run, how
an operation ends; and what each access to the engine's edge can do. -/

namespace Sys2Proof.Machine

/-! ## `Run` -/

@[simp] theorem Run.bind_ok {α β : Type} (a : α) (s : State) (k : α → State → Run β) : (Run.ok a s).bind k = k a s := rfl
@[simp] theorem Run.bind_stop {α β : Type} (w : Stop) (s : State) (k : α → State → Run β) :
    (Run.stop w s).bind k = .stop w s := rfl

/-- A bound run that ends well did so in both parts. -/
theorem Run.bind_eq_ok {α β : Type} {r : Run α} {k : α → State → Run β} {b : β} {t : State}
    (h : r.bind k = .ok b t) : ∃ a s, r = .ok a s ∧ k a s = .ok b t := by
  cases r with
  | ok a s => exact ⟨a, s, rfl, h⟩
  | stop w s => cases h

/-- A bound run that stopped did so in its first or in its second part. -/
theorem Run.bind_eq_stop {α β : Type} {r : Run α} {k : α → State → Run β} {w : Stop} {t : State}
    (h : r.bind k = .stop w t) : r = .stop w t ∨ ∃ a s, r = .ok a s ∧ k a s = .stop w t := by
  cases r with
  | ok a s => exact .inr ⟨a, s, rfl, h⟩
  | stop w s => cases h; exact .inl rfl

/-- The state a run has reached, however it ended. -/
def Run.state {α : Type} : Run α → State
  | .ok _ s => s
  | .stop _ s => s

@[simp] theorem Run.state_ok {α : Type} (a : α) (s : State) : (Run.ok a s).state = s := rfl
@[simp] theorem Run.state_stop {α : Type} (w : Stop) (s : State) : (Run.stop w s : Run α).state = s := rfl
@[simp] theorem raise_state {α : Type} (e : ErrKind) (s : State) : (raise e s : Run α).state = s := rfl

/-- A transitive relation that holds along both parts of a run holds along the whole. -/
theorem Run.bind_state {α β : Type} {R : State → State → Prop} (trans : ∀ {a b c}, R a b → R b c → R a c)
    {s : State} {r : Run α} {k : α → State → Run β} (hr : R s r.state)
    (hk : ∀ a u, r = .ok a u → R u (k a u).state) : R s (r.bind k).state := by
  cases r with
  | ok a u => exact trans hr (hk a u rfl)
  | stop w u => exact hr

/-- An access ends with its result or is cut by a reset; its state is the one given. -/
@[simp] theorem afterAccess_state {α : Type} (a : EnvAnswer) (x : α) (s : State) : (afterAccess a x s).state = s := by
  unfold afterAccess; split <;> rfl

theorem afterAccess_eq_ok {α : Type} {a : EnvAnswer} {x y : α} {s t : State} (h : afterAccess a x s = .ok y t) :
    a.reset = false ∧ x = y ∧ s = t := by
  unfold afterAccess at h
  split at h
  · cases h
  · rename_i hr
    cases h
    exact ⟨by simpa using hr, rfl, rfl⟩

theorem afterAccess_eq_stop {α : Type} {a : EnvAnswer} {x : α} {s t : State} {w : Stop}
    (h : afterAccess a x s = .stop w t) : a.reset = true ∧ w = .cutByReset ∧ s = t := by
  unfold afterAccess at h
  split at h
  · cases h; exact ⟨‹_›, rfl, rfl⟩
  · cases h

/-! ## The edge grows -/

/-- Along every access the parameters of the edge that the environment cannot take back only grow: the time, the sent
stream, the history. -/
structure Edge.Grows (e e' : Edge) : Prop where
  now   : e.now ≤ e'.now
  sent  : e.sent <+: e'.sent
  trace : e.trace <+: e'.trace

theorem Edge.Grows.refl (e : Edge) : e.Grows e := ⟨Nat.le_refl _, List.prefix_refl _, List.prefix_refl _⟩

theorem Edge.Grows.trans {a b c : Edge} (h : a.Grows b) (h' : b.Grows c) : a.Grows c :=
  ⟨h.now.trans h'.now, h.sent.trans h'.sent, h.trace.trans h'.trace⟩

/-- What `Now()`, `Delay`, `RxRead`, `RxFlush`, `NvRead` can do: only the edge changes, it grows, the store, the sent
stream and the transport's state stay, and one access is recorded. -/
structure Quiet (x : Access) (s t : State) : Prop where
  only   : t = { s with edge := t.edge }
  nvs    : t.edge.nvs = s.edge.nvs
  sent   : t.edge.sent = s.edge.sent
  tpOpen : t.edge.tpOpen = s.edge.tpOpen
  now    : s.edge.now ≤ t.edge.now
  trace  : t.edge.trace = s.edge.trace ++ [x]

theorem Quiet.grows {x : Access} {s t : State} (h : Quiet x s t) : s.edge.Grows t.edge :=
  ⟨h.now, by rw [h.sent], by rw [h.trace]; exact List.prefix_append _ _⟩

theorem nvRead_quiet (s : State) : Quiet .nvRead s (nvRead s).state := by
  constructor <;> simp [nvRead]

/-- `NvRead` answers what the store holds, or `Fail` (R66). -/
theorem nvRead_eq_ok {s t : State} {r : NvAnswer} (h : nvRead s = .ok r t) :
    r = .fail ∨ r = Store.answer s.edge.nvs := by
  obtain ⟨-, rfl, -⟩ := afterAccess_eq_ok h
  split
  · exact .inr (by simp)
  · exact .inl rfl

theorem rxFlush_quiet (s : State) : Quiet .rxFlush s (rxFlush s).state := by
  constructor <;> simp [rxFlush]

theorem delay_quiet (t : Nat) (s : State) : Quiet .delay s (delay t s).state := by
  constructor <;> simp [delay]

theorem clock_quiet (s : State) : Quiet .now s (clock s).state := by
  constructor <;> simp [clock]

theorem rxRead_quiet (n t : Nat) (s : State) : ∃ got, Quiet (.rxRead n got) s (rxRead n t s).state := by
  refine ⟨(s.edge.answer.2.rx ++ s.edge.answer.1.arrived).take (min n s.edge.answer.1.count), ?_⟩
  constructor <;> simp [rxRead, Edge.pass]

/-- `RxRead` records exactly the bytes it answers, at most `n` (R73). -/
theorem rxRead_eq_ok {n t : Nat} {s u : State} {r : List Byte} (h : rxRead n t s = .ok r u) :
    Quiet (.rxRead n r) s u ∧ r.length ≤ n := by
  obtain ⟨-, rfl, rfl⟩ := afterAccess_eq_ok h
  refine ⟨?_, ?_⟩
  · constructor <;> simp
  · simp only [List.length_take]; omega

/-- What `TxWrite` can do: only the edge changes; bytes of `b` are added to the sent stream, all of them on Ok (R72). -/
structure Sends (b : List Byte) (ok : Bool) (s t : State) : Prop where
  only   : t = { s with edge := t.edge }
  nvs    : t.edge.nvs = s.edge.nvs
  tpOpen : t.edge.tpOpen = s.edge.tpOpen
  now    : s.edge.now ≤ t.edge.now
  sent   : ∃ p, p <+: b ∧ t.edge.sent = s.edge.sent ++ p ∧ (ok = true → p = b)
  trace  : t.edge.trace = s.edge.trace ++ [.txWrite b ok]

theorem Sends.grows {b : List Byte} {ok : Bool} {s t : State} (h : Sends b ok s t) : s.edge.Grows t.edge :=
  ⟨h.now, by obtain ⟨p, -, hp, -⟩ := h.sent; rw [hp]; exact List.prefix_append _ _,
    by rw [h.trace]; exact List.prefix_append _ _⟩

theorem txWrite_sends (b : List Byte) (s : State) : ∃ ok, Sends b ok s (txWrite b s).state := by
  refine ⟨s.edge.answer.1.ok && !s.edge.answer.1.reset, ?_⟩
  constructor
  · simp [txWrite]
  · simp [txWrite]
  · simp [txWrite]
  · simp [txWrite]
  · refine ⟨_, ?_, by simp [txWrite]; rfl, ?_⟩
    · split
      · exact List.prefix_refl _
      · exact List.take_prefix _ _
    · intro h; simp_all
  · simp [txWrite]

theorem txWrite_eq_ok {b : List Byte} {s t : State} {ok : Bool} (h : txWrite b s = .ok ok t) : Sends b ok s t := by
  obtain ⟨hr, rfl, rfl⟩ := afterAccess_eq_ok h
  constructor
  · rfl
  · simp
  · simp
  · simp
  · refine ⟨_, ?_, by simp; rfl, ?_⟩
    · split
      · exact List.prefix_refl _
      · exact List.take_prefix _ _
    · intro h; simp [h, hr]
  · simp [hr]

/-- What `NvWrite` can do: only the edge changes; when the write was completed the store holds the bytes (R67). -/
structure Persists (b : List Byte) (ok : Bool) (s t : State) : Prop where
  only   : t = { s with edge := t.edge }
  sent   : t.edge.sent = s.edge.sent
  tpOpen : t.edge.tpOpen = s.edge.tpOpen
  now    : s.edge.now ≤ t.edge.now
  nvs    : ok = true → t.edge.nvs = .bytes b
  trace  : t.edge.trace = s.edge.trace ++ [.nvWrite b ok]

theorem Persists.grows {b : List Byte} {ok : Bool} {s t : State} (h : Persists b ok s t) : s.edge.Grows t.edge :=
  ⟨h.now, by rw [h.sent], by rw [h.trace]; exact List.prefix_append _ _⟩

theorem nvWrite_eq_ok {b : List Byte} {s t : State} {ok : Bool} (h : nvWrite b s = .ok ok t) : Persists b ok s t := by
  obtain ⟨hr, rfl, rfl⟩ := afterAccess_eq_ok h
  constructor <;> simp +contextual [hr]

theorem nvWrite_eq_stop {b : List Byte} {s t : State} {w : Stop} (h : nvWrite b s = .stop w t) :
    w = .cutByReset ∧ Persists b false s t := by
  obtain ⟨hr, rfl, rfl⟩ := afterAccess_eq_stop h
  refine ⟨rfl, ?_⟩
  constructor <;> simp [hr]

theorem nvWrite_persists (b : List Byte) (s : State) : ∃ ok, Persists b ok s (nvWrite b s).state := by
  cases h : nvWrite b s with
  | ok a t => exact ⟨a, nvWrite_eq_ok h⟩
  | stop w t => exact ⟨false, (nvWrite_eq_stop h).2⟩

/-- What `TpRelease` can do: only the edge changes, and of it neither store nor sent stream (R75). -/
theorem tpRelease_state (s : State) :
    (tpRelease s).state = { s with edge := (tpRelease s).state.edge } ∧
    (tpRelease s).state.edge.nvs = s.edge.nvs ∧ (tpRelease s).state.edge.sent = s.edge.sent ∧
    s.edge.now ≤ (tpRelease s).state.edge.now ∧
    (tpRelease s).state.edge.trace = s.edge.trace ++ [.tpRelease] := by
  simp [tpRelease]

theorem tpRelease_eq_ok {s t : State} (h : tpRelease s = .ok () t) : t.edge.tpOpen = false := by
  obtain ⟨hr, -, rfl⟩ := afterAccess_eq_ok h
  simp [hr]

/-! ## An operation -/

/-- What a host's operation can answer with a next state: nothing changed in a halted engine, or the end of its run. -/
theorem operate_eq_next {k : BitVec 4} {pre : State → Option Refusal} {body : State → Run Unit} {s t : State}
    (h : operate k pre body s = .next t) :
    (s.regs.status.halted = true ∧ t = s) ∨
    (s.ready = true ∧ pre s = none ∧ t = (body (s.begin k)).settle) := by
  unfold operate at h
  split at h
  · cases h; exact .inl ⟨‹_›, rfl⟩
  · split at h
    · cases h
    · split at h
      · cases h
      · cases h
        exact .inr ⟨by simp_all [State.ready], ‹_›, rfl⟩

/-- A host's operation in an engine that is ready, where its precondition holds, runs to its end. -/
theorem operate_run {k : BitVec 4} {pre : State → Option Refusal} {body : State → Run Unit} {s : State}
    (hs : s.ready = true) (hp : pre s = none) : operate k pre body s = .next (body (s.begin k)).settle := by
  simp only [State.ready, Bool.and_eq_true, Bool.not_eq_true'] at hs
  simp [operate, hs.1, hs.2, hp]

/-- A host's operation whose precondition fails is refused. -/
theorem operate_refused {k : BitVec 4} {pre : State → Option Refusal} {body : State → Run Unit} {s : State} {r : Refusal}
    (hs : s.ready = true) (hp : pre s = some r) : operate k pre body s = .refused r := by
  simp only [State.ready, Bool.and_eq_true, Bool.not_eq_true'] at hs
  simp [operate, hs.1, hs.2, hp]

/-- Raising a non-fatal error at once leaves everything else as it was. -/
theorem raised_begin {s : State} (hs : s.ready = true) {k : BitVec 4} {e : ErrKind} (he : e.fatal = false) :
    (s.begin k).raised e = s.refusedWith k e := by
  simp only [State.ready, Bool.and_eq_true, Bool.not_eq_true'] at hs
  simp [State.begin, State.raised, State.refusedWith, Status.failed, he, hs.1]

end Sys2Proof.Machine
end

