-- ==== Sys2Proof/Laws/Frame.lean ====
section
/-! SUPPORT. The Frame Codec's operations on the buffers: what a layout and a stamp make of TXBUF, and of the frame in it. -/

namespace Sys2Proof.Machine

open Codec

/-- Two writes one behind the other are one write. -/
theorem Memory.write_append (m : Memory) (a : Nat) (bs cs : List Byte) :
    m.write a (bs ++ cs) = (m.write a bs).write (a + bs.length) cs := by
  induction bs generalizing m a with
  | nil => simp [Memory.write]
  | cons b bs ih =>
    simp only [List.cons_append, Memory.write, List.length_cons]
    rw [ih, show a + 1 + bs.length = a + (bs.length + 1) by omega]

theorem Memory.writeWord_eq (m : Memory) (a : Nat) (v : Word) :
    m.writeWord a v = m.write a (wordBytes Config.byteOrder v) := rfl

/-- Two fields one behind the other. -/
theorem Memory.writeWord_writeWord (m : Memory) (a : Nat) (v w : Word) :
    (m.writeWord a v).writeWord (a + 4) w = m.write a (wordBytes Config.byteOrder v ++ wordBytes Config.byteOrder w) := by
  rw [Memory.write_append, length_wordBytes]; rfl

/-- A range that was written stays written. -/
theorem Memory.written_write {m : Memory} {a n : Nat} (h : m.written a n = true) (w : Nat) (bs : List Byte) :
    (m.write w bs).written a n = true := by
  rw [Memory.written_iff] at h ⊢
  intro x h1 h2
  exact Memory.isSome_get?_write.mpr (.inr (h x h1 h2))

/-- A range that lies inside what was just written is written. -/
theorem Memory.written_write_self (m : Memory) {a n w : Nat} {bs : List Byte} (h : w ≤ a) (h' : a + n ≤ w + bs.length) :
    (m.write w bs).written a n = true := by
  rw [Memory.written_iff]
  intro x h1 h2
  exact Memory.isSome_get?_write.mpr (.inl ⟨by omega, by omega⟩)

/-- Two adjoining written ranges. -/
theorem Memory.written_add {m : Memory} {a n k : Nat} (h : m.written a n = true) (h' : m.written (a + n) k = true) :
    m.written a (n + k) = true := by
  rw [Memory.written_iff] at *
  intro x h1 h2
  by_cases hx : x < a + n
  · exact h x h1 hx
  · exact h' x (by omega) (by omega)

/-- The part of a range that begins at another place. -/
theorem Memory.drop_read (m : Memory) (a n k : Nat) : (m.read a n).drop k = m.read (a + k) (n - k) := by
  by_cases h : k ≤ n
  · conv_lhs => rw [show n = k + (n - k) by omega, Memory.read_add]
    rw [List.drop_append_of_le_length (by simp)]
    simp
  · rw [List.drop_eq_nil_of_le (by simp; omega), show n - k = 0 by omega]; rfl

theorem Memory.take_read (m : Memory) (a n k : Nat) (h : k ≤ n) : (m.read a n).take k = m.read a k := by
  conv_lhs => rw [show n = k + (n - k) by omega, Memory.read_add]
  rw [List.take_append_of_le_length (by simp)]
  simp

/-! ## Layout -/

/-- `FRM.LAYOUT` writes the header with zero number and checksum (R151). -/
theorem frmLayout_fits {cmd : Word} {n : Nat} {s : State} (h : n ≤ s.cfg.txPayloadMax) :
    frmLayout cmd n s = .ok () { s with
      txbuf := s.txbuf.write 0 (headerBytes Config.byteOrder cmd (BitVec.ofNat 32 n) 0#32 0#32)
      regs := { s.regs with txlen := BitVec.ofNat 32 n } } := by
  have e : ((((s.txbuf.writeWord 0 cmd).writeWord 4 (BitVec.ofNat 32 n)).writeWord 8 0#32).writeWord 12 0#32) =
      s.txbuf.write 0 (headerBytes Config.byteOrder cmd (BitVec.ofNat 32 n) 0#32 0#32) := by
    simp only [headerBytes, Memory.write_append, List.length_append, length_wordBytes]
    rfl
  simp only [frmLayout, if_neg (Nat.not_lt.mpr h), lengthAt_eq, sequenceAt_eq, checksumAt_eq, e]

theorem frmLayout_full {cmd : Word} {n : Nat} {s : State} (h : s.cfg.txPayloadMax < n) :
    frmLayout cmd n s = raise .allocationFailure s := if_pos h

/-- The seven fields of the argument block, one behind the other, are one write of the block (R96, R217). -/
theorem writeWord_argumentBlock (m : Memory) (speed k0 k1 k2 k3 wcount rcount : Word) :
    ((((((m.writeWord 16 speed).writeWord 20 k0).writeWord 24 k1).writeWord 28 k2).writeWord 32 k3).writeWord 36
      wcount).writeWord 40 rcount =
    m.write 16 (argumentBlock Config.byteOrder speed k0 k1 k2 k3 wcount rcount) := by
  simp only [argumentBlock, Memory.write_append, List.length_append, length_wordBytes]
  rfl

/-- `CMB.SPI` where the write bytes fit: the argument block behind the header, and the header (R96, R98, R217). -/
theorem cmbSpi_of_le {wcount rcount : Word} {s : State} (h : wcount.toNat ≤ s.maxWriteBytes) :
    cmbSpi wcount rcount s = .ok () { s with
      txbuf := (s.txbuf.write 16 (argumentBlock Config.byteOrder s.regs.speed s.cfg.spiK0 s.cfg.spiK1 s.cfg.spiK2
          s.cfg.spiK3 wcount rcount)).write 0
        (headerBytes Config.byteOrder Config.cmdSpi (BitVec.ofNat 32 (28 + wcount.toNat)) 0#32 0#32)
      regs := { s.regs with txlen := BitVec.ofNat 32 (28 + wcount.toNat) } } := by
  have hle : 28 + wcount.toNat ≤ s.cfg.txPayloadMax := by
    have := s.cfg.le_txPayloadMax
    have hw : wcount.toNat ≤ s.cfg.txPayloadMax - 28 := h
    omega
  rw [cmbSpi, if_neg (Nat.not_lt.mpr h)]
  simp only [Config.headerSize_eq, Config.spiArgBytes_eq, argumentAt_eq, Nat.reduceMul, Nat.reduceAdd,
    writeWord_argumentBlock]
  rw [frmLayout_fits (by exact hle)]

theorem cmbSpi_full {wcount rcount : Word} {s : State} (h : s.maxWriteBytes < wcount.toNat) :
    cmbSpi wcount rcount s = raise .allocationFailure s := if_pos h

/-! ## Stamp -/

/-- A field reads back. -/
theorem Memory.read_writeWord_self (m : Memory) (a : Nat) (v : Word) :
    (m.writeWord a v).read a 4 = wordBytes Config.byteOrder v := by
  have := Memory.read_write_self m a (wordBytes Config.byteOrder v)
  rwa [length_wordBytes] at this

theorem Memory.read_writeWord_outside {m : Memory} {a n w : Nat} {v : Word} (h : a + n ≤ w ∨ w + 4 ≤ a) :
    (m.writeWord w v).read a n = m.read a n :=
  Memory.read_write_outside (by rwa [length_wordBytes])

theorem Memory.get?_writeWord_outside {m : Memory} {x w : Nat} {v : Word} (h : x < w ∨ w + 4 ≤ x) :
    (m.writeWord w v).get? x = m.get? x :=
  Memory.get?_write_outside (by rwa [length_wordBytes])

/-- What a stamp takes its checksum over. -/
def stampInput (m : Memory) (n : Nat) (seq : Word) : List Byte :=
  ((m.writeWord 8 seq).writeWord 12 0#32).read 0 (16 + n)

/-- TXBUF after a stamp (R152). -/
def stamped (m : Memory) (n : Nat) (seq : Word) : Memory :=
  ((m.writeWord 8 seq).writeWord 12 0#32).writeWord 12 (crc32 (stampInput m n seq))

/-- A frame with its number and a zero checksum. -/
theorem stampInput_eq (m : Memory) (n : Nat) (seq : Word) :
    stampInput m n seq = m.read 0 8 ++ wordBytes Config.byteOrder seq ++ [0#8, 0#8, 0#8, 0#8] ++ m.read 16 n := by
  rw [stampInput, show 16 + n = 8 + (4 + (4 + n)) by omega, Memory.read_add, Memory.read_add, Memory.read_add]
  rw [Memory.read_writeWord_outside (by omega), Memory.read_writeWord_outside (by omega),
    Memory.read_writeWord_outside (a := 0 + 8) (by omega)]
  rw [Memory.read_writeWord_outside (a := 0 + 8 + 4 + 4) (by omega),
    Memory.read_writeWord_outside (a := 0 + 8 + 4 + 4) (by omega)]
  simp only [Nat.zero_add, Nat.reduceAdd, Memory.read_writeWord_self, List.append_assoc]
  rw [show wordBytes Config.byteOrder 0#32 = [0#8, 0#8, 0#8, 0#8] by decide]

/-- Only bytes 8 to 15 are written (R152). -/
theorem get?_stamped_outside {m : Memory} {n x : Nat} {seq : Word} (h : x < 8 ∨ 16 ≤ x) :
    (stamped m n seq).get? x = m.get? x := by
  rw [stamped, Memory.get?_writeWord_outside (by omega), Memory.get?_writeWord_outside (by omega),
    Memory.get?_writeWord_outside (by omega)]

theorem written_stamped_field (m : Memory) (n : Nat) (seq : Word) : (stamped m n seq).written 8 8 = true := by
  refine Memory.written_add (n := 4) (k := 4) ?_ ?_
  · exact Memory.written_write (Memory.written_write (Memory.written_write_self m (by omega) (by simp)) _ _) _ _
  · exact Memory.written_write_self _ (by omega) (by simp)

theorem wf_stamped {m : Memory} (h : m.wf = true) (n : Nat) (seq : Word) : (stamped m n seq).wf = true :=
  Memory.wf_write (Memory.wf_write (Memory.wf_write h _ _) _ _) _ _

theorem below_stamped {m : Memory} {size : Nat} (h : m.below size = true) (hs : 16 ≤ size) (n : Nat) (seq : Word) :
    (stamped m n seq).below size = true :=
  Memory.below_write (Memory.below_write (Memory.below_write h (by simp; omega)) (by simp; omega)) (by simp; omega)

/-- The frame after a stamp is the stamped frame (R152, R154). -/
theorem read_stamped (m : Memory) (n : Nat) (seq : Word) :
    (stamped m n seq).read 0 (16 + n) = stampFrame Config.byteOrder seq (m.read 0 (16 + n)) := by
  have e : stampFrame Config.byteOrder seq (m.read 0 (16 + n)) = m.read 0 8 ++ (wordBytes Config.byteOrder seq ++
      (wordBytes Config.byteOrder (crc32 (stampInput m n seq)) ++ m.read 16 n)) := by
    rw [stampInput_eq, stampFrame, sequenceAt_eq, Config.headerSize_eq, Memory.take_read _ _ _ _ (by omega),
      Memory.drop_read]
    simp [List.append_assoc]
  rw [e, show 16 + n = 8 + (4 + (4 + n)) by omega, Memory.read_add, Memory.read_add, Memory.read_add, stamped]
  rw [Memory.read_writeWord_outside (a := 0) (by omega), Memory.read_writeWord_outside (a := 0) (by omega),
    Memory.read_writeWord_outside (a := 0) (by omega)]
  rw [Memory.read_writeWord_outside (a := 0 + 8) (by omega), Memory.read_writeWord_outside (a := 0 + 8) (by omega)]
  rw [Memory.read_writeWord_outside (a := 0 + 8 + 4 + 4) (by omega),
    Memory.read_writeWord_outside (a := 0 + 8 + 4 + 4) (by omega),
    Memory.read_writeWord_outside (a := 0 + 8 + 4 + 4) (by omega)]
  simp only [Nat.zero_add, Nat.reduceAdd, Memory.read_writeWord_self]

/-- The checksum field after a stamp. -/
theorem read_stamped_sum (m : Memory) (n : Nat) (seq : Word) :
    (stamped m n seq).read 12 4 = wordBytes Config.byteOrder (crc32 (stampInput m n seq)) :=
  Memory.read_writeWord_self _ _ _

/-- `FRM.STAMP` (R152). -/
theorem frmStamp_eq (seq : Word) (s : State) : frmStamp seq s = .ok () { s with
    txbuf := stamped s.txbuf s.regs.txlen.toNat seq
    regs := { s.regs with
      res := crc32 (stampInput s.txbuf s.regs.txlen.toNat seq)
      crcAcc := crcRemainder (stampInput s.txbuf s.regs.txlen.toNat seq) } } := rfl

/-- The number in a stamped frame is the number it was stamped with. -/
theorem bytesWord_stampFrame {seq : Word} {f : List Byte} (h : 8 ≤ f.length) :
    bytesWord Config.byteOrder ((stampFrame Config.byteOrder seq f).drop 8) = seq := by
  rw [stampFrame, sequenceAt_eq, List.append_assoc, List.append_assoc,
    List.drop_append_of_le_length (by simp; omega), List.drop_take]
  simp [bytesWord_wordBytes_append]

/-- The remainder is the complement of the checksum (R24, R123). -/
theorem crcRemainder_eq (bs : List Byte) : crcRemainder bs = crc32 bs ^^^ 0xFFFFFFFF#32 := by
  rw [crc32, Config.crcXorOut, BitVec.xor_assoc, BitVec.xor_self, BitVec.xor_zero]

end Sys2Proof.Machine
end

