-- ==== Sys2Proof/Laws/Moves.lean ====
section
/-! SUPPORT. What every part of every operation leaves alone, and what only grows: proved once of each body, so that a claim
about all operations needs no case of its own. -/

namespace Sys2Proof.Machine

/-- What no part of an operation changes, and what only grows at the edge (R22, R31, R36, R72, R258). -/
structure Moves (s t : State) : Prop where
  cfg      : t.cfg = s.cfg
  pending  : t.pending = s.pending
  hostData : t.hostData = s.hostData
  op       : t.regs.op = s.regs.op
  arg0     : t.regs.arg0 = s.regs.arg0
  arg1     : t.regs.arg1 = s.regs.arg1
  arg2     : t.regs.arg2 = s.regs.arg2
  speed    : t.regs.speed = s.regs.speed
  err      : t.regs.err = s.regs.err
  busy     : t.regs.status.busy = s.regs.status.busy
  done     : t.regs.status.done = s.regs.status.done
  errf     : t.regs.status.errf = s.regs.status.errf
  halted   : t.regs.status.halted = s.regs.status.halted
  grows    : s.edge.Grows t.edge

theorem Moves.refl (s : State) : Moves s s := by
  constructor <;> first | rfl | exact Edge.Grows.refl _

theorem Moves.trans {a b c : State} (h : Moves a b) (h' : Moves b c) : Moves a c := by
  constructor
  case grows => exact h.grows.trans h'.grows
  all_goals first
    | exact h'.cfg.trans h.cfg | exact h'.pending.trans h.pending | exact h'.hostData.trans h.hostData
    | exact h'.op.trans h.op | exact h'.arg0.trans h.arg0 | exact h'.arg1.trans h.arg1 | exact h'.arg2.trans h.arg2
    | exact h'.speed.trans h.speed | exact h'.err.trans h.err | exact h'.busy.trans h.busy
    | exact h'.done.trans h.done | exact h'.errf.trans h.errf | exact h'.halted.trans h.halted

/-- A change of the edge alone, in which it grows. -/
theorem Moves.ofEdge {s t : State} (h : t = { s with edge := t.edge }) (g : s.edge.Grows t.edge) : Moves s t := by
  constructor
  case grows => exact g
  all_goals rw [h]

/-- A bound run moves when both parts do. -/
theorem Moves.bind {α β : Type} {s : State} {r : Run α} {k : α → State → Run β} (hr : Moves s r.state)
    (hk : ∀ a u, Moves u (k a u).state) : Moves s (r.bind k).state :=
  Run.bind_state (R := Moves) Moves.trans hr fun a u _ => hk a u

/-! ## The primitives -/

theorem nvRead_moves (s : State) : Moves s (nvRead s).state := .ofEdge (nvRead_quiet s).only (nvRead_quiet s).grows
theorem rxFlush_moves (s : State) : Moves s (rxFlush s).state := .ofEdge (rxFlush_quiet s).only (rxFlush_quiet s).grows
theorem delay_moves (n : Nat) (s : State) : Moves s (delay n s).state := .ofEdge (delay_quiet n s).only (delay_quiet n s).grows
theorem clock_moves (s : State) : Moves s (clock s).state := .ofEdge (clock_quiet s).only (clock_quiet s).grows
theorem rxRead_moves (n t : Nat) (s : State) : Moves s (rxRead n t s).state :=
  have ⟨_, h⟩ := rxRead_quiet n t s
  .ofEdge h.only h.grows
theorem txWrite_moves (b : List Byte) (s : State) : Moves s (txWrite b s).state :=
  have ⟨_, h⟩ := txWrite_sends b s
  .ofEdge h.only h.grows
theorem nvWrite_moves (b : List Byte) (s : State) : Moves s (nvWrite b s).state :=
  have ⟨_, h⟩ := nvWrite_persists b s
  .ofEdge h.only h.grows
theorem tpRelease_moves (s : State) : Moves s (tpRelease s).state := by
  obtain ⟨h, -, hs, hn, ht⟩ := tpRelease_state s
  exact .ofEdge h ⟨hn, by rw [hs], by rw [ht]; exact List.prefix_append _ _⟩

/-! ## The parts of the operations -/

theorem frmLayout_moves (cmd : Word) (n : Nat) (s : State) : Moves s (frmLayout cmd n s).state := by
  unfold frmLayout
  split
  · exact .refl s
  · constructor <;> first | rfl | exact Edge.Grows.refl _

theorem frmStamp_moves (seq : Word) (s : State) : Moves s (frmStamp seq s).state := by
  constructor <;> first | rfl | exact Edge.Grows.refl _

theorem frmDechdr_moves (s : State) : Moves s (frmDechdr s).state := by
  constructor <;> first | rfl | exact Edge.Grows.refl _

theorem frmVerify_moves (len : Nat) (s : State) : Moves s (frmVerify len s).state := by
  unfold frmVerify
  split
  · exact .refl s
  · dsimp only
    split <;> (constructor <;> first | rfl | exact Edge.Grows.refl _)

theorem seqFresh_moves (s : State) : Moves s (seqFresh s).state := by
  have h : Moves s (s.withSeq Config.seqInit) := by constructor <;> first | rfl | exact Edge.Grows.refl _
  refine .bind (h.trans (nvWrite_moves _ _)) fun ok u => ?_
  split
  · constructor <;> first | rfl | exact Edge.Grows.refl _
  · exact .refl u

theorem seqLoadBody_moves (s : State) : Moves s (seqLoadBody s).state := by
  refine .bind (nvRead_moves s) fun r u => ?_
  split
  · exact .refl u
  · exact seqFresh_moves u
  · split
    · exact seqFresh_moves u
    · constructor <;> first | rfl | exact Edge.Grows.refl _

theorem seqNext_moves (s : State) : Moves s (seqNext s).state := by
  unfold seqNext
  split
  · exact .refl s
  · have h : Moves s (s.withSeq (s.regs.seq + 1#32)) := by constructor <;> first | rfl | exact Edge.Grows.refl _
    refine .bind (h.trans (nvWrite_moves _ _)) fun ok u => ?_
    split
    · constructor <;> first | rfl | exact Edge.Grows.refl _
    · exact .refl u

theorem synLoop_moves (bound t0 heads : Nat) (s : State) : Moves s (synLoop bound t0 heads s).state := by
  induction heads generalizing s with
  | zero =>
    constructor
    case grows => exact ⟨Nat.le_add_right _ _, List.prefix_refl _, List.prefix_refl _⟩
    all_goals rfl
  | succ heads ih =>
    refine .bind (clock_moves s) fun t u => ?_
    split
    · constructor <;> first | rfl | exact Edge.Grows.refl _
    · refine .bind (rxRead_moves _ _ u) fun r v => ?_
      cases r with
      | nil => exact ih v
      | cons b _ =>
        have h : Moves v (v.toSyn (synNext v.regs.syn b).1) := by constructor <;> first | rfl | exact Edge.Grows.refl _
        dsimp only
        split
        · constructor <;> first | rfl | exact Edge.Grows.refl _
        · exact h.trans (ih _)

theorem synAwait_moves (bound : Nat) (s : State) : Moves s (synAwait bound s).state := by
  refine .bind (clock_moves s) fun t u => ?_
  have h : Moves u (u.toSyn .search) := by constructor <;> first | rfl | exact Edge.Grows.refl _
  exact h.trans (synLoop_moves _ _ _ _)

theorem toTre_moves (s : State) (t : TreState) : Moves s (s.toTre t) := by
  constructor <;> first | rfl | exact Edge.Grows.refl _

theorem treBuild_moves (s : State) : Moves s (treBuild s).state := by
  have h := (toTre_moves s .build).trans (seqNext_moves (s.toTre .build))
  unfold treBuild
  revert h
  cases seqNext (s.toTre .build) with
  | ok v u =>
    intro h
    refine h.trans ?_
    have h' : Moves u { u with regs := { u.regs with curseq := v } } := by
      constructor <;> first | rfl | exact Edge.Grows.refl _
    exact .bind (h'.trans (frmStamp_moves v _)) fun _ w => .refl w
  | stop w u =>
    intro h
    cases w with
    | raised e => exact h.trans (by constructor <;> first | rfl | exact Edge.Grows.refl _)
    | cutByReset => exact h

theorem treSend_moves (s : State) : Moves s (treSend s).state := by
  refine .bind ((toTre_moves s _).trans (txWrite_moves _ _)) fun ok u => ?_
  split
  · exact .refl u
  · exact .bind (txWrite_moves _ _) fun _ v => .refl v

theorem treResync_moves (s : State) : Moves s (treResync s).state :=
  .bind ((toTre_moves s _).trans (synAwait_moves _ _)) fun _ u => .refl u

theorem treReadHeader_moves (exp : Word) (s : State) : Moves s (treReadHeader exp s).state := by
  refine .bind ((toTre_moves s _).trans (rxRead_moves _ _ _)) fun h u => ?_
  split
  · exact .refl u
  · have h' : Moves u { u with rxbuf := u.rxbuf.write 0 h } := by constructor <;> first | rfl | exact Edge.Grows.refl _
    exact .bind (h'.trans (frmDechdr_moves _)) fun _ v => .refl v

theorem treReadPayload_moves (exp : Word) (s : State) : Moves s (treReadPayload exp s).state := by
  unfold treReadPayload
  split
  · exact .refl s
  · refine .bind ((toTre_moves s _).trans (rxRead_moves _ _ _)) fun p u => ?_
    split
    · exact .refl u
    · constructor <;> first | rfl | exact Edge.Grows.refl _

theorem treValidate_moves (exp : Word) (s : State) : Moves s (treValidate exp s).state := by
  unfold treValidate
  dsimp only
  split
  · exact toTre_moves s _
  · exact .bind ((toTre_moves s _).trans (frmVerify_moves _ _)) fun _ u => .refl u

theorem andThen_moves {s : State} {r : Run (Option AttemptFailure)} {k : State → Run (Option AttemptFailure)}
    (hr : Moves s r.state) (hk : ∀ u, Moves u (k u).state) : Moves s (andThen r k).state := by
  refine .bind hr fun f u => ?_
  cases f with
  | some f => exact .refl u
  | none => exact hk u

theorem treAttempt_moves (exp : Word) (s : State) : Moves s (treAttempt exp s).state := by
  have h : Moves s { s with regs := { s.regs with attempt := s.regs.attempt + 1#32 } } := by
    constructor <;> first | rfl | exact Edge.Grows.refl _
  exact andThen_moves (andThen_moves (andThen_moves (andThen_moves (andThen_moves (h.trans (treBuild_moves _))
    treSend_moves) treResync_moves) (treReadHeader_moves exp)) (treReadPayload_moves exp)) (treValidate_moves exp)

theorem retryEdge_moves (f : AttemptFailure) (again : Bool) (s : State) : Moves s (retryEdge f again s).state := by
  have h : Moves s { s.toTre .retry with failures := s.failures ++ [f] } := by
    constructor <;> first | rfl | exact Edge.Grows.refl _
  refine .bind (h.trans (rxFlush_moves _)) fun _ u => ?_
  split
  · exact delay_moves _ _
  · exact .refl u

theorem treAttempts_moves (exp : Word) (left : Nat) (s : State) : Moves s (treAttempts exp left s).state := by
  induction left generalizing s with
  | zero => constructor <;> first | rfl | exact Edge.Grows.refl _
  | succ left ih =>
    refine .bind (treAttempt_moves exp s) fun r u => ?_
    cases r with
    | none => constructor <;> first | rfl | exact Edge.Grows.refl _
    | some f => exact .bind (retryEdge_moves f _ u) fun _ v => ih v

theorem treXchg_moves (exp max : Word) (s : State) : Moves s (treXchg exp max s).state := by
  unfold treXchg
  split
  · exact .refl s
  · split
    · exact .refl s
    · refine Moves.trans ?_ (treAttempts_moves exp max.toNat _)
      constructor <;> first | rfl | exact Edge.Grows.refl _

theorem cmbSpi_moves (w r : Word) (s : State) : Moves s (cmbSpi w r s).state := by
  unfold cmbSpi
  split
  · exact .refl s
  · refine Moves.trans ?_ (frmLayout_moves _ _ _)
    constructor <;> first | rfl | exact Edge.Grows.refl _

/-! ## The bodies -/

theorem crc32Body_moves (s : State) : Moves s (crc32Body s).state := by
  unfold crc32Body
  split
  · exact .refl s
  · constructor <;> first | rfl | exact Edge.Grows.refl _

theorem seqNextBody_moves (s : State) : Moves s (seqNextBody s).state := .bind (seqNext_moves s) fun _ u => .refl u
theorem frmEncode_moves (cmd : Word) (n : Nat) (seq : Word) (s : State) : Moves s (frmEncode cmd n seq s).state :=
  .bind (frmLayout_moves _ _ _) fun _ u => frmStamp_moves _ u
theorem frmVerifyBody_moves (s : State) : Moves s (frmVerifyBody s).state :=
  .bind (frmVerify_moves _ s) fun _ u => .refl u
theorem synAwaitBody_moves (s : State) : Moves s (synAwaitBody s).state :=
  .bind (synAwait_moves _ s) fun _ u => .refl u

theorem withLink_moves (s : State) (v : Bool) : Moves s (s.withLink v) := by
  constructor <;> first | rfl | exact Edge.Grows.refl _

theorem startBody_moves (s : State) : Moves s (startBody s).state :=
  .bind ((withLink_moves s false).trans (seqLoadBody_moves _)) fun _ u =>
    .bind (frmLayout_moves _ _ u) fun _ v => .bind (treXchg_moves _ _ v) fun _ w => withLink_moves w true

theorem spiBody_moves (s : State) : Moves s (spiBody s).state := by
  unfold spiBody
  split
  · exact .refl s
  · split
    · exact .refl s
    · exact .bind (cmbSpi_moves _ _ s) fun _ u => treXchg_moves _ _ u

theorem shutdownBody_moves (s : State) : Moves s (shutdownBody s).state :=
  .bind (tpRelease_moves s) fun _ u => withLink_moves u false

/-- Every operation is `operate` of a body that moves. -/
theorem exec_op {i : Instr} (hi : portOf i = .op) : ∃ (k : BitVec 4) (pre : State → Option Refusal) (body : State → Run Unit),
    (∀ s, exec i s = operate k pre body s) ∧ ∀ u, Moves u (body u).state := by
  cases i with
  | crc32 => exact ⟨_, _, crc32Body, fun _ => rfl, crc32Body_moves⟩
  | seqLoad => exact ⟨_, noPrecondition, seqLoadBody, fun _ => rfl, seqLoadBody_moves⟩
  | seqNext => exact ⟨_, noPrecondition, seqNextBody, fun _ => rfl, seqNextBody_moves⟩
  | frmLayout => exact ⟨_, noPrecondition, frmLayoutBody, fun _ => rfl, fun _ => frmLayout_moves _ _ _⟩
  | frmStamp => exact ⟨_, _, frmStampBody, fun _ => rfl, fun _ => frmStamp_moves _ _⟩
  | frmEncode => exact ⟨_, _, frmEncodeBody, fun _ => rfl, fun _ => frmEncode_moves _ _ _ _⟩
  | frmDechdr => exact ⟨_, _, frmDechdr, fun _ => rfl, frmDechdr_moves⟩
  | frmVerify => exact ⟨_, _, frmVerifyBody, fun _ => rfl, frmVerifyBody_moves⟩
  | synAwait => exact ⟨_, _, synAwaitBody, fun _ => rfl, synAwaitBody_moves⟩
  | treXchg => exact ⟨_, _, treXchgBody, fun _ => rfl, fun _ => treXchg_moves _ _ _⟩
  | cmbProbe => exact ⟨_, noPrecondition, cmbProbe, fun _ => rfl, fun _ => frmLayout_moves _ _ _⟩
  | cmbSpi => exact ⟨_, noPrecondition, cmbSpiBody, fun _ => rfl, fun _ => cmbSpi_moves _ _ _⟩
  | hostInitialize => exact ⟨_, _, startBody, fun _ => rfl, startBody_moves⟩
  | hostExecuteSpi => exact ⟨_, _, spiBody, fun _ => rfl, spiBody_moves⟩
  | hostShutdown => exact ⟨_, noPrecondition, shutdownBody, fun _ => rfl, shutdownBody_moves⟩
  | reservedF => exact ⟨_, noPrecondition, reservedBody, fun _ => rfl, Moves.refl⟩
  | wireMarker | wireFrame _ _ _ _ | wireProbeRequest _ _ | wireSpiRequest _ _ _ _ _ _ _ _ _ | wireReply _ _ _ _ =>
    cases hi

/-- What `exec` of an operation can answer with a next state: the halted engine's own state, or the end of a body that
moved. -/
theorem exec_op_eq_next {i : Instr} (hi : portOf i = .op) {s t : State} (h : exec i s = .next t) :
    (s.regs.status.halted = true ∧ t = s) ∨
    (s.ready = true ∧ ∃ (k : BitVec 4) (r : Run Unit), t = r.settle ∧ Moves (s.begin k) r.state) := by
  obtain ⟨k, pre, body, he, hb⟩ := exec_op hi
  rw [he] at h
  obtain h | ⟨hr, -, ht⟩ := operate_eq_next h
  · exact .inl h
  · exact .inr ⟨hr, k, _, ht, hb _⟩

/-- The meaning of a wire row is the arrival of its encoding. -/
theorem exec_wire {i : Instr} (hi : portOf i ≠ .op) (s : State) : exec i s = .next (deliver (encode i) s) := by
  cases i <;> first | exact absurd rfl hi | rfl

end Sys2Proof.Machine
end

