-- ==== Sys2Proof/Laws/Exchange.lean ====
section
/-! SUPPORT. What the parts of an exchange can do, each said once: the search, the build of a request, everything between
the build and the end of an attempt, and an attempt as a whole (R186 to R205). -/

namespace Sys2Proof.Machine

open Codec

/-! ## Accesses that only read -/

/-- An access that neither writes the store nor sends. -/
def Access.listens (x : Access) : Bool :=
  match x with
  | .nvWrite _ _ | .txWrite _ _ | .tpRelease => false
  | .nvRead | .rxRead _ _ | .rxFlush | .now | .delay => true

/-- What accesses that only read do to the edge. -/
structure Edge.Reads (e e' : Edge) : Prop where
  nvs    : e'.nvs = e.nvs
  sent   : e'.sent = e.sent
  tpOpen : e'.tpOpen = e.tpOpen
  now    : e.now ≤ e'.now
  trace  : ∃ xs, e'.trace = e.trace ++ xs ∧ ∀ x ∈ xs, x.listens = true

theorem Edge.Reads.refl (e : Edge) : e.Reads e := ⟨rfl, rfl, rfl, Nat.le_refl _, [], by simp, by simp⟩

theorem Edge.Reads.trans {a b c : Edge} (h : a.Reads b) (h' : b.Reads c) : a.Reads c := by
  obtain ⟨xs, hx, hx'⟩ := h.trace
  obtain ⟨ys, hy, hy'⟩ := h'.trace
  refine ⟨h'.nvs.trans h.nvs, h'.sent.trans h.sent, h'.tpOpen.trans h.tpOpen, h.now.trans h'.now, xs ++ ys, ?_, ?_⟩
  · rw [hy, hx, List.append_assoc]
  · intro x hxs
    rcases List.mem_append.mp hxs with hm | hm
    · exact hx' x hm
    · exact hy' x hm

theorem Quiet.reads {x : Access} {s t : State} (h : Quiet x s t) (hx : x.listens = true) : s.edge.Reads t.edge :=
  ⟨h.nvs, h.sent, h.tpOpen, h.now, [x], h.trace, by simpa using hx⟩

/-- Two changes of the edge alone are one. -/
theorem edge_only_trans {a b c : State} (h : b = { a with edge := b.edge }) (h' : c = { b with edge := c.edge }) :
    c = { a with edge := c.edge } := by
  conv_lhs => rw [h', h]

/-! ## The search -/

/-- What a search changes: SYN_STATE, RES and the edge, which it only reads (R173). -/
structure Searched (s t : State) : Prop where
  only  : t = { s with regs := { s.regs with syn := t.regs.syn, res := t.regs.res }, edge := t.edge }
  reads : s.edge.Reads t.edge

theorem Searched.trans {a b c : State} (h : Searched a b) (h' : Searched b c) : Searched a c := by
  refine ⟨?_, h.reads.trans h'.reads⟩
  conv_lhs => rw [h'.only, h.only]

theorem Searched.ofQuiet {x : Access} {s t : State} (h : Quiet x s t) (hx : x.listens = true) : Searched s t := by
  refine ⟨?_, h.reads hx⟩
  conv_lhs => rw [h.only]
  rw [h.only]

theorem Searched.ofRegs (s : State) (syn : SynState) (res : Word) :
    Searched s { s with regs := { s.regs with syn := syn, res := res } } := ⟨rfl, .refl _⟩

theorem clock_searched (s : State) : Searched s (clock s).state := .ofQuiet (clock_quiet s) rfl
theorem rxRead_searched (n t : Nat) (s : State) : Searched s (rxRead n t s).state :=
  have ⟨_, h⟩ := rxRead_quiet n t s
  .ofQuiet h rfl

theorem Searched.bind {α β : Type} {s : State} {r : Run α} {k : α → State → Run β} (hr : Searched s r.state)
    (hk : ∀ a u, Searched u (k a u).state) : Searched s (r.bind k).state :=
  Run.bind_state (R := Searched) Searched.trans hr fun a u _ => hk a u

theorem synLoop_searched (bound t0 heads : Nat) (s : State) : Searched s (synLoop bound t0 heads s).state := by
  induction heads generalizing s with
  | zero => exact ⟨rfl, rfl, rfl, rfl, Nat.le_add_right _ _, [], by simp [synLoop], by simp⟩
  | succ heads ih =>
    refine .bind (clock_searched s) fun t u => ?_
    split
    · exact .ofRegs u u.regs.syn 0#32
    · refine .bind (rxRead_searched _ _ u) fun r v => ?_
      cases r with
      | nil => exact ih v
      | cons b _ =>
        dsimp only
        split
        · exact .ofRegs v (synNext v.regs.syn b).1 1#32
        · exact (Searched.ofRegs v (synNext v.regs.syn b).1 v.regs.res).trans (ih _)

/-- `SYN.AWAIT`, however it ends (R173). -/
theorem synAwait_searched (bound : Nat) (s : State) : Searched s (synAwait bound s).state :=
  .bind (clock_searched s) fun _ u => (Searched.ofRegs u .search u.regs.res).trans (synLoop_searched _ _ _ _)

/-- A search raises nothing. -/
theorem synLoop_not_raised (bound t0 heads : Nat) (s : State) (e : ErrKind) (t : State) :
    synLoop bound t0 heads s ≠ .stop (.raised e) t := by
  induction heads generalizing s with
  | zero => simp [synLoop]
  | succ heads ih =>
    intro h
    rw [synLoop] at h
    rcases Run.bind_eq_stop h with h | ⟨p, u, -, h⟩
    · cases (afterAccess_eq_stop h).2.1
    · split at h
      · cases h
      · rcases Run.bind_eq_stop h with h | ⟨r, v, -, h⟩
        · cases (afterAccess_eq_stop h).2.1
        · cases r with
          | nil => exact ih v h
          | cons b _ =>
            dsimp only at h
            split at h
            · cases h
            · exact ih _ h

theorem synAwait_not_raised (bound : Nat) (s : State) (e : ErrKind) (t : State) :
    synAwait bound s ≠ .stop (.raised e) t := by
  intro h
  rcases Run.bind_eq_stop h with h | ⟨p, u, -, h⟩
  · cases (afterAccess_eq_stop h).2.1
  · exact synLoop_not_raised _ _ _ _ _ _ h

/-! ## From the build to the end of an attempt -/

/-- The accesses of an attempt after its build: it only reads, and sends the marker and the frame in TXBUF (R191). -/
def sendsFrame (f : List Byte) (x : Access) : Prop :=
  x.listens = true ∨ ∃ b ok, x = .txWrite b ok ∧ (b = Config.marker ∨ b = f)

/-- What the steps after Build change, and what they leave alone (R191 to R201). -/
structure Tried (exp : Word) (s t : State) : Prop where
  only    : t = { s with
    regs := { s.regs with
      res := t.regs.res, crcAcc := t.regs.crcAcc, rcmd := t.regs.rcmd, rplen := t.regs.rplen, rseq := t.regs.rseq
      rcsum := t.regs.rcsum, tre := t.regs.tre, syn := t.regs.syn }
    rxbuf := t.rxbuf, edge := t.edge }
  nvs     : t.edge.nvs = s.edge.nvs
  tpOpen  : t.edge.tpOpen = s.edge.tpOpen
  wf      : s.rxbuf.wf = true → t.rxbuf.wf = true
  below   : exp.toNat ≤ s.cfg.rxPayloadMax → s.rxbuf.below s.cfg.rxCapacity = true →
    t.rxbuf.below s.cfg.rxCapacity = true
  outside : ∀ a, 16 + exp.toNat ≤ a → t.rxbuf.get? a = s.rxbuf.get? a
  trace   : ∃ xs, t.edge.trace = s.edge.trace ++ xs ∧ ∀ x ∈ xs, sendsFrame s.txFrame x

theorem Tried.frame {exp : Word} {s t : State} (h : Tried exp s t) : t.txFrame = s.txFrame := by
  rw [h.only]; rfl

theorem Tried.trans {exp : Word} {a b c : State} (h : Tried exp a b) (h' : Tried exp b c) : Tried exp a c := by
  have hcfg : b.cfg = a.cfg := by rw [h.only]
  obtain ⟨xs, hx, hx'⟩ := h.trace
  obtain ⟨ys, hy, hy'⟩ := h'.trace
  rw [h.frame] at hy'
  constructor
  · conv_lhs => rw [h'.only, h.only]
  · exact h'.nvs.trans h.nvs
  · exact h'.tpOpen.trans h.tpOpen
  · exact fun w => h'.wf (h.wf w)
  · intro w w'
    have := h'.below (by rw [hcfg]; exact w) (by rw [hcfg]; exact h.below w w')
    rwa [hcfg] at this
  · exact fun x hx => (h'.outside x hx).trans (h.outside x hx)
  · refine ⟨xs ++ ys, by rw [hy, hx, List.append_assoc], ?_⟩
    intro x hxs
    rcases List.mem_append.mp hxs with hm | hm
    · exact hx' x hm
    · exact hy' x hm

theorem Tried.ofRegs {exp : Word} {s t : State}
    (h : t = { s with regs := { s.regs with
      res := t.regs.res, crcAcc := t.regs.crcAcc, rcmd := t.regs.rcmd, rplen := t.regs.rplen, rseq := t.regs.rseq
      rcsum := t.regs.rcsum, tre := t.regs.tre, syn := t.regs.syn } }) : Tried exp s t := by
  have hr : t.rxbuf = s.rxbuf := by rw [h]
  have he : t.edge = s.edge := by rw [h]
  constructor
  · conv_lhs => rw [h]
    rw [← hr, ← he]
  · rw [he]
  · rw [he]
  · exact fun w => by rw [hr]; exact w
  · exact fun _ w => by rw [hr]; exact w
  · exact fun _ _ => by rw [hr]
  · exact ⟨[], by rw [he]; simp, by simp⟩

theorem Tried.refl (exp : Word) (s : State) : Tried exp s s := .ofRegs rfl

theorem Tried.ofEdge {exp : Word} {s t : State} (h : t = { s with edge := t.edge }) (hn : t.edge.nvs = s.edge.nvs)
    (ho : t.edge.tpOpen = s.edge.tpOpen)
    (ht : ∃ xs, t.edge.trace = s.edge.trace ++ xs ∧ ∀ x ∈ xs, sendsFrame s.txFrame x) : Tried exp s t := by
  have hr : t.rxbuf = s.rxbuf := by rw [h]
  constructor
  · conv_lhs => rw [h]
    rw [h]
  · exact hn
  · exact ho
  · exact fun w => by rw [hr]; exact w
  · exact fun _ w => by rw [hr]; exact w
  · exact fun _ _ => by rw [hr]
  · exact ht

theorem Tried.ofReads {exp : Word} {s t : State} (h : t = { s with edge := t.edge }) (r : s.edge.Reads t.edge) :
    Tried exp s t := by
  obtain ⟨xs, hx, hx'⟩ := r.trace
  exact .ofEdge h r.nvs r.tpOpen ⟨xs, hx, fun x hm => .inl (hx' x hm)⟩

theorem Tried.ofSearched {exp : Word} {s t : State} (h : Searched s t) : Tried exp s t := by
  obtain ⟨xs, hx, hx'⟩ := h.reads.trace
  have hr : t.rxbuf = s.rxbuf := by rw [h.only]
  constructor
  · conv_lhs => rw [h.only]
    rw [h.only]
  · exact h.reads.nvs
  · exact h.reads.tpOpen
  · exact fun w => by rw [hr]; exact w
  · exact fun _ w => by rw [hr]; exact w
  · exact fun _ _ => by rw [hr]
  · exact ⟨xs, hx, fun x hm => .inl (hx' x hm)⟩

theorem Tried.ofTx {exp : Word} {s : State} {b : List Byte} (hb : b = Config.marker ∨ b = s.txFrame) :
    Tried exp s (txWrite b s).state := by
  obtain ⟨ok, h⟩ := txWrite_sends b s
  exact .ofEdge h.only h.nvs h.tpOpen ⟨_, h.trace, by simpa using .inr ⟨b, ok, rfl, hb⟩⟩

theorem Tried.ofRx {exp : Word} {s : State} {a : Nat} {bs : List Byte} (ha : a + bs.length ≤ 16 + exp.toNat) :
    Tried exp s { s with rxbuf := s.rxbuf.write a bs } := by
  constructor
  · rfl
  · rfl
  · rfl
  · exact fun w => Memory.wf_write w _ _
  · exact fun w w' => Memory.below_write w' (by rw [Params.rxCapacity_eq]; omega)
  · exact fun x hx => Memory.get?_write_outside (by omega)
  · exact ⟨[], by simp, by simp⟩

theorem Tried.bind {exp : Word} {α β : Type} {s : State} {r : Run α} {k : α → State → Run β} (hr : Tried exp s r.state)
    (hk : ∀ a u, r = .ok a u → Tried exp u (k a u).state) : Tried exp s (r.bind k).state :=
  Run.bind_state (R := Tried exp) Tried.trans hr hk

theorem toTre_tried (exp : Word) (s : State) (t : TreState) : Tried exp s (s.toTre t) := .ofRegs rfl

theorem rxRead_tried (exp : Word) (n t : Nat) (s : State) : Tried exp s (rxRead n t s).state :=
  .ofSearched (rxRead_searched n t s)

theorem treSend_tried (exp : Word) (s : State) : Tried exp s (treSend s).state := by
  refine .bind ((toTre_tried exp s .send).trans (.ofTx (.inl rfl))) fun ok u _ => ?_
  split
  · exact .refl exp u
  · exact .bind (.ofTx (.inr rfl)) fun _ v _ => .refl exp v

theorem treResync_tried (exp : Word) (s : State) : Tried exp s (treResync s).state :=
  .bind ((toTre_tried exp s .resync).trans (.ofSearched (synAwait_searched _ _))) fun _ u _ => .refl exp u

theorem treReadHeader_tried (exp : Word) (s : State) : Tried exp s (treReadHeader exp s).state := by
  refine .bind ((toTre_tried exp s .readHeader).trans (rxRead_tried exp _ _ _)) fun h u hu => ?_
  have hl : h.length ≤ 16 := (rxRead_eq_ok hu).2
  split
  · exact .refl exp u
  · exact .bind ((Tried.ofRx (s := u) (a := 0) (bs := h) (by omega)).trans (.ofRegs rfl)) fun _ v _ => .refl exp v

theorem treReadPayload_tried (exp : Word) (s : State) : Tried exp s (treReadPayload exp s).state := by
  unfold treReadPayload
  split
  · exact .refl exp s
  · refine .bind ((toTre_tried exp s .readPayload).trans (rxRead_tried exp _ _ _)) fun p u hu => ?_
    have hl : p.length ≤ exp.toNat := (rxRead_eq_ok hu).2
    split
    · exact .refl exp u
    · exact Tried.ofRx (s := u) (a := 16) (bs := p) (by omega)

theorem frmVerify_tried (exp : Word) (len : Nat) (s : State) : Tried exp s (frmVerify len s).state := by
  unfold frmVerify
  split
  · exact .refl exp s
  · dsimp only
    split <;> exact .ofRegs rfl

theorem treValidate_tried (exp : Word) (s : State) : Tried exp s (treValidate exp s).state := by
  unfold treValidate
  dsimp only
  split
  · exact toTre_tried exp s .validate
  · exact .bind ((toTre_tried exp s .validate).trans (frmVerify_tried exp _ _)) fun _ u _ => .refl exp u

theorem andThen_tried {exp : Word} {s : State} {r : Run (Option AttemptFailure)}
    {k : State → Run (Option AttemptFailure)} (hr : Tried exp s r.state) (hk : ∀ u, Tried exp u (k u).state) :
    Tried exp s (andThen r k).state := by
  refine .bind hr fun f u _ => ?_
  cases f with
  | some f => exact .refl exp u
  | none => exact hk u

/-- The steps of an attempt after Build. -/
def treTry (exp : Word) (s : State) : Run (Option AttemptFailure) :=
  andThen (andThen (andThen (andThen (treSend s) treResync) (treReadHeader exp)) (treReadPayload exp)) (treValidate exp)

theorem treTry_tried (exp : Word) (s : State) : Tried exp s (treTry exp s).state :=
  andThen_tried (andThen_tried (andThen_tried (andThen_tried (treSend_tried exp s) (treResync_tried exp))
    (treReadHeader_tried exp)) (treReadPayload_tried exp)) (treValidate_tried exp)

theorem andThen_assoc (r : Run (Option AttemptFailure)) (k l : State → Run (Option AttemptFailure)) :
    andThen (andThen r k) l = andThen r fun s => andThen (k s) l := by
  cases r with
  | stop w s => rfl
  | ok f s => cases f <;> rfl

/-- An attempt is its build, then the rest. -/
theorem treAttempt_eq (exp : Word) (s : State) : treAttempt exp s =
    andThen (treBuild { s with regs := { s.regs with attempt := s.regs.attempt + 1#32 } }) (treTry exp) := by
  simp only [treAttempt, andThen_assoc]
  congr 1
  funext u
  simp only [treTry, andThen_assoc]

/-! ## The build -/

/-- What a build that succeeded did (R189): one number allocated, persisted, recorded and stamped. -/
structure Built (s m : State) : Prop where
  only   : m = { s with
    regs := { s.regs with
      attempt := s.regs.attempt + 1#32, seq := s.regs.seq + 1#32, curseq := s.regs.seq
      res := m.regs.res, crcAcc := m.regs.crcAcc, tre := .build }
    txbuf := stamped s.txbuf s.regs.txlen.toNat s.regs.seq, edge := m.edge }
  nvs    : m.edge.nvs = .bytes (storeBytes (s.regs.seq + 1#32))
  sent   : m.edge.sent = s.edge.sent
  tpOpen : m.edge.tpOpen = s.edge.tpOpen
  trace  : m.edge.trace = s.edge.trace ++ [.nvWrite (storeBytes (s.regs.seq + 1#32)) true]

/-- What a build left that failed, or was cut, at its store write (R190, R271): no stamp, and the store is anything. -/
structure NotBuilt (s m : State) : Prop where
  only   : m = { s with
    regs := { s.regs with
      attempt := s.regs.attempt + 1#32, seq := s.regs.seq + 1#32, res := m.regs.res, tre := .build }
    rxbuf := m.rxbuf, freeUsed := m.freeUsed, edge := m.edge }
  sent   : m.edge.sent = s.edge.sent
  tpOpen : m.edge.tpOpen = s.edge.tpOpen
  trace  : m.edge.trace = s.edge.trace ++ [.nvWrite (storeBytes (s.regs.seq + 1#32)) false]

/-- The first step of an attempt: one of three endings (R189, R190, R271). -/
theorem treBuild_cases {s : State} (hv : s.regs.status.seqValid = true) :
    (∃ m, treBuild { s with regs := { s.regs with attempt := s.regs.attempt + 1#32 } } = .ok none m ∧ Built s m) ∨
    (∃ m, treBuild { s with regs := { s.regs with attempt := s.regs.attempt + 1#32 } } =
      .stop (.raised .storeUnavailable) m ∧ NotBuilt s m ∧ m.rxbuf = []) ∨
    (∃ m, treBuild { s with regs := { s.regs with attempt := s.regs.attempt + 1#32 } } = .stop .cutByReset m ∧
      NotBuilt s m) := by
  simp only [treBuild, seqNext, State.toTre_regs, hv, Bool.not_true, Bool.false_eq_true, if_false]
  cases h : nvWrite (storeBytes (s.regs.seq + 1#32)) (State.withSeq
      (State.toTre { s with regs := { s.regs with attempt := s.regs.attempt + 1#32 } } .build) (s.regs.seq + 1#32)) with
  | ok ok u =>
    have p := nvWrite_eq_ok h
    cases ok with
    | true =>
      left
      refine ⟨_, rfl, ?_, p.nvs rfl, p.sent, p.tpOpen, p.trace⟩
      rw [p.only]
      rfl
    | false =>
      right; left
      refine ⟨_, rfl, ⟨?_, p.sent, p.tpOpen, p.trace⟩, rfl⟩
      simp only [State.replyLost]
      rw [p.only]
      rfl
  | stop w u =>
    obtain ⟨rfl, p⟩ := nvWrite_eq_stop h
    right; right
    refine ⟨_, rfl, ?_, p.sent, p.tpOpen, p.trace⟩
    rw [p.only]
    rfl

/-! ## An attempt -/

theorem andThen_eq_none {r : Run (Option AttemptFailure)} {k : State → Run (Option AttemptFailure)} {t : State}
    (h : andThen r k = .ok none t) : ∃ u, r = .ok none u ∧ k u = .ok none t := by
  obtain ⟨f, u, hr, hk⟩ := Run.bind_eq_ok h
  cases f with
  | some f => cases hk
  | none => exact ⟨u, hr, hk⟩

theorem andThen_eq_stop {r : Run (Option AttemptFailure)} {k : State → Run (Option AttemptFailure)} {w : Stop} {t : State}
    (h : andThen r k = .stop w t) : r = .stop w t ∨ ∃ u, r = .ok none u ∧ k u = .stop w t := by
  rcases Run.bind_eq_stop h with h | ⟨f, u, hr, hk⟩
  · exact .inl h
  · cases f with
    | some f => cases hk
    | none => exact .inr ⟨u, hr, hk⟩

/-- The steps after Build raise nothing, where the expected reply fits RXBUF (R200, R243). -/
theorem treTry_not_raised {exp : Word} {s : State} (hexp : exp.toNat ≤ s.cfg.rxPayloadMax) (e : ErrKind) (t : State) :
    treTry exp s ≠ .stop (.raised e) t := by
  intro h
  have hc : ∀ {u : State}, Tried exp s u → u.cfg = s.cfg := fun h => by rw [h.only]
  rcases andThen_eq_stop h with h | ⟨u, hu, h⟩
  · rcases andThen_eq_stop h with h | ⟨u, -, h⟩
    · rcases andThen_eq_stop h with h | ⟨u, -, h⟩
      · rcases andThen_eq_stop h with h | ⟨u, -, h⟩
        · rcases Run.bind_eq_stop h with h | ⟨ok, u, -, h⟩
          · cases (afterAccess_eq_stop h).2.1
          · split at h
            · cases h
            · rcases Run.bind_eq_stop h with h | ⟨ok, v, -, h⟩
              · cases (afterAccess_eq_stop h).2.1
              · cases h
        · rcases Run.bind_eq_stop h with h | ⟨ok, v, -, h⟩
          · exact synAwait_not_raised _ _ _ _ h
          · cases h
      · rcases Run.bind_eq_stop h with h | ⟨b, v, -, h⟩
        · cases (afterAccess_eq_stop h).2.1
        · split at h
          · cases h
          · cases h
    · unfold treReadPayload at h
      split at h
      · cases h
      · rcases Run.bind_eq_stop h with h | ⟨b, v, -, h⟩
        · cases (afterAccess_eq_stop h).2.1
        · split at h <;> cases h
  · have hcu : u.cfg = s.cfg := by
      have ht : Tried exp s (Run.ok (none : Option AttemptFailure) u).state := hu ▸ andThen_tried (andThen_tried (andThen_tried
        (treSend_tried exp s) (treResync_tried exp)) (treReadHeader_tried exp)) (treReadPayload_tried exp)
      exact hc ht
    unfold treValidate at h
    dsimp only at h
    split at h
    · cases h
    · rcases Run.bind_eq_stop h with h | ⟨b, v, -, h⟩
      · have : ¬ ((decide (Config.headerSize + exp.toNat < Config.headerSize) ||
            decide ((u.toTre .validate).cfg.rxCapacity < Config.headerSize + exp.toNat)) = true) := by
          simp only [State.toTre_cfg, hcu, Params.rxCapacity_eq, Config.headerSize_eq]
          simp; omega
        rw [frmVerify, if_neg this] at h
        dsimp only at h
        split at h <;> cases h
      · cases h

/-- What holds where an attempt succeeds: the reply in RXBUF has the expected length, the attempt's number and a right
checksum (R196, R198 to R200). -/
structure Validated (exp : Word) (t : State) : Prop where
  rplen    : t.regs.rplen = exp
  rseq     : t.regs.rseq = t.regs.curseq
  written  : t.rxbuf.written 0 (16 + exp.toNat) = true
  verified : verifyFrame Config.byteOrder (t.rxbuf.read 0 (16 + exp.toNat)) = true
  header   : ⟨t.regs.rcmd, t.regs.rplen, t.regs.rseq, t.regs.rcsum⟩ = decodeHeader Config.byteOrder (t.rxbuf.read 0 16)
  tre      : t.regs.tre = .validate

/-- A frame's header is the header of its first 16 bytes. -/
theorem decodeHeader_read (o : ByteOrder) (m : Memory) (n : Nat) :
    decodeHeader o (m.read 0 (16 + n)) = decodeHeader o (m.read 0 16) := by
  have h : ∀ k i, k + i < 16 → ((m.read 0 (16 + n)).drop k).getD i 0#8 = ((m.read 0 16).drop k).getD i 0#8 := by
    intro k i hk
    rw [Memory.drop_read, Memory.drop_read, List.getD_eq_getElem _ _ (by simp; omega),
      List.getD_eq_getElem _ _ (by simp; omega), Memory.getElem_read, Memory.getElem_read]
  have h0 : ∀ i, i < 16 → (m.read 0 (16 + n)).getD i 0#8 = (m.read 0 16).getD i 0#8 := fun i hi => by
    simpa using h 0 i (by omega)
  cases o <;> simp only [decodeHeader, bytesWord, lengthAt_eq, sequenceAt_eq, checksumAt_eq,
    h0 _ (by omega : (0 : Nat) < 16), h0 _ (by omega : (1 : Nat) < 16), h0 _ (by omega : (2 : Nat) < 16),
    h0 _ (by omega : (3 : Nat) < 16), h 4 0 (by omega), h 4 1 (by omega), h 4 2 (by omega), h 4 3 (by omega),
    h 8 0 (by omega), h 8 1 (by omega), h 8 2 (by omega), h 8 3 (by omega), h 12 0 (by omega), h 12 1 (by omega),
    h 12 2 (by omega), h 12 3 (by omega)]

/-- Success of the steps after Build means a validated reply. -/
theorem treTry_validated {exp : Word} {s t : State} (h : treTry exp s = .ok none t) : Validated exp t := by
  obtain ⟨u4, h4, h5⟩ := andThen_eq_none h
  obtain ⟨u3, h3, h4⟩ := andThen_eq_none h4
  obtain ⟨u2, -, h3⟩ := andThen_eq_none h3
  clear h
  -- ReadHeader
  have hd : u3.rxbuf.written 0 16 = true ∧ u3.regs.rplen = exp ∧
      (⟨u3.regs.rcmd, u3.regs.rplen, u3.regs.rseq, u3.regs.rcsum⟩ : Header) =
        decodeHeader Config.byteOrder (u3.rxbuf.read 0 16) := by
    obtain ⟨b, v, -, h3⟩ := Run.bind_eq_ok h3
    split at h3
    · cases h3
    · rename_i hb
      have hb : 16 ≤ b.length := by simpa [Config.headerSize] using hb
      simp only [frmDechdr, Run.bind_ok, Run.ok.injEq] at h3
      obtain ⟨hl, rfl⟩ := h3
      refine ⟨Memory.written_write_self _ (by omega) (by omega), ?_, rfl⟩
      by_contra hne
      rw [if_neg hne] at hl
      cases hl
  -- ReadPayload
  have hp : u4.rxbuf.written 0 (16 + exp.toNat) = true ∧ u4.rxbuf.read 0 16 = u3.rxbuf.read 0 16 ∧
      u4.regs = { u3.regs with tre := u4.regs.tre } := by
    unfold treReadPayload at h4
    split at h4
    · rename_i he
      cases h4
      exact ⟨by simpa [he] using hd.1, rfl, rfl⟩
    · obtain ⟨p, v, hv, h4⟩ := Run.bind_eq_ok h4
      have q := (rxRead_eq_ok hv).1
      have hvr : v.rxbuf = u3.rxbuf := by rw [q.only]; rfl
      have hvg : v.regs = { u3.regs with tre := .readPayload } := by rw [q.only]; rfl
      split at h4
      · cases h4
      · rename_i hpl
        cases h4
        refine ⟨Memory.written_add ?_ ?_, ?_, ?_⟩
        · exact Memory.written_write (by rw [hvr]; exact hd.1) _ _
        · exact Memory.written_write_self _ (by simp [Config.headerSize]) (by simp [Config.headerSize]; omega)
        · rw [Memory.read_write_outside (by simp [Config.headerSize]), hvr]
        · simp [hvg]
  obtain ⟨hw, hrd, hregs⟩ := hp
  -- Validate
  unfold treValidate at h5
  dsimp only at h5
  split at h5
  · cases h5
  · rename_i hs
    obtain ⟨ok, v, hv, h5⟩ := Run.bind_eq_ok h5
    cases ok with
    | false => cases h5
    | true =>
      cases h5
      have hseq : u4.regs.rseq = u4.regs.curseq := by simpa using hs
      unfold frmVerify at hv
      split at hv
      · cases hv
      · dsimp only at hv
        split at hv
        · cases hv
        · rename_i hl
          simp only [Run.ok.injEq] at hv
          obtain ⟨hc, rfl⟩ := hv
          simp only [State.checksummed_regs, State.checksummed_rxbuf, State.toTre_regs, State.toTre_rxbuf]
          have hrx : State.rxFrame (u4.toTre .validate) (Config.headerSize + exp.toNat) =
              u4.rxbuf.read 0 (16 + exp.toNat) := rfl
          rw [hrx] at hl hc
          constructor
          · show u4.regs.rplen = exp
            rw [hregs]; exact hd.2.1
          · exact hseq
          · exact hw
          · exact Bool.and_eq_true_iff.mpr ⟨by
              cases hb : lengthMatches Config.byteOrder (u4.rxbuf.read 0 (16 + exp.toNat))
              · rw [hb] at hl; exact absurd rfl hl
              · rfl, hc⟩
          · show (⟨u4.regs.rcmd, u4.regs.rplen, u4.regs.rseq, u4.regs.rcsum⟩ : Header) =
              decodeHeader Config.byteOrder (u4.rxbuf.read 0 16)
            rw [hrd, ← hd.2.2, hregs]
          · rfl

/-- The endings of an attempt (R186 to R201, R271). -/
theorem treAttempt_cases {exp : Word} {s : State} (hv : s.regs.status.seqValid = true)
    (hexp : exp.toNat ≤ s.cfg.rxPayloadMax) :
    (∃ m r t, treAttempt exp s = .ok r t ∧ Built s m ∧ Tried exp m t ∧ (r = none → Validated exp t)) ∨
    (∃ m t, treAttempt exp s = .stop .cutByReset t ∧ Built s m ∧ Tried exp m t) ∨
    (∃ t, treAttempt exp s = .stop (.raised .storeUnavailable) t ∧ NotBuilt s t ∧ t.rxbuf = []) ∨
    (∃ t, treAttempt exp s = .stop .cutByReset t ∧ NotBuilt s t) := by
  rw [treAttempt_eq]
  rcases treBuild_cases hv with ⟨m, hm, b⟩ | ⟨m, hm, b, hr⟩ | ⟨m, hm, b⟩
  · have hcfg : m.cfg = s.cfg := by rw [b.only]
    have ht := treTry_tried exp m
    simp only [hm, andThen, Run.bind_ok]
    cases h : treTry exp m with
    | ok r t =>
      rw [h] at ht
      exact .inl ⟨m, r, t, rfl, b, ht, fun hr => treTry_validated (hr ▸ h)⟩
    | stop w t =>
      rw [h] at ht
      cases w with
      | raised e => exact absurd h (treTry_not_raised (by rw [hcfg]; exact hexp) e t)
      | cutByReset => exact .inr (.inl ⟨m, t, rfl, b, ht⟩)
  · exact .inr (.inr (.inl ⟨m, by rw [hm]; rfl, b, hr⟩))
  · exact .inr (.inr (.inr ⟨m, by rw [hm]; rfl, b⟩))

/-! ## The Retry edge and the loop -/

/-- What the Retry edge changes, whether it ends or is cut (R203). -/
structure Retried (f : AttemptFailure) (s t : State) : Prop where
  only  : t = { s with regs := { s.regs with tre := .retry }, failures := s.failures ++ [f], edge := t.edge }
  reads : s.edge.Reads t.edge

theorem retryEdge_retried (f : AttemptFailure) (again : Bool) (s : State) : Retried f s (retryEdge f again s).state := by
  have q := rxFlush_quiet { s.toTre .retry with failures := s.failures ++ [f] }
  unfold retryEdge
  cases h : rxFlush { s.toTre .retry with failures := s.failures ++ [f] } with
  | stop w u =>
    rw [h] at q
    exact ⟨q.only, q.reads rfl⟩
  | ok a u =>
    rw [h] at q
    have q1 : u = { { s.toTre .retry with failures := s.failures ++ [f] } with edge := u.edge } := q.only
    have r1 : s.edge.Reads u.edge := q.reads rfl
    cases again with
    | false => exact ⟨q1, r1⟩
    | true =>
      have d := delay_quiet u.cfg.tRetryDelay u
      refine ⟨?_, r1.trans (d.reads rfl)⟩
      exact edge_only_trans q1 d.only

theorem retryEdge_not_raised (f : AttemptFailure) (again : Bool) (s : State) (e : ErrKind) (t : State) :
    retryEdge f again s ≠ .stop (.raised e) t := by
  intro h
  rcases Run.bind_eq_stop h with h | ⟨_, u, -, h⟩
  · cases (afterAccess_eq_stop h).2.1
  · cases again with
    | true => cases (afterAccess_eq_stop h).2.1
    | false => cases h

/-- How the loop of attempts ends, for every property `I` of the states between attempts that an attempt with its Retry
edge carries on (R186, R187, R202, R207). -/
theorem treAttempts_end {exp : Word} {I : Nat → State → Prop}
    (hv : ∀ k a, I k a → a.regs.status.seqValid = true ∧ exp.toNat ≤ a.cfg.rxPayloadMax)
    (hs : ∀ k a m t f u, I k a → Built a m → Tried exp m t → Retried f t u → I (k + 1) u) :
    ∀ (left k : Nat) (s : State), I k s →
    (∃ j a m t, j < left ∧ I (k + j) a ∧ Built a m ∧ Tried exp m t ∧ Validated exp t ∧
      treAttempts exp left s = .ok () ((t.toTre .done).withRes exp)) ∨
    (∃ a, I (k + left) a ∧ treAttempts exp left s = raise .retriesExhausted (a.toTre .failed).replyLost) ∨
    (∃ j a t, j < left ∧ I (k + j) a ∧ NotBuilt a t ∧ t.rxbuf = [] ∧
      treAttempts exp left s = .stop (.raised .storeUnavailable) t) ∨
    (∃ j a t, j < left ∧ I (k + j) a ∧ treAttempts exp left s = .stop .cutByReset t ∧
      (NotBuilt a t ∨ ∃ m, Built a m ∧ (Tried exp m t ∨ ∃ v f, Tried exp m v ∧ Retried f v t))) := by
  intro left
  induction left with
  | zero => exact fun k s h => .inr (.inl ⟨s, h, rfl⟩)
  | succ left ih =>
    intro k s h
    obtain ⟨h1, h2⟩ := hv k s h
    rcases treAttempt_cases h1 h2 with ⟨m, r, t, ht, b, tr, val⟩ | ⟨m, t, ht, b, tr⟩ | ⟨t, ht, b, hr⟩ | ⟨t, ht, b⟩
    · cases r with
      | none =>
        exact .inl ⟨0, s, m, t, by omega, h, b, tr, val rfl, by simp only [treAttempts, ht, Run.bind_ok]⟩
      | some f =>
        have hre := retryEdge_retried f (left != 0) t
        have e : treAttempts exp (left + 1) s = (retryEdge f (left != 0) t).bind fun _ s => treAttempts exp left s := by
          simp only [treAttempts, ht, Run.bind_ok]
        cases hw : retryEdge f (left != 0) t with
        | ok x u =>
          rw [hw] at hre
          rw [hw, Run.bind_ok] at e
          rw [e]
          rcases ih (k + 1) u (hs k s m t f u h b tr hre) with ⟨j, a, m, t, hj, hi, rest⟩ | ⟨a, hi, rest⟩ |
            ⟨j, a, t, hj, hi, rest⟩ | ⟨j, a, t, hj, hi, rest⟩
          · exact .inl ⟨j + 1, a, m, t, by omega, by rwa [show k + (j + 1) = k + 1 + j by omega], rest⟩
          · exact .inr (.inl ⟨a, by rwa [show k + (left + 1) = k + 1 + left by omega], rest⟩)
          · exact .inr (.inr (.inl ⟨j + 1, a, t, by omega, by rwa [show k + (j + 1) = k + 1 + j by omega], rest⟩))
          · exact .inr (.inr (.inr ⟨j + 1, a, t, by omega, by rwa [show k + (j + 1) = k + 1 + j by omega], rest⟩))
        | stop w u =>
          rw [hw] at hre
          rw [hw, Run.bind_stop] at e
          rw [e]
          cases w with
          | raised e => exact absurd hw (retryEdge_not_raised _ _ _ _ _)
          | cutByReset =>
            exact .inr (.inr (.inr ⟨0, s, u, by omega, h, rfl, .inr ⟨m, b, .inr ⟨t, f, tr, hre⟩⟩⟩))
    · exact .inr (.inr (.inr ⟨0, s, t, by omega, h, by simp only [treAttempts, ht, Run.bind_stop],
        .inr ⟨m, b, .inl tr⟩⟩))
    · exact .inr (.inr (.inl ⟨0, s, t, by omega, h, b, hr, by simp only [treAttempts, ht, Run.bind_stop]⟩))
    · exact .inr (.inr (.inr ⟨0, s, t, by omega, h, by simp only [treAttempts, ht, Run.bind_stop], .inl b⟩))

/-- An exchange whose preconditions hold is its loop (R186, R188). -/
theorem treXchg_loop {exp max : Word} {s : State} (hv : s.regs.status.seqValid = true)
    (he : exp.toNat ≤ s.cfg.rxPayloadMax) : treXchg exp max s = treAttempts exp max.toNat
      { s with regs := { s.regs with expLen := exp, maxAtt := max, attempt := 0#32 }, failures := [] } := by
  simp only [treXchg, hv, Bool.not_true, Bool.false_eq_true, if_false, if_neg (Nat.not_lt.mpr he)]

theorem treXchg_notReady {exp max : Word} {s : State} (hv : s.regs.status.seqValid = false) :
    treXchg exp max s = raise .notReady s := by
  simp only [treXchg, hv, Bool.not_false, if_true]

theorem treXchg_full {exp max : Word} {s : State} (hv : s.regs.status.seqValid = true)
    (he : s.cfg.rxPayloadMax < exp.toNat) : treXchg exp max s = raise .allocationFailure s := by
  simp only [treXchg, hv, Bool.not_true, Bool.false_eq_true, if_false, if_pos he]

end Sys2Proof.Machine
end

