-- ==== Sys2Proof/Laws/Flush.lean ====
section
/-! SUPPORT. No part of an attempt flushes or delays: only the Retry edge does (R79, R203). -/

namespace Sys2Proof.Machine

@[simp] theorem flushesAndDelays_append (a b : List Access) :
    flushesAndDelays (a ++ b) = flushesAndDelays a ++ flushesAndDelays b := List.filter_append ..

/-- Between two states nothing flushed or delayed. -/
def SameFlushes (s t : State) : Prop := flushesAndDelays t.edge.trace = flushesAndDelays s.edge.trace

theorem SameFlushes.trans {a b c : State} (h : SameFlushes a b) (h' : SameFlushes b c) : SameFlushes a c :=
  Eq.trans h' h

theorem SameFlushes.bind {α β : Type} {s : State} {r : Run α} {k : α → State → Run β} (hr : SameFlushes s r.state)
    (hk : ∀ a u, SameFlushes u (k a u).state) : SameFlushes s (r.bind k).state :=
  Run.bind_state (R := SameFlushes) SameFlushes.trans hr fun a u _ => hk a u

theorem clock_sameFlushes (s : State) : SameFlushes s (clock s).state := by
  rw [SameFlushes, (clock_quiet s).trace]
  simp [flushesAndDelays]

theorem rxRead_sameFlushes (n t : Nat) (s : State) : SameFlushes s (rxRead n t s).state := by
  obtain ⟨_, h⟩ := rxRead_quiet n t s
  rw [SameFlushes, h.trace]
  simp [flushesAndDelays]

theorem txWrite_sameFlushes (b : List Byte) (s : State) : SameFlushes s (txWrite b s).state := by
  obtain ⟨_, h⟩ := txWrite_sends b s
  rw [SameFlushes, h.trace]
  simp [flushesAndDelays]

theorem synLoop_sameFlushes (bound t0 heads : Nat) (s : State) : SameFlushes s (synLoop bound t0 heads s).state := by
  induction heads generalizing s with
  | zero => rfl
  | succ n ih =>
    rw [synLoop]
    refine .bind (clock_sameFlushes s) fun t u => ?_
    split
    · rfl
    · refine .bind (rxRead_sameFlushes _ _ _) fun r v => ?_
      split
      · exact ih v
      · dsimp only
        split
        · rfl
        · exact ih (v.toSyn _)

theorem synAwait_sameFlushes (bound : Nat) (s : State) : SameFlushes s (synAwait bound s).state :=
  .bind (clock_sameFlushes s) fun _ u => synLoop_sameFlushes _ _ _ (u.toSyn .search)

theorem andThen_sameFlushes {s : State} {r : Run (Option AttemptFailure)} {k : State → Run (Option AttemptFailure)}
    (hr : SameFlushes s r.state) (hk : ∀ u, SameFlushes u (k u).state) : SameFlushes s (andThen r k).state := by
  refine .bind hr fun f u => ?_
  cases f with
  | some f => rfl
  | none => exact hk u

theorem treSend_sameFlushes (s : State) : SameFlushes s (treSend s).state := by
  refine .bind (txWrite_sameFlushes _ (s.toTre .send)) fun ok u => ?_
  split
  · rfl
  · exact .bind (txWrite_sameFlushes _ _) fun _ _ => rfl

theorem treResync_sameFlushes (s : State) : SameFlushes s (treResync s).state :=
  .bind (synAwait_sameFlushes _ (s.toTre .resync)) fun _ _ => rfl

theorem treReadHeader_sameFlushes (exp : Word) (s : State) : SameFlushes s (treReadHeader exp s).state := by
  refine .bind (rxRead_sameFlushes _ _ (s.toTre .readHeader)) fun h v => ?_
  split <;> rfl

theorem treReadPayload_sameFlushes (exp : Word) (s : State) : SameFlushes s (treReadPayload exp s).state := by
  unfold treReadPayload
  split
  · rfl
  · refine .bind (rxRead_sameFlushes _ _ (s.toTre .readPayload)) fun p v => ?_
    split <;> rfl

theorem treValidate_sameFlushes (exp : Word) (s : State) : SameFlushes s (treValidate exp s).state := by
  unfold treValidate
  dsimp only
  split
  · rfl
  · refine .bind ?_ fun _ _ => rfl
    unfold frmVerify
    split
    · rfl
    · dsimp only
      split <;> rfl

theorem treTry_sameFlushes (exp : Word) (s : State) : SameFlushes s (treTry exp s).state :=
  andThen_sameFlushes (andThen_sameFlushes (andThen_sameFlushes (andThen_sameFlushes (treSend_sameFlushes s)
    treResync_sameFlushes) (treReadHeader_sameFlushes exp)) (treReadPayload_sameFlushes exp))
    (treValidate_sameFlushes exp)

/-- A build makes one store write and nothing else. -/
theorem Built.sameFlushes {s m : State} (h : Built s m) : SameFlushes s m := by
  rw [SameFlushes, h.trace]
  simp [flushesAndDelays]

theorem NotBuilt.sameFlushes {s m : State} (h : NotBuilt s m) : SameFlushes s m := by
  rw [SameFlushes, h.trace]
  simp [flushesAndDelays]

/-- An attempt, where it passed or failed, started one attempt and neither flushed nor delayed. -/
theorem treAttempt_sameFlushes {exp : Word} {s t : State} {r : Option AttemptFailure}
    (hv : s.regs.status.seqValid = true) (h : treAttempt exp s = .ok r t) :
    SameFlushes s t ∧ t.regs.attempt = s.regs.attempt + 1#32 ∧ t.regs.status = s.regs.status ∧ t.cfg = s.cfg := by
  rw [treAttempt_eq] at h
  rcases treBuild_cases hv with ⟨m, hm, b⟩ | ⟨m, hm, -⟩ | ⟨m, hm, -⟩
  · rw [hm] at h
    have h : treTry exp m = .ok r t := h
    have hf := treTry_sameFlushes exp m
    have ht := (treTry_tried exp m).only
    rw [h] at hf ht
    have ht : t = _ := ht
    refine ⟨b.sameFlushes.trans hf, ?_, ?_, ?_⟩ <;> rw [ht, b.only]
  · rw [hm] at h; cases h
  · rw [hm] at h; cases h

end Sys2Proof.Machine
end

