-- ==== Sys2Proof/Laws/PerInstr.lean ====
section
/-! SUPPORT. Statements for all instructions, one lemma per constructor. The family `EncodedLength` says how many bytes
the encoding of each instruction has: one selector byte for an operation (R103), two bytes for the marker alone (R92), and
marker, header and payload for the other messages (R91, R97, R98, R99). -/

namespace Sys2Proof.Laws

open Sys2Proof Sys2Proof.Codec

@[simp] theorem length_encodeMessage (c q k : Word) (p : List Byte) : (encodeMessage c q k p).length = 18 + p.length := by
  simp [encodeMessage, Config.marker]; omega

/-- The number of bytes that the spec gives the encoding of an instruction. -/
def EncodedLength.bytes (i : Instr) : Nat :=
  match i with
  | .crc32 | .seqLoad | .seqNext | .frmLayout | .frmStamp | .frmEncode | .frmDechdr | .frmVerify | .synAwait
  | .treXchg | .cmbProbe | .cmbSpi | .hostInitialize | .hostExecuteSpi | .hostShutdown | .reservedF => 1
  | .wireMarker => 2
  | .wireFrame _ _ _ payload => 18 + payload.length
  | .wireProbeRequest _ _ => 18
  | .wireSpiRequest _ _ _ _ _ _ _ _ writeBytes => 46 + writeBytes.length
  | .wireReply _ _ _ payload => 18 + payload.length

/-- The encoding has that many bytes. -/
def EncodedLength.Statement (i : Instr) : Prop := (encode i).length = EncodedLength.bytes i

theorem EncodedLength.crc32 : Statement .crc32 := rfl
theorem EncodedLength.seqLoad : Statement .seqLoad := rfl
theorem EncodedLength.seqNext : Statement .seqNext := rfl
theorem EncodedLength.frmLayout : Statement .frmLayout := rfl
theorem EncodedLength.frmStamp : Statement .frmStamp := rfl
theorem EncodedLength.frmEncode : Statement .frmEncode := rfl
theorem EncodedLength.frmDechdr : Statement .frmDechdr := rfl
theorem EncodedLength.frmVerify : Statement .frmVerify := rfl
theorem EncodedLength.synAwait : Statement .synAwait := rfl
theorem EncodedLength.treXchg : Statement .treXchg := rfl
theorem EncodedLength.cmbProbe : Statement .cmbProbe := rfl
theorem EncodedLength.cmbSpi : Statement .cmbSpi := rfl
theorem EncodedLength.hostInitialize : Statement .hostInitialize := rfl
theorem EncodedLength.hostExecuteSpi : Statement .hostExecuteSpi := rfl
theorem EncodedLength.hostShutdown : Statement .hostShutdown := rfl
theorem EncodedLength.reservedF : Statement .reservedF := rfl
theorem EncodedLength.wireMarker : Statement .wireMarker := rfl
theorem EncodedLength.wireFrame (command seq checksum : Word) (payload : List Byte) :
    Statement (.wireFrame command seq checksum payload) := by simp [Statement, encode, bytes]
theorem EncodedLength.wireProbeRequest (seq checksum : Word) : Statement (.wireProbeRequest seq checksum) := by
  simp [Statement, encode, bytes]
theorem EncodedLength.wireSpiRequest (seq checksum speed k0 k1 k2 k3 rcount : Word) (writeBytes : List Byte) :
    Statement (.wireSpiRequest seq checksum speed k0 k1 k2 k3 rcount writeBytes) := by
  simp [Statement, encode, bytes, spiPayload]; omega
theorem EncodedLength.wireReply (command seq checksum : Word) (payload : List Byte) :
    Statement (.wireReply command seq checksum payload) := by simp [Statement, encode, bytes]

end Sys2Proof.Laws
end

