-- ==== Sys2Proof/Laws/Step.lean ====
section
/-! SUPPORT. How an operation settles, and what a step can be: one of three endings, one of four events. -/

namespace Sys2Proof.Machine

/-- The three endings of an operation (R28, R251, R271). -/
theorem settle_cases (r : Run Unit) :
    (∃ s, r = .ok () s ∧ r.settle = s.finished) ∨ (∃ e s, r = .stop (.raised e) s ∧ r.settle = s.raised e) ∨
    (∃ s, r = .stop .cutByReset s ∧ r.settle = s.resetInput) := by
  match r with
  | .ok () s => exact .inl ⟨s, rfl, rfl⟩
  | .stop (.raised e) s => exact .inr (.inl ⟨e, s, rfl, rfl⟩)
  | .stop .cutByReset s => exact .inr (.inr ⟨s, rfl, rfl⟩)

/-- No ending touches the edge. -/
theorem settle_edge (r : Run Unit) : r.settle.edge = r.state.edge := by
  rcases settle_cases r with ⟨s, rfl, h⟩ | ⟨e, s, rfl, h⟩ | ⟨s, rfl, h⟩ <;> rw [h] <;> rfl

theorem not_halted_of_ready {s : State} (h : s.ready = true) :
    s.regs.status.halted = false ∧ s.regs.status.busy = false := by
  simpa [State.ready] using h

/-- An operation that answers a next state in an engine that is ready ran to its end. -/
theorem exec_ready {i : Instr} {k : BitVec 4} {pre : State → Option Refusal} {body : State → Run Unit}
    (he : ∀ s, exec i s = operate k pre body s) {s t : State} (hr : s.ready = true) (h : exec i s = .next t) :
    t = (body (s.begin k)).settle ∧ pre s = none := by
  rw [he] at h
  rcases operate_eq_next h with ⟨hh, -⟩ | ⟨-, hp, ht⟩
  · rw [(not_halted_of_ready hr).1] at hh; cases hh
  · exact ⟨ht, hp⟩

/-- An access of the host, or another event that runs no instruction and is no reset: the edge keeps its store, its sent
stream, its history and its time, and STATUS, ERR and SEQ stay. -/
structure Aside (s t : State) : Prop where
  nvs    : t.edge.nvs = s.edge.nvs
  sent   : t.edge.sent = s.edge.sent
  trace  : t.edge.trace = s.edge.trace
  now    : t.edge.now = s.edge.now
  status : t.regs.status = s.regs.status
  err    : t.regs.err = s.regs.err
  seq    : t.regs.seq = s.regs.seq

/-- What a step that answers a next state can be. -/
theorem step_cases {s t : State} (h : step s = .next t) :
    (s.pending = [] ∧ t = s) ∨ ∃ e rest, s.pending = e :: rest ∧
      ((∃ i, exec i { s with pending := rest } = .next t ∧ e ≠ .resetInput) ∨
       (e = .resetInput ∧ t = State.resetInput { s with pending := rest }) ∨
       (e ≠ .resetInput ∧ Aside s t)) := by
  unfold step runNext at h
  split at h
  · cases h; exact .inl ⟨‹_›, rfl⟩
  · rename_i e rest hp
    refine .inr ⟨e, rest, hp, ?_⟩
    cases e with
    | hostWrite n v =>
      simp only [runEvent, hostWrite] at h
      split at h
      · simp only [startOperation] at h
        split at h
        · exact .inl ⟨_, h, by simp⟩
        · cases h; exact .inr (.inr ⟨by simp, ⟨rfl, rfl, rfl, rfl, rfl, rfl, rfl⟩⟩)
      · simp only [whileIdle] at h
        split at h
        · cases h
        · cases h
          refine .inr (.inr ⟨by simp, ?_⟩)
          unfold writeReg
          split <;> exact ⟨rfl, rfl, rfl, rfl, rfl, rfl, rfl⟩
    | hostRead n =>
      simp only [runEvent, whileIdle] at h
      split at h <;> cases h
      exact .inr (.inr ⟨by simp, ⟨rfl, rfl, rfl, rfl, rfl, rfl, rfl⟩⟩)
    | hostWriteTx off b | hostReadTx off | hostWriteRx off b | hostReadRx off =>
      simp only [runEvent, whileIdle, hostWriteTx, hostReadTx, hostWriteRx, hostReadRx] at h
      split at h
      · cases h
      · split at h <;> cases h
        exact .inr (.inr ⟨by simp, ⟨rfl, rfl, rfl, rfl, rfl, rfl, rfl⟩⟩)
    | arrive p b =>
      simp only [runEvent, arrive] at h
      split at h
      · exact .inl ⟨_, h, by simp⟩
      all_goals
        cases h
        exact .inr (.inr ⟨by simp, ⟨rfl, rfl, rfl, rfl, rfl, rfl, rfl⟩⟩)
    | openTransport =>
      cases h
      exact .inr (.inr ⟨by simp, ⟨rfl, rfl, rfl, rfl, rfl, rfl, rfl⟩⟩)
    | resetInput =>
      cases h
      exact .inr (.inl ⟨rfl, rfl⟩)

end Sys2Proof.Machine
end

