-- ==== Sys2Proof/Tests/Slice0.lean ====
section
/-! SUPPORT. The model's own tests. Expected values are those of spec/95_test_vectors.md (vectors V1 to V58, programs P1
to P7) or written out from spec/30_encoding.md. The last part has one witness for the hypotheses of each statement. -/

namespace Sys2Proof.Tests.Slice0

open Sys2Proof Sys2Proof.Machine Sys2Proof.Codec

/-! Every `decide +kernel` below waits for the declarations before it, each in a thread of its own while they are
elaborated side by side: one after another they need one thread. -/
set_option Elab.async false

/-! ## Small states -/

/-- The configuration of spec/95: TX_PAYLOAD_MAX = RX_PAYLOAD_MAX = 64, SPI_K0 to SPI_K3 = 0, SPEED_RESET = 0. -/
def cfg : Params where
  txExtra := 36
  rxMax := 64
  spiK0 := 0#32
  spiK1 := 0#32
  spiK2 := 0#32
  spiK3 := 0#32
  speedReset := 0#32
  speedCodes := []
  tSub := 1
  tResync := 10
  tRead := 5
  tRetryDelay := 3

/-- A prompt answer: no reset, Ok, no time passes, every byte comes through. -/
def yes : EnvAnswer := ⟨false, true, 4294967296, 0, .absent, []⟩

/-- An answer Fail, with nothing sent and nothing read. -/
def no : EnvAnswer := ⟨false, false, 0, 0, .absent, []⟩

/-- A reset cuts the access. -/
def cut : EnvAnswer := ⟨true, false, 0, 0, .absent, []⟩

/-- An idle engine right after reset, with a store, a received stream and the environment's answers. -/
def idle (nvs : Store) (rx : List Byte) (answers : List EnvAnswer) : State where
  regs := Regs.reset 0#32 0#32
  txbuf := []
  rxbuf := []
  edge := ⟨nvs, rx, [], 0, true, answers, 0, []⟩
  cfg := cfg
  freeUsed := 0
  failures := []
  pending := []
  hostData := 0#32

/-- The same state with the transport closed. -/
def closed (s : State) : State := { s with edge := { s.edge with tpOpen := false } }

/-- The same with operands and bytes in TXBUF and RXBUF. -/
def unitState (a0 a1 a2 : Word) (txOff : Nat) (tx rx : List Byte) : State :=
  let s := idle .absent [] []
  { s with
    regs := { s.regs with arg0 := a0, arg1 := a1, arg2 := a2 }
    txbuf := Memory.write [] txOff tx
    rxbuf := Memory.write [] 0 rx }

/-- An engine whose counter is loaded, with a frame of no payload laid out and operands. -/
def linkState (seq a0 a1 a2 : Word) (link : Bool) (rx : List Byte) (answers : List EnvAnswer) : State :=
  let s := idle (.bytes (wordBytes .little seq)) rx answers
  { s with
    regs := { s.regs with
      arg0 := a0, arg1 := a1, arg2 := a2, seq := seq
      status := { s.regs.status with seqValid := true, linkOk := link } }
    txbuf := Memory.write [] 0 (List.replicate 16 0#8 ++ List.replicate 28 0#8 ++ [0x9F#8]) }

/-- The state an outcome leads to, with a state to fall back on. -/
def nextOr (d : State) (o : Host.Outcome State Fault Refusal) : State :=
  match o with
  | .next t => t
  | .fault _ | .refused _ => d

/-- A property of the next state; false where there is none. -/
def leadsTo (o : Host.Outcome State Fault Refusal) (p : State → Bool) : Bool :=
  match o with
  | .next t => p t
  | .fault _ | .refused _ => false

theorem eq_next_of_leadsTo {o : Host.Outcome State Fault Refusal} {p : State → Bool} (h : leadsTo o p = true) :
    ∃ t, o = .next t ∧ p t = true := by
  cases o with
  | next t => exact ⟨t, rfl, h⟩
  | fault _ => cases h
  | refused _ => cases h

/-! ## Well-formedness -/

/-- A byte string one byte too long for the field. -/
def tooLong (n : Nat) : List Byte := List.replicate n 0#8

theorem length_tooLong (n : Nat) : (tooLong n).length = n := List.length_replicate

theorem lengthFits_of_ge {p : List Byte} (h : 4294967296 ≤ p.length) : lengthFits p = false :=
  decide_eq_false (Nat.not_lt.mpr h)

theorem test_wf_frame_length (c q k : Word) : WellFormed (.wireFrame c q k (tooLong 4294967296)) = false := by
  have h : lengthFits (tooLong 4294967296) = false := lengthFits_of_ge (Nat.le_of_eq (length_tooLong _).symm)
  simp only [WellFormed, h, Bool.false_and]
theorem test_wf_frame_checksum : WellFormed (.wireFrame 7#32 1#32 0x15930AC7#32 [0xAA#8]) = false := by decide +kernel
theorem test_wf_frame_ok : WellFormed (.wireFrame 7#32 1#32 0x15930AC6#32 [0xAA#8]) = true := by decide +kernel
theorem test_wf_frame_probe_shape : WellFormed (.wireFrame 0#32 5#32 0xA45B4531#32 []) = false := by decide +kernel
theorem test_wf_frame_spi_shape :
    WellFormed (.wireFrame 43#32 5#32 0xC109B9B0#32 (List.replicate 28 0#8)) = false := by decide +kernel
theorem test_wf_probe_checksum : WellFormed (.wireProbeRequest 5#32 0xA45B4530#32) = false := by decide +kernel
theorem test_wf_spi_checksum :
    WellFormed (.wireSpiRequest 5#32 0xC1DE255E#32 0#32 0#32 0#32 0#32 0#32 3#32 [0x9F#8]) = false := by decide +kernel
theorem test_wf_spi_length (q k v a b c d r : Word) :
    WellFormed (.wireSpiRequest q k v a b c d r (tooLong 4294967268)) = false := by
  have h : lengthFits (spiPayload v a b c d r (tooLong 4294967268)) = false :=
    lengthFits_of_ge (by rw [spiPayload, List.length_append, length_argumentBlock, length_tooLong])
  simp only [WellFormed, h, Bool.false_and]
theorem test_wf_reply_checksum : WellFormed (.wireReply 43#32 3#32 0#32 [0x01#8, 0x02#8, 0x03#8]) = false := by
  decide +kernel
theorem test_wf_reply_length (c q k : Word) : WellFormed (.wireReply c q k (tooLong 4294967296)) = false := by
  have h : lengthFits (tooLong 4294967296) = false := lengthFits_of_ge (Nat.le_of_eq (length_tooLong _).symm)
  simp only [WellFormed, h, Bool.false_and]

/-! ## Decoding: words written out from R103 and from R91 to R99 -/

theorem test_decode_crc32 : decode .op [0x00#8] = .ok (.crc32, []) := by decide
theorem test_decode_seqLoad : decode .op [0x01#8] = .ok (.seqLoad, []) := by decide
theorem test_decode_seqNext : decode .op [0x02#8] = .ok (.seqNext, []) := by decide
theorem test_decode_frmLayout : decode .op [0x03#8] = .ok (.frmLayout, []) := by decide
theorem test_decode_frmStamp : decode .op [0x04#8] = .ok (.frmStamp, []) := by decide
theorem test_decode_frmEncode : decode .op [0x05#8] = .ok (.frmEncode, []) := by decide
theorem test_decode_frmDechdr : decode .op [0x06#8] = .ok (.frmDechdr, []) := by decide
theorem test_decode_frmVerify : decode .op [0x07#8] = .ok (.frmVerify, []) := by decide
theorem test_decode_synAwait : decode .op [0x08#8] = .ok (.synAwait, []) := by decide
theorem test_decode_treXchg : decode .op [0x09#8] = .ok (.treXchg, []) := by decide
theorem test_decode_cmbProbe : decode .op [0x0A#8] = .ok (.cmbProbe, []) := by decide
theorem test_decode_cmbSpi : decode .op [0x0B#8] = .ok (.cmbSpi, []) := by decide
theorem test_decode_hostInitialize : decode .op [0x0C#8] = .ok (.hostInitialize, []) := by decide
theorem test_decode_hostExecuteSpi : decode .op [0x0D#8] = .ok (.hostExecuteSpi, []) := by decide
theorem test_decode_hostShutdown : decode .op [0x0E#8] = .ok (.hostShutdown, []) := by decide
theorem test_decode_reservedF : decode .op [0x0F#8] = .ok (.reservedF, []) := by decide
theorem test_decode_wireMarker : decode .request [0xFE#8, 0xCA#8] = .ok (.wireMarker, []) := by decide +kernel

/-- V22, `FRM.ENCODE 7, 1, 1`, behind its marker. -/
theorem test_decode_wireFrame :
    decode .request [0xFE#8, 0xCA#8, 0x07#8, 0x00#8, 0x00#8, 0x00#8, 0x01#8, 0x00#8, 0x00#8, 0x00#8,
      0x01#8, 0x00#8, 0x00#8, 0x00#8, 0xC6#8, 0x0A#8, 0x93#8, 0x15#8, 0xAA#8, 0x55#8] =
      .ok (.wireFrame 7#32 1#32 0x15930AC6#32 [0xAA#8], [0x55#8]) := by decide +kernel

/-- V30. -/
theorem test_decode_wireProbeRequest :
    decode .request [0xFE#8, 0xCA#8, 0x00#8, 0x00#8, 0x00#8, 0x00#8, 0x00#8, 0x00#8, 0x00#8, 0x00#8,
      0x05#8, 0x00#8, 0x00#8, 0x00#8, 0x31#8, 0x45#8, 0x5B#8, 0xA4#8] =
      .ok (.wireProbeRequest 5#32 0xA45B4531#32, []) := by decide +kernel

/-- V51, behind its marker. -/
theorem test_decode_wireSpiRequest :
    decode .request [0xFE#8, 0xCA#8, 0x2B#8, 0x00#8, 0x00#8, 0x00#8, 0x1D#8, 0x00#8, 0x00#8, 0x00#8,
      0x05#8, 0x00#8, 0x00#8, 0x00#8, 0x92#8, 0x67#8, 0xF9#8, 0xEA#8,
      0x02#8, 0x00#8, 0x00#8, 0x00#8, 0xA1#8, 0x00#8, 0x00#8, 0x00#8, 0xA2#8, 0x00#8, 0x00#8, 0x00#8,
      0xA3#8, 0x00#8, 0x00#8, 0x00#8, 0xA4#8, 0x00#8, 0x00#8, 0x00#8, 0x01#8, 0x00#8, 0x00#8, 0x00#8,
      0x03#8, 0x00#8, 0x00#8, 0x00#8, 0x9F#8] =
      .ok (.wireSpiRequest 5#32 0xEAF96792#32 2#32 0xA1#32 0xA2#32 0xA3#32 0xA4#32 3#32 [0x9F#8], []) := by
  decide +kernel

/-- The reply of V52. -/
theorem test_decode_wireReply :
    decode .reply [0xFE#8, 0xCA#8, 0x2B#8, 0x00#8, 0x00#8, 0x00#8, 0x03#8, 0x00#8, 0x00#8, 0x00#8,
      0x03#8, 0x00#8, 0x00#8, 0x00#8, 0x20#8, 0x71#8, 0x19#8, 0x74#8, 0x01#8, 0x02#8, 0x03#8] =
      .ok (.wireReply 43#32 3#32 0x74197120#32 [0x01#8, 0x02#8, 0x03#8], []) := by decide +kernel

theorem test_decode_noSelector : decode .op [] = .error .noSelector := by decide
theorem test_decode_noMarker : decode .request [0xFE#8, 0xCB#8, 0x00#8] = .error .noMarker := by decide +kernel
theorem test_decode_shortHeader : decode .request [0xFE#8, 0xCA#8, 0x00#8] = .error .shortHeader := by decide +kernel
theorem test_decode_shortPayload :
    decode .reply [0xFE#8, 0xCA#8, 0x00#8, 0x00#8, 0x00#8, 0x00#8, 0x01#8, 0x00#8, 0x00#8, 0x00#8,
      0x05#8, 0x00#8, 0x00#8, 0x00#8, 0x31#8, 0x45#8, 0x5B#8, 0xA4#8] = .error .shortPayload := by decide +kernel

theorem test_table_op : decodeTableWord 8 0xC = some .hostInitialize := by decide +kernel
theorem test_table_marker : decodeTableWord 16 0xFECA = some .wireMarker := by decide +kernel
theorem test_table_probe :
    decodeTableWord 80 0xFECA0000000000000000 = some (.wireProbeRequest 0#32 0#32) := by decide +kernel
theorem test_fetch_word :
    leadsTo (step ((idle .absent [] []).withFetchWord 8 0xF)) (fun t => Status.byte t.regs.status == 0x06#8) = true := by
  decide +kernel

/-! ## The Checksum Engine -/

/-- V8: `CRC32 9` on "123456789". -/
theorem test_crc32_check :
    leadsTo (exec .crc32 (unitState 9#32 0#32 0#32 0
      [0x31#8, 0x32#8, 0x33#8, 0x34#8, 0x35#8, 0x36#8, 0x37#8, 0x38#8, 0x39#8] []))
      (fun t => t.regs.res == 0xCBF43926#32 && t.regs.crcAcc == 0x340BC6D9#32 && t.regs.err == 0#8) = true := by
  decide +kernel

/-- V8: `CRC32 81`. -/
theorem test_crc32_too_long :
    leadsTo (exec .crc32 (unitState 81#32 0#32 0#32 0 [] []))
      (fun t => t.regs.err == 1#8 && t.regs.status.errf && !t.regs.status.halted && t.regs.crcAcc == 0#32) = true := by
  decide +kernel

/-- V5: the remainder of `31` before and after the complement, and V3. -/
theorem test_crc_bytes :
    crcNibble 0xFFFFFFFF#32 0x31#32 = 0xAFF51D87#32 ∧ crcByte 0xFFFFFFFF#32 0x31#8 = 0x7C231048#32 ∧
    crc32 [0x61#8] = 0xE8B7BE43#32 ∧ crc32 [] = 0#32 ∧ crc32 [0xFF#8] = 0xFF000000#32 := by decide +kernel

/-- V24: the probe frame with sequence 5 in the two byte orders. -/
theorem test_byte_orders :
    frameChecksum .little 0#32 5#32 [] = 0xA45B4531#32 ∧ frameChecksum .big 0#32 5#32 [] = 0x245BC425#32 := by
  decide +kernel

/-! ## The Sequence Manager -/

/-- V11, step 1. -/
theorem test_seqLoad_fresh :
    leadsTo (exec .seqLoad (idle .absent [] [yes, yes]))
      (fun t => t.regs.seq == 2#32 && t.regs.status.seqValid &&
        t.edge.nvs == .bytes [0x02#8, 0x00#8, 0x00#8, 0x00#8]) = true := by decide +kernel

/-- V15: a longer store; it is not rewritten. -/
theorem test_seqLoad_long :
    leadsTo (exec .seqLoad (idle (.bytes [0x2A#8, 0x00#8, 0x00#8, 0x00#8, 0x99#8, 0x88#8]) [] [yes]))
      (fun t => t.regs.seq == 42#32 &&
        t.edge.nvs == .bytes [0x2A#8, 0x00#8, 0x00#8, 0x00#8, 0x99#8, 0x88#8]) = true := by decide +kernel

/-- V12, step 5. -/
theorem test_seqNext :
    leadsTo (exec .seqNext (linkState 4#32 0#32 0#32 0#32 false [] [yes]))
      (fun t => t.regs.res == 4#32 && t.regs.seq == 5#32 &&
        t.edge.nvs == .bytes [0x05#8, 0x00#8, 0x00#8, 0x00#8]) = true := by decide +kernel

/-- V17: directly after reset. -/
theorem test_seqNext_not_ready :
    leadsTo (exec .seqNext (idle .absent [] []))
      (fun t => t.regs.err == 6#8 && Status.byte t.regs.status == 0x06#8 && t.edge.trace.isEmpty) = true := by
  decide +kernel

/-! ## The Frame Codec -/

/-- V20: `FRM.LAYOUT 43, 3`. -/
theorem test_frmLayout :
    leadsTo (exec .frmLayout (unitState 43#32 3#32 0#32 16 [0x01#8, 0x02#8, 0x03#8] []))
      (fun t => t.regs.txlen == 3#32 && t.txFrame ==
        [0x2B#8, 0x00#8, 0x00#8, 0x00#8, 0x03#8, 0x00#8, 0x00#8, 0x00#8, 0x00#8, 0x00#8, 0x00#8, 0x00#8,
          0x00#8, 0x00#8, 0x00#8, 0x00#8, 0x01#8, 0x02#8, 0x03#8]) = true := by decide +kernel

/-- V20: one byte too many. -/
theorem test_frmLayout_too_long :
    leadsTo (exec .frmLayout (unitState 0#32 65#32 0#32 0 [] []))
      (fun t => t.regs.err == 1#8 && t.regs.txlen == 0#32 && t.txbuf == []) = true := by decide +kernel

/-- V21: the probe frame with sequence 5, whatever bytes 8 to 15 held. -/
theorem test_frmStamp :
    leadsTo (exec .frmStamp (unitState 5#32 0#32 0#32 0 (List.replicate 8 0#8 ++ List.replicate 8 0x77#8) []))
      (fun t => t.regs.res == 0xA45B4531#32 && t.txbuf.read 8 8 ==
        [0x05#8, 0x00#8, 0x00#8, 0x00#8, 0x31#8, 0x45#8, 0x5B#8, 0xA4#8]) = true := by decide +kernel

/-- V22: `FRM.ENCODE 43, 3, 3`. -/
theorem test_frmEncode :
    leadsTo (exec .frmEncode (unitState 43#32 3#32 3#32 16 [0x01#8, 0x02#8, 0x03#8] []))
      (fun t => t.regs.res == 0x74197120#32 && t.txFrame ==
        [0x2B#8, 0x00#8, 0x00#8, 0x00#8, 0x03#8, 0x00#8, 0x00#8, 0x00#8, 0x03#8, 0x00#8, 0x00#8, 0x00#8,
          0x20#8, 0x71#8, 0x19#8, 0x74#8, 0x01#8, 0x02#8, 0x03#8]) = true := by decide +kernel

/-- The first frame of V22. -/
def frameV22 : List Byte :=
  [0x00#8, 0x00#8, 0x00#8, 0x00#8, 0x03#8, 0x00#8, 0x00#8, 0x00#8, 0x05#8, 0x00#8, 0x00#8, 0x00#8,
    0x5B#8, 0x56#8, 0xDF#8, 0x10#8, 0x01#8, 0x02#8, 0x03#8]

/-- V25. -/
theorem test_frmDechdr :
    leadsTo (exec .frmDechdr (unitState 0#32 0#32 0#32 0 [] frameV22))
      (fun t => t.regs.rcmd == 0#32 && t.regs.rplen == 3#32 && t.regs.rseq == 5#32 &&
        t.regs.rcsum == 0x10DF565B#32) = true := by decide +kernel

/-- V26: intact. -/
theorem test_frmVerify :
    leadsTo (exec .frmVerify (unitState 19#32 0#32 0#32 0 [] frameV22))
      (fun t => t.regs.res == 1#32 && t.rxFrame 19 == frameV22) = true := by decide +kernel

/-- V26 and P7: the last byte changed; CRC_ACC holds the complement of what was recomputed. -/
theorem test_frmVerify_damaged :
    leadsTo (exec .frmVerify (unitState 19#32 0#32 0#32 0 [] (frameV22.set 18 0x04#8)))
      (fun t => t.regs.res == 0#32 && t.regs.crcAcc == 0x8EBBC3F8#32 ^^^ 0xFFFFFFFF#32) = true := by decide +kernel

/-! ## The Stream Synchronizer -/

/-- V41. -/
theorem test_synAwait :
    leadsTo (exec .synAwait (idle .absent [0xFE#8, 0xFE#8, 0xFE#8, 0xCA#8, 0x55#8, 0x66#8] (List.replicate 9 yes)))
      (fun t => t.regs.res == 1#32 && t.regs.syn == .gotFirst && t.edge.rx == [0x55#8, 0x66#8]) = true := by
  decide +kernel

/-- V49: the bound is exceeded after the second byte of `FE FE CA`. -/
theorem test_synAwait_timeout :
    leadsTo (exec .synAwait (idle .absent [0xFE#8, 0xFE#8, 0xCA#8]
      (⟨false, true, 2, 0, .absent, []⟩ :: List.replicate 6 yes)))
      (fun t => t.regs.res == 0#32 && t.regs.syn == .gotFirst && t.edge.rx == [0xCA#8] && t.regs.err == 0#8) = true := by
  decide +kernel

/-! ## The Transport Retry Engine -/

/-- A probe reply with sequence number 5, behind its marker (V30). -/
def reply5 : List Byte :=
  [0xFE#8, 0xCA#8, 0x00#8, 0x00#8, 0x00#8, 0x00#8, 0x00#8, 0x00#8, 0x00#8, 0x00#8,
    0x05#8, 0x00#8, 0x00#8, 0x00#8, 0x31#8, 0x45#8, 0x5B#8, 0xA4#8]

/-- V30. -/
theorem test_treXchg :
    leadsTo (exec .treXchg (linkState 5#32 0#32 1#32 0#32 false reply5 (List.replicate 10 yes)))
      (fun t => t.regs.err == 0#8 && t.regs.res == 0#32 && t.regs.attempt == 1#32 && t.regs.tre == .done &&
        t.regs.seq == 6#32 && t.edge.sent == reply5) = true := by decide +kernel

/-- P3 in one step: a stale reply, then the right one; two attempts, four stretches of the sent stream. The second reply
arrives while the second attempt sends its frame. -/
theorem test_treXchg_retry :
    leadsTo (exec .treXchg (linkState 4#32 0#32 3#32 0#32 false reply5
      (List.replicate 12 yes ++ [⟨false, true, 4294967296, 0, .absent, reply5⟩] ++ List.replicate 8 yes)))
      (fun t => t.regs.err == 0#8 && t.regs.attempt == 2#32 && t.regs.curseq == 5#32 && t.regs.seq == 6#32 &&
        t.failures == [.sequenceMismatch] && Status.byte t.regs.status == 0x12#8 &&
        t.edge.sent.length == 36) = true := by decide +kernel

/-! ## The Command Builder and the host operations -/

/-- V50. -/
theorem test_cmbProbe :
    leadsTo (exec .cmbProbe (idle .absent [] []))
      (fun t => t.regs.txlen == 0#32 && t.txFrame == List.replicate 16 0#8) = true := by decide +kernel

/-- V51, before the stamp. -/
theorem test_cmbSpi :
    leadsTo (exec .cmbSpi
      { unitState 1#32 3#32 0#32 44 [0x9F#8] [] with
        cfg := { cfg with spiK0 := 0xA1#32, spiK1 := 0xA2#32, spiK2 := 0xA3#32, spiK3 := 0xA4#32 }
        regs := { Regs.reset 2#32 0#32 with arg0 := 1#32, arg1 := 3#32 } })
      (fun t => t.regs.txlen == 29#32 && t.txFrame ==
        [0x2B#8, 0x00#8, 0x00#8, 0x00#8, 0x1D#8, 0x00#8, 0x00#8, 0x00#8, 0x00#8, 0x00#8, 0x00#8, 0x00#8,
          0x00#8, 0x00#8, 0x00#8, 0x00#8,
          0x02#8, 0x00#8, 0x00#8, 0x00#8, 0xA1#8, 0x00#8, 0x00#8, 0x00#8, 0xA2#8, 0x00#8, 0x00#8, 0x00#8,
          0xA3#8, 0x00#8, 0x00#8, 0x00#8, 0xA4#8, 0x00#8, 0x00#8, 0x00#8, 0x01#8, 0x00#8, 0x00#8, 0x00#8,
          0x03#8, 0x00#8, 0x00#8, 0x00#8, 0x9F#8]) = true := by decide +kernel

/-- V54: one write byte too many. -/
theorem test_cmbSpi_too_long :
    leadsTo (exec .cmbSpi (unitState 37#32 3#32 0#32 0 [] []))
      (fun t => t.regs.err == 1#8 && t.txbuf == [] && t.regs.txlen == 0#32) = true := by decide +kernel

/-- The probe reply of P1. -/
def reply2 : List Byte :=
  [0xFE#8, 0xCA#8, 0x00#8, 0x00#8, 0x00#8, 0x00#8, 0x00#8, 0x00#8, 0x00#8, 0x00#8,
    0x02#8, 0x00#8, 0x00#8, 0x00#8, 0x28#8, 0x4C#8, 0x9E#8, 0xAE#8]

/-- P1. -/
theorem test_hostInitialize :
    leadsTo (exec .hostInitialize
      { idle .absent reply2 (List.replicate 11 yes) with
        regs := { Regs.reset 0#32 0#32 with arg1 := 3#32 } })
      (fun t => Status.byte t.regs.status == 0x32#8 && t.regs.seq == 3#32 && t.regs.curseq == 2#32 &&
        t.edge.nvs == .bytes [0x03#8, 0x00#8, 0x00#8, 0x00#8] && t.regs.crcAcc == 0x5161B3D7#32 &&
        t.regs.tre == .done && t.edge.sent == reply2 && t.edge.rx == []) = true := by decide +kernel

/-- V56: no attempt allowed. -/
theorem test_hostInitialize_zero :
    leadsTo (exec .hostInitialize (idle .absent [] (List.replicate 2 yes)))
      (fun t => t.regs.err == 4#8 && !t.regs.status.linkOk && t.regs.attempt == 0#32 && t.edge.sent == [] &&
        t.regs.seq == 2#32) = true := by decide +kernel

/-- What arrives in P2: four bytes of noise, then the reply. -/
def replyP2 : List Byte :=
  [0x00#8, 0xCA#8, 0xFE#8, 0x17#8, 0xFE#8, 0xCA#8, 0x2B#8, 0x00#8, 0x00#8, 0x00#8, 0x03#8, 0x00#8, 0x00#8, 0x00#8,
    0x03#8, 0x00#8, 0x00#8, 0x00#8, 0x20#8, 0x71#8, 0x19#8, 0x74#8, 0x01#8, 0x02#8, 0x03#8]

/-- P2, its first `EXECUTE_SPI`. -/
theorem test_hostExecuteSpi :
    leadsTo (exec .hostExecuteSpi (linkState 3#32 1#32 3#32 4#32 true replyP2 (List.replicate 18 yes)))
      (fun t => Status.byte t.regs.status == 0x32#8 && t.regs.res == 3#32 && t.regs.seq == 4#32 &&
        t.rxbuf.read 16 3 == [0x01#8, 0x02#8, 0x03#8] && t.regs.txlen == 29#32 && t.regs.crcAcc == 0x8BE68EDF#32 &&
        t.txbuf.read 8 8 == [0x03#8, 0x00#8, 0x00#8, 0x00#8, 0x9F#8, 0x5B#8, 0x1C#8, 0x75#8] &&
        t.edge.sent.length == 47) = true := by decide +kernel

/-- P2, its second `EXECUTE_SPI`: not ready, and nothing asked of the closed transport. -/
theorem test_hostExecuteSpi_not_ready :
    leadsTo (exec .hostExecuteSpi
      { linkState 4#32 1#32 3#32 4#32 false [] [] with edge := ⟨.absent, [], [], 0, false, [], 0, []⟩ })
      (fun t => t.regs.err == 6#8 && Status.byte t.regs.status == 0x16#8) = true := by decide +kernel

/-- V58. -/
theorem test_hostShutdown :
    leadsTo (exec .hostShutdown (idle .absent [] [yes]))
      (fun t => Status.byte t.regs.status == 0x02#8 && !t.edge.tpOpen) = true := by decide +kernel

/-- V57. -/
theorem test_reservedF :
    leadsTo (exec .reservedF (idle .absent [] []))
      (fun t => t.regs.err == 7#8 && Status.byte t.regs.status == 0x06#8) = true := by decide +kernel

/-- P6: the store fails in Build. -/
theorem test_store_failure_in_build :
    leadsTo (exec .treXchg (linkState 9#32 0#32 3#32 0#32 false [] [no]))
      (fun t => t.regs.err == 5#8 && Status.byte t.regs.status == 0x1E#8 && t.regs.seq == 10#32 &&
        t.regs.attempt == 1#32 && t.regs.curseq == 0#32 && t.regs.tre == .build && t.edge.sent == []) = true := by
  decide +kernel

/-! ## The wire rows -/

theorem test_wireMarker :
    leadsTo (exec .wireMarker (idle .absent [0x17#8] [])) (fun t => t.edge.rx == [0x17#8, 0xFE#8, 0xCA#8]) = true := by
  decide +kernel
theorem test_wireFrame :
    leadsTo (exec (.wireFrame 7#32 1#32 0x15930AC6#32 [0xAA#8]) (idle .absent [] []))
      (fun t => t.edge.rx == [0xFE#8, 0xCA#8, 0x07#8, 0x00#8, 0x00#8, 0x00#8, 0x01#8, 0x00#8, 0x00#8, 0x00#8,
        0x01#8, 0x00#8, 0x00#8, 0x00#8, 0xC6#8, 0x0A#8, 0x93#8, 0x15#8, 0xAA#8]) = true := by decide +kernel
theorem test_wireProbeRequest :
    leadsTo (exec (.wireProbeRequest 5#32 0xA45B4531#32) (idle .absent [] [])) (fun t => t.edge.rx == reply5) = true := by
  decide +kernel
theorem test_wireSpiRequest :
    leadsTo (exec (.wireSpiRequest 3#32 0x751C5B9F#32 0#32 0#32 0#32 0#32 0#32 3#32 [0x9F#8]) (idle .absent [] []))
      (fun t => t.edge.rx == [0xFE#8, 0xCA#8, 0x2B#8, 0x00#8, 0x00#8, 0x00#8, 0x1D#8, 0x00#8, 0x00#8, 0x00#8,
        0x03#8, 0x00#8, 0x00#8, 0x00#8, 0x9F#8, 0x5B#8, 0x1C#8, 0x75#8] ++ List.replicate 20 0#8 ++
        [0x01#8, 0x00#8, 0x00#8, 0x00#8, 0x03#8, 0x00#8, 0x00#8, 0x00#8, 0x9F#8]) = true := by decide +kernel
theorem test_wireReply :
    leadsTo (exec (.wireReply 43#32 3#32 0x74197120#32 [0x01#8, 0x02#8, 0x03#8]) (idle .absent [] []))
      (fun t => t.edge.rx == replyP2.drop 4) = true := by decide +kernel

/-! ## The host's port and reset -/

/-- R32: a read of STATUS, and a write of a read-only register. -/
theorem test_host_registers :
    leadsTo (step { idle .absent [] [] with pending := [.hostRead 1] }) (fun t => t.hostData == 0#32) = true ∧
    leadsTo (step { idle .absent [] [] with pending := [.hostWrite 6 7#32] }) (fun t => t.regs.res == 0#32) = true := by
  decide +kernel

/-- V12: reset keeps the store and drops the counter. -/
theorem test_reset_keeps_store :
    leadsTo (step { linkState 4#32 0#32 0#32 0#32 true [] [] with pending := [.resetInput] })
      (fun t => Status.byte t.regs.status == 0#8 && t.edge.nvs == .bytes [0x04#8, 0x00#8, 0x00#8, 0x00#8]) = true := by
  decide +kernel

/-- R271: a loss of power inside `NvWrite` ends the operation; what the store then holds is the environment's. -/
theorem test_cut_in_store_write :
    leadsTo (exec .seqNext (linkState 4#32 0#32 0#32 0#32 true [] [cut]))
      (fun t => Status.byte t.regs.status == 0#8 && t.edge.nvs == .absent && t.txbuf == []) = true := by decide +kernel

/-- R273, R274 (1): before its owner has opened the transport, a search is refused. -/
theorem test_reset_transport_closed : exec .synAwait State.reset = .refused .transportNotOpen := rfl

/-- R274 (2): the owner opens the transport after the reset. -/
theorem test_open_after_reset :
    leadsTo (step { State.reset with pending := [.openTransport] }) (fun t => t.edge.tpOpen) = true := rfl

/-! ## Witnesses: states and operands that meet the hypotheses of the statements -/

/-- The invariant of an idle engine after reset. -/
theorem idle_inv (nvs : Store) (rx : List Byte) (a : List EnvAnswer) : (idle nvs rx a).Inv where
  txWf := rfl
  rxWf := rfl
  txBelow := rfl
  rxBelow := rfl
  txlenFits := Nat.zero_le _
  expFits := Nat.zero_le _
  attemptBounded := Nat.le_refl _
  notBusy := rfl
  errVisible := List.mem_cons_self
  errFlag := rfl
  haltedStore := rfl
  linkCounted := by intro h; cases h
  treRest := .inl rfl
  storeAgrees := by intro h; cases h

/-- An engine that has sent number 3 and holds 4. -/
def sentThree : State :=
  { linkState 4#32 0#32 1#32 0#32 false reply5 (List.replicate 11 yes) with
    edge := ⟨.bytes (wordBytes .little 4#32), reply5, [], 0, true, List.replicate 11 yes, 0,
      [.nvWrite (wordBytes .little 4#32) true, .txWrite [0xFE#8, 0xCA#8] true,
        .txWrite (encodeFrame .little 0#32 3#32 []) true]⟩ }

theorem sentThree_inv : sentThree.Inv where
  txWf := by decide +kernel
  rxWf := by decide +kernel
  txBelow := by decide +kernel
  rxBelow := by decide +kernel
  txlenFits := by decide +kernel
  expFits := by decide +kernel
  attemptBounded := by decide +kernel
  notBusy := by decide +kernel
  errVisible := by decide +kernel
  errFlag := by decide +kernel
  haltedStore := by decide +kernel
  linkCounted := by decide +kernel
  treRest := by decide +kernel
  storeAgrees := fun _ _ => ⟨wordBytes .little 4#32, rfl, by decide, by decide⟩

/-- The same with an exchange presented. -/
def sendFour : State := { sentThree with pending := [.hostWrite 0 9#32] }

theorem sendFour_inv : sendFour.Inv := { sentThree_inv with }

theorem sentThree_numbers : sentNumbers sentThree.edge.trace = [3#32] := by decide +kernel

theorem sentThree_below : sentThree.edge.sentBelowStore := by
  intro v hv
  rw [sentThree_numbers] at hv
  obtain rfl := List.mem_singleton.mp hv
  exact ⟨wordBytes .little 4#32, rfl, by decide, by decide⟩

theorem witness_Crc32Operation :
    (let s := unitState 80#32 0#32 0#32 0 (List.replicate 80 0x55#8) []
     s.ready = true ∧ s.count0 ≤ s.cfg.txCapacity ∧ s.txbuf.written 0 s.count0 = true) ∧
    (let s := unitState 81#32 0#32 0#32 0 [] []
     s.ready = true ∧ s.cfg.txCapacity < s.count0) ∧
    (let s := unitState 80#32 0#32 0#32 0 (List.replicate 79 0x55#8) []
     s.ready = true ∧ s.count0 ≤ s.cfg.txCapacity ∧ s.txbuf.written 0 s.count0 = false) := by decide +kernel

theorem witness_ChecksumIsAffine : [0x12#8, 0x34#8].length = [0xAB#8, 0xCD#8].length := rfl

theorem witness_OneBitChangeChangesChecksum : ∃ (bs : List Byte) (i : Fin bs.length) (k : Fin 8), i.val = 8 ∧ k.val = 7 :=
  ⟨List.replicate 9 0x31#8, ⟨8, by decide⟩, 7, rfl, rfl⟩

theorem witness_SeqLoadTakesStoredValue :
    let s := idle (.bytes [0x04#8, 0x03#8, 0x02#8, 0x01#8]) [] [yes]
    s.ready = true ∧ s.edge.answers = [yes] ∧ yes.reset = false ∧ yes.ok = true ∧
      s.edge.nvs = .bytes [0x04#8, 0x03#8, 0x02#8, 0x01#8] ∧ 4 ≤ [0x04#8, 0x03#8, 0x02#8, 0x01#8].length := by
  decide +kernel

theorem witness_SeqLoadStartsFresh :
    (let s := idle .absent [] [yes, yes]
     s.ready = true ∧ s.edge.answers = yes :: yes :: [] ∧ s.edge.nvs = .absent) ∧
    (let s := idle (.bytes [0x06#8, 0x00#8, 0x00#8]) [] [yes, yes]
     s.ready = true ∧ s.edge.answers = yes :: yes :: [] ∧ s.edge.nvs = .bytes [0x06#8, 0x00#8, 0x00#8] ∧
       [0x06#8, 0x00#8, 0x00#8].length < 4) := by decide +kernel

theorem witness_SeqLoadStoreFailureHalts :
    (let s := idle .absent [] [no, yes]
     s.ready = true ∧ s.edge.answers = no :: yes :: [] ∧ no.reset = false ∧ no.ok = false) ∧
    (let s := idle .absent [] [yes, no]
     s.ready = true ∧ s.edge.answers = yes :: no :: [] ∧ yes.reset = false ∧ yes.ok = true ∧ no.reset = false ∧
       no.ok = false ∧ s.edge.nvs = .absent) := by decide +kernel

theorem witness_SeqNextAllocates :
    (let s := linkState 4#32 0#32 0#32 0#32 false [] [yes]
     s.ready = true ∧ s.regs.status.seqValid = true ∧ s.edge.answers = yes :: [] ∧ yes.reset = false ∧ yes.ok = true) ∧
    (let s := linkState 4#32 0#32 0#32 0#32 false [] [no]
     s.ready = true ∧ s.regs.status.seqValid = true ∧ s.edge.answers = no :: [] ∧ no.reset = false ∧ no.ok = false) := by
  decide +kernel

theorem witness_NoAllocationWithoutCounter :
    (idle .absent [] []).ready = true ∧ (idle .absent [] []).Inv ∧
      (idle .absent [] []).regs.status.seqValid = false := ⟨rfl, idle_inv _ _ _, rfl⟩

theorem witness_SeqWrapsSilently :
    let s := linkState 0xFFFFFFFF#32 0#32 0#32 0#32 false [] [yes]
    s.ready = true ∧ s.regs.status.seqValid = true ∧ s.edge.answers = yes :: [] ∧ yes.reset = false ∧ yes.ok = true ∧
      s.regs.seq = 0xFFFFFFFF#32 := by decide +kernel

theorem witness_AllocatedNumberWasNeverSent :
    ∃ t, sentThree.Inv ∧ sentThree.edge.sentBelowStore ∧ sentThree.ready = true ∧ exec .seqNext sentThree = .next t ∧
      (t.regs.status.done && t.regs.err == 0#8) = true :=
  have ⟨t, h, h'⟩ := eq_next_of_leadsTo (o := exec .seqNext sentThree)
    (p := fun t => t.regs.status.done && t.regs.err == 0#8) (by decide +kernel)
  ⟨t, sentThree_inv, sentThree_below, by decide +kernel, h, h'⟩

theorem witness_RestartContinuesAboveAllocated :
    let s := linkState 4#32 0#32 0#32 0#32 false [] [yes, yes]
    s.ready = true ∧ s.regs.seq ≠ 0xFFFFFFFF#32 ∧ yes.reset = false ∧ yes.ok = true ∧
      leadsTo (exec .seqNext s) (fun t => t.regs.status.done && t.regs.err == 0#8 && t.edge.answers == [yes]) = true := by
  decide +kernel

theorem witness_OtherOperationsKeepCounter :
    let s := linkState 4#32 0#32 0#32 0#32 false [0xFE#8, 0xCA#8] (List.replicate 5 yes)
    portOf .synAwait = .op ∧ s.ready = true ∧
      Instr.synAwait ∉ [Instr.seqLoad, .seqNext, .treXchg, .hostInitialize, .hostExecuteSpi] ∧
      leadsTo (exec .synAwait s) (fun t => t.regs.status.done) = true := by decide +kernel

theorem witness_LayoutOperation :
    (let s := unitState 0#32 64#32 0#32 0 [] []
     s.ready = true ∧ s.count1 ≤ s.cfg.txPayloadMax) ∧
    (let s := unitState 0#32 65#32 0#32 0 [] []
     s.ready = true ∧ s.cfg.txPayloadMax < s.count1) := by decide +kernel

theorem witness_StampOperation :
    (let s := unitState 5#32 0#32 0#32 0 (List.replicate 8 0#8) []
     s.ready = true ∧ s.stampable s.regs.txlen.toNat = true) ∧
    (let s := unitState 5#32 0#32 0#32 0 (List.replicate 7 0#8) []
     s.ready = true ∧ s.stampable s.regs.txlen.toNat = false) := by decide +kernel

theorem witness_EncodeOperation :
    (let s := unitState 43#32 64#32 3#32 16 (List.replicate 64 0x01#8) []
     s.ready = true ∧ s.count1 ≤ s.cfg.txPayloadMax ∧ s.txbuf.written 16 s.count1 = true) ∧
    (let s := unitState 43#32 65#32 3#32 0 [] []
     s.ready = true ∧ s.cfg.txPayloadMax < s.count1) ∧
    (let s := unitState 43#32 64#32 3#32 16 (List.replicate 63 0x01#8) []
     s.ready = true ∧ s.count1 ≤ s.cfg.txPayloadMax ∧ s.txbuf.written 16 s.count1 = false) := by decide +kernel

theorem witness_DecodeHeaderOperation :
    (let s := unitState 0#32 0#32 0#32 0 [] (List.replicate 16 0xFF#8)
     s.ready = true ∧ s.rxbuf.written 0 16 = true) ∧
    (let s := unitState 0#32 0#32 0#32 0 [] (List.replicate 15 0xFF#8)
     s.ready = true ∧ s.rxbuf.written 0 16 = false) := by decide +kernel

theorem witness_VerifyOperation :
    (let s := unitState 18#32 0#32 0#32 0 [] frameV22
     s.ready = true ∧ 16 ≤ s.count0 ∧ s.count0 ≤ s.cfg.rxCapacity ∧ s.rxbuf.written 0 s.count0 = true ∧
       lengthMatches .little (s.rxFrame s.count0) = false) ∧
    (let s := unitState 19#32 0#32 0#32 0 [] frameV22
     s.ready = true ∧ 16 ≤ s.count0 ∧ s.count0 ≤ s.cfg.rxCapacity ∧ s.rxbuf.written 0 s.count0 = true ∧
       lengthMatches .little (s.rxFrame s.count0) = true) ∧
    (let s := unitState 15#32 0#32 0#32 0 [] []
     s.ready = true ∧ s.count0 < 16) ∧
    (let s := unitState 81#32 0#32 0#32 0 [] []
     s.ready = true ∧ s.cfg.rxCapacity < s.count0) ∧
    (let s := unitState 20#32 0#32 0#32 0 [] frameV22
     s.ready = true ∧ 16 ≤ s.count0 ∧ s.count0 ≤ s.cfg.rxCapacity ∧ s.rxbuf.written 0 s.count0 = false) := by
  decide +kernel

theorem witness_EncodedFrameVerifies : [0x01#8, 0x02#8, 0x03#8].length < 4294967280 := by decide

theorem witness_OneFlippedBitFailsVerify :
    ∃ (p : List Byte) (i : Fin (encodeFrame .little 43#32 3#32 p).length) (k : Fin 8),
      p.length < 4294967280 ∧ i.val = 18 ∧ k.val = 7 :=
  ⟨[0x01#8, 0x02#8, 0x03#8], ⟨18, by decide⟩, 7, by decide, rfl, rfl⟩

theorem witness_AwaitFindsMarker :
    let s := idle .absent [0xFE#8, 0xFE#8, 0xCA#8, 0x77#8] (List.replicate 7 yes)
    s.ready = true ∧ s.edge.tpOpen = true ∧ synScan .search s.edge.rx = some 3 ∧ 3 < 4294967296 ∧
      s.edge.prompt (2 * 3 + 1) = true := by decide +kernel

theorem witness_AwaitAnswersByBytesTaken :
    (let s := idle .absent [0xFE#8, 0xCA#8, 0x55#8] (List.replicate 5 yes)
     s.ready = true ∧ leadsTo (exec .synAwait s) (fun t => t.regs.status.done && t.regs.res == 1#32) = true) ∧
    (let s := idle .absent [0xCA#8, 0xFE#8] (⟨false, true, 2, 0, .absent, []⟩ :: List.replicate 4 yes)
     s.ready = true ∧ leadsTo (exec .synAwait s) (fun t => t.regs.status.done && t.regs.res == 0#32) = true) := by
  decide +kernel

theorem witness_AwaitMayTimeOut :
    (let s := idle .absent [0xFE#8, 0xCA#8] [⟨false, true, 0, 0, .absent, []⟩]
     s.ready = true ∧ s.edge.tpOpen = true ∧ s.edge.answers = ⟨false, true, 0, 0, .absent, []⟩ :: []) ∧
    (let s := { idle .absent [] [] with edge := ⟨.absent, [], [], 0, false, [], 0, []⟩ }
     s.ready = true ∧ s.edge.tpOpen = false) := by decide +kernel

/-- P1 on a store that holds 2. -/
def probeState : State :=
  { idle (.bytes [0x02#8, 0x00#8, 0x00#8, 0x00#8]) (reply2 ++ [0x55#8]) (List.replicate 10 yes) with
    regs := { Regs.reset 0#32 0#32 with arg1 := 3#32 } }

theorem witness_ExchangePreconditions :
    (let s := idle .absent [] []
     s.ready = true ∧ s.regs.status.seqValid = false) ∧
    (let s := linkState 5#32 65#32 3#32 0#32 false [] []
     s.ready = true ∧ s.regs.status.seqValid = true ∧ s.cfg.rxPayloadMax < s.count0) ∧
    (let s := { linkState 5#32 64#32 1#32 0#32 false [] [] with txbuf := [] }
     s.ready = true ∧ s.regs.status.seqValid = true ∧ s.count0 ≤ s.cfg.rxPayloadMax ∧ s.regs.arg1 ≠ 0#32 ∧
       s.stampable s.regs.txlen.toNat = false) ∧
    (let s := closed (linkState 5#32 64#32 1#32 0#32 false [] [])
     s.ready = true ∧ s.regs.status.seqValid = true ∧ s.count0 ≤ s.cfg.rxPayloadMax ∧ s.regs.arg1 ≠ 0#32 ∧
       s.stampable s.regs.txlen.toNat = true ∧ s.edge.tpOpen = false) ∧
    (let s := closed probeState
     s.ready = true ∧ s.regs.arg1 ≠ 0#32 ∧ s.edge.tpOpen = false) ∧
    (let s := linkState 5#32 36#32 64#32 1#32 true [] []
     s.ready = true ∧ s.regs.status.linkOk = true ∧ s.regs.status.seqValid = true ∧
       s.count1 ≤ s.cfg.rxPayloadMax ∧ s.count0 ≤ s.cfg.txPayloadMax - 28 ∧ s.regs.arg2 ≠ 0#32 ∧
       s.txbuf.written 44 s.count0 = false) ∧
    (let s := closed (linkState 5#32 1#32 64#32 1#32 true [] [])
     s.ready = true ∧ s.regs.status.linkOk = true ∧ s.regs.status.seqValid = true ∧
       s.count1 ≤ s.cfg.rxPayloadMax ∧ s.count0 ≤ s.cfg.txPayloadMax - 28 ∧ s.regs.arg2 ≠ 0#32 ∧
       s.txbuf.written 44 s.count0 = true ∧ s.edge.tpOpen = false) := by decide +kernel

theorem witness_ZeroAttempts :
    let s := linkState 5#32 64#32 0#32 0#32 false [] []
    s.ready = true ∧ s.regs.status.seqValid = true ∧ s.count0 ≤ s.cfg.rxPayloadMax ∧ s.regs.arg1 = 0#32 := by
  decide +kernel

theorem witness_ExchangeSucceeds :
    (let s := linkState 5#32 0#32 1#32 0#32 false (reply5 ++ [0x77#8]) (List.replicate 10 yes)
     s.ready = true ∧ s.regs.status.seqValid = true ∧ ([] : List Byte).length = s.count0 ∧
       s.count0 ≤ s.cfg.rxPayloadMax ∧ s.regs.arg1 ≠ 0#32 ∧ s.stampable s.regs.txlen.toNat = true ∧
       s.edge.tpOpen = true ∧ s.edge.prompt 10 = true ∧
       s.edge.rx = [0xFE#8, 0xCA#8] ++ encodeFrame .little 0#32 s.regs.seq [] ++ [0x77#8]) ∧
    (let s := linkState 3#32 3#32 4#32 0#32 false (replyP2.drop 4) (List.replicate 10 yes)
     s.ready = true ∧ s.regs.status.seqValid = true ∧ [0x01#8, 0x02#8, 0x03#8].length = s.count0 ∧
       s.count0 ≤ s.cfg.rxPayloadMax ∧ s.regs.arg1 ≠ 0#32 ∧ s.stampable s.regs.txlen.toNat = true ∧
       s.edge.tpOpen = true ∧ s.edge.prompt 10 = true ∧
       s.edge.rx = [0xFE#8, 0xCA#8] ++ encodeFrame .little 43#32 s.regs.seq [0x01#8, 0x02#8, 0x03#8] ++ []) := by
  decide +kernel

theorem witness_StaleReplyIsRefused :
    let s := linkState 4#32 0#32 1#32 0#32 false reply5 (List.replicate 11 yes)
    s.ready = true ∧ s.regs.status.seqValid = true ∧ ([] : List Byte).length = s.count0 ∧
      s.count0 ≤ s.cfg.rxPayloadMax ∧ s.regs.arg1 = 1#32 ∧ s.stampable s.regs.txlen.toNat = true ∧
      s.edge.tpOpen = true ∧ s.edge.prompt 11 = true ∧
      s.edge.rx = [0xFE#8, 0xCA#8] ++ encodeFrame .little 0#32 5#32 [] ++ [] ∧ 5#32 ≠ s.regs.seq := by decide +kernel

theorem witness_WrongLengthIsRefusedUnread :
    let s := linkState 5#32 3#32 1#32 0#32 false reply5 (List.replicate 10 yes)
    s.ready = true ∧ s.regs.status.seqValid = true ∧ s.count0 ≤ s.cfg.rxPayloadMax ∧ s.regs.arg1 = 1#32 ∧
      s.stampable s.regs.txlen.toNat = true ∧ s.edge.tpOpen = true ∧ s.edge.prompt 10 = true ∧
      s.edge.rx = [0xFE#8, 0xCA#8] ++ headerBytes .little 0#32 0#32 5#32 0xA45B4531#32 ++ [] ∧
      0#32 ≠ s.regs.arg0 := by decide +kernel

theorem witness_ExhaustedExchangeMadeAllAttempts :
    (let s := linkState 5#32 0#32 0#32 0#32 false [] []
     s.ready = true ∧ leadsTo (exec .treXchg s) (fun t => t.regs.err == 4#8) = true) ∧
    (let s := linkState 4#32 0#32 1#32 0#32 false reply5 (List.replicate 11 yes)
     s.ready = true ∧ leadsTo (exec .treXchg s) (fun t => t.regs.err == 4#8) = true) := by decide +kernel

theorem witness_SuccessfulExchangeIsValidated :
    let s := linkState 5#32 0#32 1#32 0#32 false reply5 (List.replicate 10 yes)
    s.ready = true ∧ leadsTo (exec .treXchg s) (fun t => t.regs.status.done && t.regs.err == 0#8) = true := by
  decide +kernel

theorem witness_StoreFailureInBuildSendsNothing :
    let s := linkState 9#32 0#32 3#32 0#32 false [] [no]
    s.ready = true ∧ s.regs.status.seqValid = true ∧ s.count0 ≤ s.cfg.rxPayloadMax ∧ s.regs.arg1 ≠ 0#32 ∧
      s.stampable s.regs.txlen.toNat = true ∧ s.edge.tpOpen = true ∧ s.edge.answers = no :: [] ∧ no.reset = false ∧
      no.ok = false := by decide +kernel

/-- An attempt whose send fails, its flush, which drops nothing, and the delay. -/
def failOnce : List EnvAnswer := [yes, no, no, no]

/-- Two such attempts; after the last allowed one there is no delay. -/
def failTwice : List EnvAnswer := failOnce ++ [yes, no, no]

theorem witness_RetryEdgeFlushesThenDelays :
    (∃ t, retryEdge .markerNotFound true (idle .absent [] [yes, yes]) = .ok () t) ∧
    (∃ t, retryEdge .headerShort false (idle .absent [] [yes]) = .ok () t) ∧
    (let s := linkState 5#32 64#32 0#32 0#32 false [] []
     s.ready = true ∧ s.regs.status.seqValid = true ∧ s.count0 ≤ s.cfg.rxPayloadMax ∧
       leadsTo (exec .treXchg s) (fun t => t.regs.status.done && t.regs.attempt == 0#32) = true) ∧
    (let s := linkState 5#32 0#32 2#32 0#32 false [] failTwice
     s.ready = true ∧ s.regs.status.seqValid = true ∧ s.count0 ≤ s.cfg.rxPayloadMax ∧
       leadsTo (exec .treXchg s)
         (fun t => t.regs.status.done && t.regs.err == 4#8 && t.regs.attempt == 2#32) = true) ∧
    (let s := linkState 4#32 0#32 2#32 0#32 false reply5 (failOnce ++ List.replicate 10 yes)
     s.ready = true ∧ s.regs.status.seqValid = true ∧ s.count0 ≤ s.cfg.rxPayloadMax ∧
       leadsTo (exec .treXchg s)
         (fun t => t.regs.status.done && t.regs.err == 0#8 && t.regs.attempt == 2#32) = true) :=
  ⟨⟨_, rfl⟩, ⟨_, rfl⟩, by decide +kernel, by decide +kernel, by decide +kernel⟩

theorem witness_ExchangeFrame :
    (let s := linkState 9#32 0#32 3#32 0#32 false [] [no]
     s.ready = true ∧ leadsTo (exec .treXchg s) (fun t => t.regs.status.done && t.regs.status.halted) = true) ∧
    (let s := linkState 5#32 0#32 1#32 0#32 false reply5 (List.replicate 10 yes)
     s.ready = true ∧ leadsTo (exec .treXchg s)
       (fun t => t.regs.status.done && t.regs.err != 4#8 && t.regs.err != 5#8) = true) := by
  decide +kernel

theorem witness_ProbeLayout : (idle .absent [] []).ready = true := rfl

theorem witness_SpiLayout :
    (let s := unitState 36#32 3#32 0#32 0 [] []
     s.ready = true ∧ s.count0 ≤ s.cfg.txPayloadMax - 28) ∧
    (let s := unitState 37#32 3#32 0#32 0 [] []
     s.ready = true ∧ s.cfg.txPayloadMax - 28 < s.count0) := by decide +kernel

theorem witness_InitializeSucceeds :
    let s := probeState
    s.ready = true ∧ s.edge.nvs = .bytes [0x02#8, 0x00#8, 0x00#8, 0x00#8] ∧
      bytesWord .little [0x02#8, 0x00#8, 0x00#8, 0x00#8] = 2#32 ∧ s.regs.arg1 ≠ 0#32 ∧ s.edge.tpOpen = true ∧
      s.edge.prompt 10 = true ∧
      s.edge.rx = encode (.wireReply 0#32 2#32 (frameChecksum .little 0#32 2#32 []) []) ++ [0x55#8] := by decide +kernel

theorem witness_LinkOkMeansInitialized :
    probeState.ready = true ∧
      leadsTo (exec .hostInitialize probeState) (fun t => t.regs.status.done && t.regs.err == 0#8) = true ∧
      leadsTo (exec .hostInitialize { probeState with regs := Regs.reset 0#32 0#32 })
        (fun t => t.regs.status.done && t.regs.err == 4#8) = true := by decide +kernel

theorem witness_ExecuteSpiSucceeds :
    let s := linkState 3#32 1#32 3#32 4#32 true (replyP2.drop 4) (List.replicate 10 yes)
    s.ready = true ∧ s.regs.status.linkOk = true ∧ s.regs.status.seqValid = true ∧
      [0x01#8, 0x02#8, 0x03#8].length = s.count1 ∧ s.count1 ≤ s.cfg.rxPayloadMax ∧
      s.count0 ≤ s.cfg.txPayloadMax - 28 ∧ s.regs.arg2 ≠ 0#32 ∧ s.txbuf.written 44 s.count0 = true ∧
      [0x9F#8] = s.txbuf.read 44 s.count0 ∧ s.edge.tpOpen = true ∧ s.edge.prompt 10 = true ∧
      s.edge.rx = encode (.wireReply 43#32 s.regs.seq
        (frameChecksum .little 43#32 s.regs.seq [0x01#8, 0x02#8, 0x03#8]) [0x01#8, 0x02#8, 0x03#8]) ++ [] := by
  decide +kernel

theorem witness_ExecuteSpiTurnedAway :
    (let s := linkState 3#32 1#32 3#32 4#32 false [] []
     s.ready = true ∧ s.regs.status.linkOk = false) ∧
    (let s := linkState 3#32 1#32 65#32 4#32 true [] []
     s.ready = true ∧ s.regs.status.linkOk = true ∧ s.cfg.rxPayloadMax < s.count1) ∧
    (let s := linkState 3#32 37#32 3#32 4#32 true [] []
     s.ready = true ∧ s.regs.status.linkOk = true ∧ s.cfg.txPayloadMax - 28 < s.count0) := by decide +kernel

theorem witness_HostOperationFrame :
    (probeState.ready = true ∧ leadsTo (exec .hostInitialize probeState)
      (fun t => t.regs.status.done && t.regs.err != 4#8 && t.regs.err != 5#8) = true) ∧
    (let s := linkState 3#32 1#32 3#32 4#32 true (replyP2.drop 4) (List.replicate 10 yes)
     s.ready = true ∧ leadsTo (exec .hostExecuteSpi s)
       (fun t => t.regs.status.done && t.regs.err != 4#8 && t.regs.err != 5#8) = true) := by decide +kernel

theorem witness_ShutdownReleasesOwnerOpens :
    (let s := idle .absent [] [yes]
     s.ready = true ∧ s.edge.answers = yes :: [] ∧ yes.reset = false) ∧
    ({ closed (idle .absent [] []) with pending := [.openTransport] } : State).pending = .openTransport :: [] := by
  decide +kernel

theorem witness_ReservedSelectorRaises : (idle .absent [] []).ready = true := rfl

theorem witness_NoPartialPayload :
    (let s := linkState 4#32 0#32 1#32 0#32 false reply5 (List.replicate 11 yes)
     s.ready = true ∧ leadsTo (exec .treXchg s) (fun t => t.regs.err == 4#8) = true) ∧
    (let s := linkState 9#32 0#32 3#32 1#32 true [] [no]
     s.ready = true ∧ leadsTo (exec .hostExecuteSpi s) (fun t => t.regs.err == 5#8) = true) := by decide +kernel

/-- An engine halted by a store failure, with an operation presented to it. -/
def haltedState : State :=
  let s := linkState 10#32 0#32 0#32 0#32 false [] []
  { s with
    regs := { s.regs with err := 5#8, status := s.regs.status.stopped }
    pending := [.hostWrite 0 2#32] }

theorem witness_OperationsNeedIdleEngine :
    portOf .seqNext = .op ∧ haltedState.regs.status.halted = true ∧
    (let s := (idle .absent [] []).begin 0x9#4
     s.regs.status.halted = false ∧ s.regs.status.busy = true) := by decide +kernel

theorem witness_OnlyResetLeavesHalted :
    haltedState.regs.status.halted = true ∧ leadsTo (step haltedState) (fun _ => true) = true ∧
      ∀ rest, haltedState.pending ≠ .resetInput :: rest := by
  refine ⟨rfl, by decide +kernel, ?_⟩
  intro rest h
  cases h

theorem witness_OperationEndsOrIsCut :
    portOf .seqNext = .op ∧
    (let s := linkState 4#32 0#32 0#32 0#32 false [] [yes]
     s.ready = true ∧ leadsTo (exec .seqNext s) (fun t => t.regs.status.done) = true) ∧
    (let s := linkState 4#32 0#32 0#32 0#32 false [] [cut]
     s.ready = true ∧ leadsTo (exec .seqNext s) (fun t => !t.regs.status.done) = true) := by decide +kernel

theorem witness_TimeAndSentStreamOnlyGrow :
    leadsTo (step sendFour)
      (fun t => sentThree.edge.sent.length + 36 ≤ t.edge.sent.length + 18) = true := by decide +kernel

theorem witness_BoundedReadTakesFromFront :
    ∃ u, rxRead 2 5 (idle .absent [0x01#8, 0x02#8, 0x03#8] [yes]) = .ok [0x01#8, 0x02#8] u := ⟨_, rfl⟩

theorem witness_ResetInputGivesResetValues :
    ({ sentThree with pending := [.resetInput] } : State).pending = .resetInput :: [] := rfl

theorem witness_StepKeepsInvariant :
    ∃ s t, s.Inv ∧ step s = .next t ∧ (t.regs.status.done && t.regs.tre == .failed) = true :=
  have ⟨t, h, h'⟩ := eq_next_of_leadsTo (o := step sendFour)
    (p := fun t => t.regs.status.done && t.regs.tre == .failed) (by decide +kernel)
  ⟨sendFour, t, sendFour_inv, h, h'⟩

theorem witness_PersistBeforeSend :
    ∃ s t, s.Inv ∧ s.edge.sentBelowStore ∧ step s = .next t ∧ t.edge.storeIntact ∧ t.edge.notWrapped ∧
      sentNumbers t.edge.trace = [3#32, 4#32] := by
  obtain ⟨t, h, h'⟩ := eq_next_of_leadsTo (o := step sendFour)
    (p := fun t => (t.edge.trace.all fun x =>
        match x with
        | .nvWrite b w => w && b != storeBytes 0#32
        | .txWrite _ _ | .nvRead | .rxRead _ _ | .rxFlush | .now | .delay | .tpRelease => true) &&
      sentNumbers t.edge.trace == [3#32, 4#32]) (by decide +kernel)
  simp only [Bool.and_eq_true, beq_iff_eq, List.all_eq_true] at h'
  refine ⟨sendFour, t, sendFour_inv, sentThree_below, h, ?_, ?_, h'.2⟩
  · intro b hb
    simpa using h'.1 _ hb
  · intro hb
    simpa using h'.1 _ hb

theorem witness_DecodeEncodeRoundTrip :
    WellFormed (.wireFrame 7#32 1#32 0x15930AC6#32 [0xAA#8]) = true ∧
    WellFormed (.wireProbeRequest 5#32 0xA45B4531#32) = true ∧
    WellFormed (.wireSpiRequest 3#32 0x751C5B9F#32 0#32 0#32 0#32 0#32 0#32 3#32 [0x9F#8]) = true ∧
    WellFormed (.wireReply 43#32 3#32 0x74197120#32 [0x01#8, 0x02#8, 0x03#8]) = true := by decide +kernel

theorem witness_EncodeDecodedMessage : decodeWire .reply reply5 = .ok (.wireReply 0#32 5#32 0xA45B4531#32 [], []) := by
  decide +kernel

theorem witness_StepRunsPresentedInstruction :
    decode .op [(9#32).setWidth 8] = .ok (.treXchg, []) ∧
    decodeWire .request reply5 = .ok (.wireProbeRequest 5#32 0xA45B4531#32, []) ∧
    ({ sentThree with pending := [.hostWrite 0 9#32] } : State).pending = .hostWrite 0 9#32 :: [] ∧
    ({ sentThree with pending := [.arrive .request reply5] } : State).pending = .arrive .request reply5 :: [] ∧
    sentThree.pending = [] := by decide +kernel

theorem witness_ArrivalAppendsToStream :
    portOf .wireMarker ≠ .op ∧
    ({ sentThree with pending := [.arrive .reply [0x17#8]] } : State).pending = .arrive .reply [0x17#8] :: [] := by
  decide +kernel

theorem witness_HostRegisterPort :
    (let s := { sentThree with pending := [.hostWrite 6 7#32] }
     s.regs.status.busy = false ∧ s.pending = .hostWrite 6 7#32 :: [] ∧ 6 ≠ 0 ∧ 6 ∉ [3, 4, 5, 7]) ∧
    (let s := { sentThree with pending := [.hostWrite 7 7#32] }
     s.regs.status.busy = false ∧ s.pending = .hostWrite 7 7#32 :: []) ∧
    (∀ n ∈ List.range 22,
      ({ sentThree with pending := [.hostRead n] } : State).pending = .hostRead n :: []) ∧
    sentThree.regs.status.seqValid = true := by decide +kernel

theorem witness_HostBufferPort :
    (let s := { sentThree with pending := [.hostWriteTx 79 [0x01#8]] }
     s.regs.status.busy = false ∧ s.pending = .hostWriteTx 79 [0x01#8] :: [] ∧ 79 + 1 ≤ s.cfg.txCapacity) ∧
    (let s := { sentThree with pending := [.hostWriteRx 79 [0x01#8]] }
     s.pending = .hostWriteRx 79 [0x01#8] :: [] ∧ 79 + 1 ≤ s.cfg.rxCapacity) ∧
    (let s := { sentThree with pending := [.hostReadTx 44] }
     s.pending = .hostReadTx 44 :: [] ∧ 44 < s.cfg.txCapacity ∧ s.txbuf.get? 44 = some 0x9F#8) ∧
    (let s := { sentThree with pending := [.hostReadRx 0], rxbuf := [(0, 0x01#8)] }
     s.pending = .hostReadRx 0 :: [] ∧ 0 < s.cfg.rxCapacity ∧ s.rxbuf.get? 0 = some 0x01#8) ∧
    (let s := { sentThree with pending := [.hostWriteTx 80 [0x01#8]] }
     s.pending = .hostWriteTx 80 [0x01#8] :: [] ∧ s.cfg.txCapacity < 80 + 1) ∧
    (let s := { sentThree with pending := [.hostWriteRx 80 [0x01#8]] }
     s.pending = .hostWriteRx 80 [0x01#8] :: [] ∧ s.cfg.rxCapacity < 80 + 1) := by decide +kernel

end Sys2Proof.Tests.Slice0
end

section
/-! SUPPORT. How the parts of an operation end where no reset cuts them: a rule for each, from which the claims about
the operations' frames and about the invariant follow. -/

namespace Sys2Proof.Machine

open Codec

/-! ## The ends of a run -/

/-- What holds where a run was not cut: `Q` of its result and state, or `E` of the error it raised and the state it left.
Of a run that a reset cut it says nothing, since nothing of the engine's state outlives the reset (R271). -/
def Run.Ends {α : Type} (r : Run α) (Q : α → State → Prop) (E : ErrKind → State → Prop) : Prop :=
  match r with
  | .ok a s => Q a s
  | .stop (.raised e) s => E e s
  | .stop .cutByReset _ => True

section
variable {α β : Type} {Q Q' : α → State → Prop} {E E' : ErrKind → State → Prop}

theorem Run.Ends.mono {r : Run α} (h : r.Ends Q E) (hq : ∀ a s, Q a s → Q' a s) (he : ∀ e s, E e s → E' e s) :
    r.Ends Q' E' := by
  match r with
  | .ok a s => exact hq a s h
  | .stop (.raised e) s => exact he e s h
  | .stop .cutByReset _ => trivial

theorem Run.Ends.bind {r : Run α} {k : α → State → Run β} {P : β → State → Prop} (h : r.Ends Q E)
    (hk : ∀ a s, Q a s → (k a s).Ends P E) : (r.bind k).Ends P E := by
  match r with
  | .ok a s => exact hk a s h
  | .stop (.raised e) s => exact h
  | .stop .cutByReset _ => trivial

/-- A relation to the state a run has reached holds at its end, where the run raises nothing. -/
theorem Run.Ends.ofState {r : Run α} {P : State → Prop} (h : P r.state) (hr : ∀ e s, r ≠ .stop (.raised e) s) :
    r.Ends (fun _ => P) E := by
  match r with
  | .ok a s => exact h
  | .stop (.raised e) s => exact absurd rfl (hr e s)
  | .stop .cutByReset _ => trivial

theorem afterAccess_not_raised (a : EnvAnswer) (x : α) (s : State) (e : ErrKind) (t : State) :
    afterAccess a x s ≠ .stop (.raised e) t := by
  intro h
  cases (afterAccess_eq_stop h).2.1

/-- An operation with DONE set was not cut by a reset: it finished or raised an error (R28, R251, R271). -/
theorem Run.Ends.settle_done {r : Run Unit} {Q : State → Prop} (h : r.Ends (fun _ => Q) E)
    (hd : r.settle.regs.status.done = true) :
    (∃ t, Q t ∧ r.settle = t.finished) ∨ ∃ e t, E e t ∧ r.settle = t.raised e := by
  match r with
  | .ok () t => exact .inl ⟨t, h, rfl⟩
  | .stop (.raised e) t => exact .inr ⟨e, t, h, rfl⟩
  | .stop .cutByReset t => cases hd

/-- What a part leaves of the fields that no ending touches holds where the operation has settled. -/
theorem Run.Ends.settle_of {r : Run Unit} {Q P : State → Prop} (h : r.Ends (fun _ => Q) fun _ => Q)
    (hq : ∀ t, Q t → P t) (hf : ∀ t, P t → P t.finished) (hr : ∀ e t, P t → P (t.raised e))
    (hd : r.settle.regs.status.done = true) : P r.settle := by
  rcases h.settle_done hd with ⟨t, ht, e⟩ | ⟨e, t, ht, e'⟩
  · rw [e]; exact hf t (hq t ht)
  · rw [e']; exact hr e t (hq t ht)

end

/-! ## Buffers -/

/-- A buffer in canonical form with every byte below a size (R33, R34). -/
def Memory.Fits (m : Memory) (size : Nat) : Prop := m.wf = true ∧ m.below size = true

theorem Memory.Fits.nil (size : Nat) : Memory.Fits [] size := ⟨rfl, rfl⟩

theorem Memory.Fits.write {m : Memory} {size : Nat} (h : m.Fits size) {a : Nat} {bs : List Byte}
    (ha : a + bs.length ≤ size) : (m.write a bs).Fits size :=
  ⟨Memory.wf_write h.1 a bs, Memory.below_write h.2 ha⟩

theorem fits_stamped {m : Memory} {size : Nat} (h : m.Fits size) (hs : 16 ≤ size) (n : Nat) (seq : Word) :
    (stamped m n seq).Fits size := ⟨wf_stamped h.1 n seq, below_stamped h.2 hs n seq⟩

/-! ## What an operation in progress keeps -/

/-- Between operations TRE_STATE is IDLE, DONE or FAILED (R27). -/
def TreState.Rests (t : TreState) : Prop := t = .idle ∨ t = .done ∨ t = .failed

/-- What every part of an operation keeps, whether it ends well or raises an error. -/
structure State.Kept (s : State) : Prop where
  tx      : s.txbuf.Fits s.cfg.txCapacity
  rx      : s.rxbuf.Fits s.cfg.rxCapacity
  txlen   : s.regs.txlen.toNat ≤ s.cfg.txPayloadMax
  expLen  : s.regs.expLen.toNat ≤ s.cfg.rxPayloadMax
  attempt : s.regs.attempt.toNat ≤ s.regs.maxAtt.toNat
  link    : s.regs.status.linkOk = true → s.regs.status.seqValid = true

/-- What a part of an operation keeps that ends well or raises an error that is not fatal. -/
structure State.Sound (s : State) : Prop extends State.Kept s where
  tre   : s.regs.tre.Rests
  store : s.regs.status.seqValid = true → s.edge.holds s.regs.seq

/-- What holds where an operation raises an error (R30, R248, R205). -/
structure State.Raises (e : ErrKind) (s : State) : Prop where
  kept    : s.Kept
  visible : e.code ∈ visibleCodes
  tre     : s.regs.tre.Rests ∨ s.regs.tre = .build
  sound   : e.fatal = false → s.Sound

theorem State.Sound.raises {s : State} (h : s.Sound) {e : ErrKind} (he : e.code ∈ visibleCodes) : s.Raises e :=
  ⟨h.toKept, he, .inl h.tre, fun _ => h⟩

theorem State.Kept.unavailable {s : State} (h : s.Kept) (ht : s.regs.tre.Rests ∨ s.regs.tre = .build) :
    s.Raises .storeUnavailable := ⟨h, by decide, ht, nofun⟩

theorem State.Inv.sound {s : State} (h : s.Inv) (hh : s.regs.status.halted = false) : s.Sound where
  tx := ⟨h.txWf, h.txBelow⟩
  rx := ⟨h.rxWf, h.rxBelow⟩
  txlen := h.txlenFits
  expLen := h.expFits
  attempt := h.attemptBounded
  link := h.linkCounted
  tre := by
    rcases h.treRest with ht | ht | ht | ⟨-, ht⟩
    · exact .inl ht
    · exact .inr (.inl ht)
    · exact .inr (.inr ht)
    · rw [hh] at ht; cases ht
  store := fun hv => h.storeAgrees hv hh

/-- The invariant of an engine at rest that is not halted, from what its operation kept. -/
theorem State.Sound.inv {s : State} (h : s.Sound) (hb : s.regs.status.busy = false)
    (hh : s.regs.status.halted = false) (he : s.regs.err ∈ visibleCodes)
    (hf : s.regs.status.errf = (s.regs.err != 0#8)) (h5 : s.regs.err ≠ 5#8) : s.Inv where
  txWf := h.tx.1
  rxWf := h.rx.1
  txBelow := h.tx.2
  rxBelow := h.rx.2
  txlenFits := h.txlen
  expFits := h.expLen
  attemptBounded := h.attempt
  notBusy := hb
  errVisible := he
  errFlag := hf
  haltedStore := by rw [hh]; exact (beq_false_of_ne h5).symm
  linkCounted := h.link
  treRest := by
    rcases h.tre with ht | ht | ht
    · exact .inl ht
    · exact .inr (.inl ht)
    · exact .inr (.inr (.inl ht))
  storeAgrees := fun hv _ => h.store hv

/-- The invariant of an engine that `StoreUnavailable` halted (R248, R252). -/
theorem State.Kept.inv_of_halted {s : State} (h : s.Kept) (hb : s.regs.status.busy = false)
    (hh : s.regs.status.halted = true) (he : s.regs.err = 5#8) (hf : s.regs.status.errf = true)
    (ht : s.regs.tre.Rests ∨ s.regs.tre = .build) : s.Inv where
  txWf := h.tx.1
  rxWf := h.rx.1
  txBelow := h.tx.2
  rxBelow := h.rx.2
  txlenFits := h.txlen
  expFits := h.expLen
  attemptBounded := h.attempt
  notBusy := hb
  errVisible := by rw [he]; decide
  errFlag := by rw [he, hf]; rfl
  haltedStore := by rw [he, hh]; rfl
  linkCounted := h.link
  treRest := by
    rcases ht with (ht | ht | ht) | ht
    · exact .inl ht
    · exact .inr (.inl ht)
    · exact .inr (.inr (.inl ht))
    · exact .inr (.inr (.inr ⟨ht, hh⟩))
  storeAgrees := fun _ hn => by rw [hh] at hn; cases hn

/-- A state with reset values in its registers and no byte in its buffers meets the invariant (R38). -/
theorem inv_of_reset {s : State} {speed seq : Word} (hr : s.regs = Regs.reset speed seq) (htx : s.txbuf = [])
    (hrx : s.rxbuf = []) : s.Inv :=
  State.Sound.inv
    { tx := htx ▸ .nil _
      rx := hrx ▸ .nil _
      txlen := by rw [hr]; exact Nat.zero_le _
      expLen := by rw [hr]; exact Nat.zero_le _
      attempt := by rw [hr]; exact Nat.le_refl _
      link := by rw [hr]; nofun
      tre := by rw [hr]; exact .inl rfl
      store := by rw [hr]; nofun }
    (by rw [hr]; rfl) (by rw [hr]; rfl) (by rw [hr]; exact (by decide : 0#8 ∈ visibleCodes)) (by rw [hr]; rfl)
    (by rw [hr]; exact (by decide : 0#8 ≠ 5#8))

/-- The reset input leads to a state that meets the invariant, whatever stood before it (R38, R270). -/
theorem resetInput_inv (s : State) : s.resetInput.Inv := inv_of_reset rfl rfl rfl

/-- A part of an operation that leaves a sound state, or raises an error as it may. -/
def Run.KeepsSound {α : Type} (r : Run α) : Prop := r.Ends (fun _ t => t.Sound) fun e t => t.Raises e

/-- Only the fatal error has the fatal code (R241, R248). -/
theorem fatal_iff_code (e : ErrKind) : e.fatal = true ↔ e.code = 5#8 := by cases e <;> decide

theorem code_ne_zero (e : ErrKind) : (e.code != 0#8) = true := by cases e <;> rfl

/-- An operation that keeps what it must settles in a state that meets the invariant (R28, R251, R271). -/
theorem settle_inv {s : State} (hs : s.ready = true) {k : BitVec 4} {r : Run Unit} (m : Moves (s.begin k) r.state)
    (h : r.KeepsSound) : r.settle.Inv := by
  have hh : r.state.regs.status.halted = false := m.halted.trans (not_halted_of_ready hs).1
  have he : r.state.regs.err = 0#8 := m.err
  have hf : r.state.regs.status.errf = false := m.errf
  match r with
  | .ok () t =>
    have hs : t.Sound := h
    have he : t.finished.regs.err = 0#8 := he
    exact State.Sound.inv (s := t.finished) { hs with } rfl hh (he ▸ by decide) (by rw [he]; exact hf)
      (he ▸ by decide)
  | .stop (.raised e) t =>
    have hr : t.Raises e := h
    cases hfe : e.fatal with
    | false =>
      exact State.Sound.inv (s := t.raised e) { hr.sound hfe with } rfl (by simpa [hfe] using hh) hr.visible
        (code_ne_zero e).symm fun hc => by simp [(fatal_iff_code e).mpr hc] at hfe
    | true =>
      exact State.Kept.inv_of_halted (s := t.raised e) { hr.kept with } rfl (by simp [hfe]) ((fatal_iff_code e).mp hfe)
        rfl hr.tre
  | .stop .cutByReset t => exact resetInput_inv t

/-! ## Operations that neither move the counter nor exchange -/

/-- What an operation other than the counter's and the exchanges, and an access of the host, does: SEQ, the store and
the registers of the exchange stay, the buffers keep their form, LINK_OK is not set (R23, R145). -/
structure Local (s t : State) : Prop where
  cfg      : t.cfg = s.cfg
  seq      : t.regs.seq = s.regs.seq
  seqValid : t.regs.status.seqValid = s.regs.status.seqValid
  nvs      : t.edge.nvs = s.edge.nvs
  tre      : t.regs.tre = s.regs.tre
  attempt  : t.regs.attempt = s.regs.attempt
  maxAtt   : t.regs.maxAtt = s.regs.maxAtt
  expLen   : t.regs.expLen = s.regs.expLen
  link     : t.regs.status.linkOk = true → s.regs.status.linkOk = true
  tx       : s.txbuf.Fits s.cfg.txCapacity → t.txbuf.Fits s.cfg.txCapacity
  rx       : s.rxbuf.Fits s.cfg.rxCapacity → t.rxbuf.Fits s.cfg.rxCapacity
  txlen    : s.regs.txlen.toNat ≤ s.cfg.txPayloadMax → t.regs.txlen.toNat ≤ s.cfg.txPayloadMax

theorem Local.refl (s : State) : Local s s := ⟨rfl, rfl, rfl, rfl, rfl, rfl, rfl, rfl, id, id, id, id⟩

theorem Local.trans {a b c : State} (h : Local a b) (h' : Local b c) : Local a c where
  cfg := h'.cfg.trans h.cfg
  seq := h'.seq.trans h.seq
  seqValid := h'.seqValid.trans h.seqValid
  nvs := h'.nvs.trans h.nvs
  tre := h'.tre.trans h.tre
  attempt := h'.attempt.trans h.attempt
  maxAtt := h'.maxAtt.trans h.maxAtt
  expLen := h'.expLen.trans h.expLen
  link hl := h.link (h'.link hl)
  tx hf := h.cfg ▸ h'.tx (h.cfg ▸ h.tx hf)
  rx hf := h.cfg ▸ h'.rx (h.cfg ▸ h.rx hf)
  txlen hf := h.cfg ▸ h'.txlen (h.cfg ▸ h.txlen hf)

theorem Local.kept {s t : State} (h : Local s t) (hs : s.Kept) : t.Kept where
  tx := h.cfg ▸ h.tx hs.tx
  rx := h.cfg ▸ h.rx hs.rx
  txlen := h.cfg ▸ h.txlen hs.txlen
  expLen := by rw [h.expLen, h.cfg]; exact hs.expLen
  attempt := by rw [h.attempt, h.maxAtt]; exact hs.attempt
  link hl := h.seqValid.trans (hs.link (h.link hl))

theorem Local.sound {s t : State} (h : Local s t) (hs : s.Sound) : t.Sound where
  toKept := h.kept hs.toKept
  tre := h.tre ▸ hs.tre
  store hv := by rw [Edge.holds, h.nvs, h.seq]; exact hs.store (h.seqValid.symm.trans hv)

/-- The invariant is carried over an access that leaves STATUS and ERR. -/
theorem Local.inv {s t : State} (h : Local s t) (hst : t.regs.status = s.regs.status) (he : t.regs.err = s.regs.err)
    (hi : s.Inv) : t.Inv where
  txWf := (h.tx ⟨hi.txWf, hi.txBelow⟩).1
  rxWf := (h.rx ⟨hi.rxWf, hi.rxBelow⟩).1
  txBelow := h.cfg ▸ (h.tx ⟨hi.txWf, hi.txBelow⟩).2
  rxBelow := h.cfg ▸ (h.rx ⟨hi.rxWf, hi.rxBelow⟩).2
  txlenFits := h.cfg ▸ h.txlen hi.txlenFits
  expFits := by rw [h.expLen, h.cfg]; exact hi.expFits
  attemptBounded := by rw [h.attempt, h.maxAtt]; exact hi.attemptBounded
  notBusy := by rw [hst]; exact hi.notBusy
  errVisible := by rw [he]; exact hi.errVisible
  errFlag := by rw [hst, he]; exact hi.errFlag
  haltedStore := by rw [hst, he]; exact hi.haltedStore
  linkCounted := by rw [hst]; exact hi.linkCounted
  treRest := by rw [h.tre, hst]; exact hi.treRest
  storeAgrees := by rw [hst, Edge.holds, h.nvs, h.seq]; exact hi.storeAgrees

/-- The errors that an operation raises which neither moves the counter nor exchanges: visible and not fatal. -/
def ErrKind.minor (e : ErrKind) : Bool := e == .allocationFailure || e == .notReady || e == .illegalOperation

theorem ErrKind.minor_visible {e : ErrKind} (h : e.minor = true) : e.code ∈ visibleCodes := by
  revert h
  cases e <;> decide

/-- A run that is local to the registers and buffers it works on, however it ends. -/
def Run.IsLocal {α : Type} (s : State) (r : Run α) : Prop :=
  r.Ends (fun _ t => Local s t) fun e t => e.minor = true ∧ Local s t

theorem Run.IsLocal.after {α : Type} {s u : State} {r : Run α} (h : Local s u) (hr : r.IsLocal u) : r.IsLocal s :=
  hr.mono (fun _ _ ht => h.trans ht) fun _ _ ht => ⟨ht.1, h.trans ht.2⟩

theorem Run.IsLocal.bind {α β : Type} {s : State} {r : Run α} {k : α → State → Run β} (h : r.IsLocal s)
    (hk : ∀ a u, (k a u).IsLocal u) : (r.bind k).IsLocal s :=
  Run.Ends.bind h fun a u hu => (hk a u).mono (fun _ _ ht => hu.trans ht) fun _ _ ht => ⟨ht.1, hu.trans ht.2⟩

theorem Run.IsLocal.sound {s : State} {r : Run Unit} (h : r.IsLocal s) (hs : s.Sound) : r.KeepsSound :=
  h.mono (fun _ _ ht => ht.sound hs) fun _ _ ht => (ht.2.sound hs).raises (ErrKind.minor_visible ht.1)

theorem begin_local (s : State) (k : BitVec 4) : Local s (s.begin k) := { Local.refl s with }

theorem txbuf_write_local {s : State} {a : Nat} {bs : List Byte} (h : a + bs.length ≤ s.cfg.txCapacity) :
    Local s { s with txbuf := s.txbuf.write a bs } := { Local.refl s with tx := fun hf => hf.write h }

theorem rxbuf_write_local {s : State} {a : Nat} {bs : List Byte} (h : a + bs.length ≤ s.cfg.rxCapacity) :
    Local s { s with rxbuf := s.rxbuf.write a bs } := { Local.refl s with rx := fun hf => hf.write h }

theorem frmLayout_local (cmd : Word) (n : Nat) (s : State) : (frmLayout cmd n s).IsLocal s := by
  by_cases h : n ≤ s.cfg.txPayloadMax
  · rw [frmLayout_fits h]
    have hn : n < 4294967280 := Nat.lt_of_le_of_lt h s.cfg.txPayloadMax_lt
    exact { Local.refl s with
      tx := fun hf => hf.write (by simp [Params.txCapacity_eq])
      txlen := fun _ => by
        rw [BitVec.toNat_ofNat, Nat.mod_eq_of_lt (by omega)]
        exact h }
  · rw [frmLayout_full (by omega)]
    exact ⟨rfl, .refl s⟩

theorem frmStamp_local (seq : Word) (s : State) : (frmStamp seq s).IsLocal s := by
  rw [frmStamp_eq]
  exact { Local.refl s with tx := fun hf => fits_stamped hf (by rw [Params.txCapacity_eq]; omega) _ _ }

theorem frmEncode_local (cmd : Word) (n : Nat) (seq : Word) (s : State) : (frmEncode cmd n seq s).IsLocal s :=
  (frmLayout_local cmd n s).bind fun _ u => frmStamp_local seq u

theorem frmDechdr_local (s : State) : (frmDechdr s).IsLocal s := by
  change Local s _
  exact { Local.refl s with }

theorem frmVerify_local (len : Nat) (s : State) : (frmVerify len s).IsLocal s := by
  unfold frmVerify
  split
  · exact ⟨rfl, .refl s⟩
  · dsimp only
    split
    · change Local s _
      exact { Local.refl s with }
    · change Local s _
      exact { Local.refl s with }

theorem crc32Body_local (s : State) : (crc32Body s).IsLocal s := by
  unfold crc32Body
  split
  · exact ⟨rfl, .refl s⟩
  · change Local s _
    exact { Local.refl s with }

theorem synAwait_local (bound : Nat) (s : State) : (synAwait bound s).IsLocal s := by
  have h := synAwait_searched bound s
  refine .ofState (P := Local s) ?_ (synAwait_not_raised bound s)
  rw [h.only]
  exact { Local.refl s with nvs := h.reads.nvs }

theorem cmbSpi_local (w r : Word) (s : State) : (cmbSpi w r s).IsLocal s := by
  unfold cmbSpi
  split
  · exact ⟨rfl, .refl s⟩
  · simp only [Config.headerSize_eq, argumentAt_eq, Nat.reduceMul, Nat.reduceAdd, writeWord_argumentBlock]
    refine Run.IsLocal.after (txbuf_write_local ?_) (frmLayout_local ..)
    have := s.cfg.le_txPayloadMax
    rw [length_argumentBlock, Params.txCapacity_eq]; omega

theorem withLink_false_local (s : State) : Local s (s.withLink false) := { Local.refl s with link := nofun }

theorem shutdownBody_local (s : State) : (shutdownBody s).IsLocal s := by
  refine Run.Ends.bind (Q := fun _ t => Local s t) ?_ fun _ u hu => hu.trans (withLink_false_local u)
  obtain ⟨h, hn, -⟩ := tpRelease_state s
  refine .ofState (P := Local s) ?_ (afterAccess_not_raised _ _ _)
  rw [h]
  exact { Local.refl s with nvs := hn }

/-- The operations that neither move the counter nor exchange (R145), each with what it does. -/
theorem exec_local {i : Instr} (hi : portOf i = .op)
    (hn : i ∉ [Instr.seqLoad, .seqNext, .treXchg, .hostInitialize, .hostExecuteSpi]) :
    ∃ (k : BitVec 4) (pre : State → Option Refusal) (body : State → Run Unit),
      (∀ s, exec i s = operate k pre body s) ∧ (∀ u, Moves u (body u).state) ∧ ∀ u, (body u).IsLocal u := by
  cases i with
  | crc32 => exact ⟨_, _, crc32Body, fun _ => rfl, crc32Body_moves, crc32Body_local⟩
  | frmLayout =>
    exact ⟨_, noPrecondition, frmLayoutBody, fun _ => rfl, fun _ => frmLayout_moves _ _ _,
      fun _ => frmLayout_local _ _ _⟩
  | frmStamp => exact ⟨_, _, frmStampBody, fun _ => rfl, fun _ => frmStamp_moves _ _, fun _ => frmStamp_local _ _⟩
  | frmEncode =>
    exact ⟨_, _, frmEncodeBody, fun _ => rfl, fun _ => frmEncode_moves _ _ _ _, fun _ => frmEncode_local _ _ _ _⟩
  | frmDechdr => exact ⟨_, _, frmDechdr, fun _ => rfl, frmDechdr_moves, frmDechdr_local⟩
  | frmVerify =>
    exact ⟨_, _, frmVerifyBody, fun _ => rfl, frmVerifyBody_moves,
      fun _ => (frmVerify_local _ _).bind fun _ => Local.refl⟩
  | synAwait =>
    exact ⟨_, _, synAwaitBody, fun _ => rfl, synAwaitBody_moves,
      fun _ => (synAwait_local _ _).bind fun _ => Local.refl⟩
  | cmbProbe =>
    exact ⟨_, noPrecondition, cmbProbe, fun _ => rfl, fun _ => frmLayout_moves _ _ _, fun _ => frmLayout_local _ _ _⟩
  | cmbSpi =>
    exact ⟨_, noPrecondition, cmbSpiBody, fun _ => rfl, fun _ => cmbSpi_moves _ _ _, fun _ => cmbSpi_local _ _ _⟩
  | hostShutdown => exact ⟨_, noPrecondition, shutdownBody, fun _ => rfl, shutdownBody_moves, shutdownBody_local⟩
  | reservedF => exact ⟨_, noPrecondition, reservedBody, fun _ => rfl, Moves.refl, fun s => ⟨rfl, .refl s⟩⟩
  | seqLoad | seqNext | treXchg | hostInitialize | hostExecuteSpi => simp at hn
  | wireMarker | wireFrame _ _ _ _ | wireProbeRequest _ _ | wireSpiRequest _ _ _ _ _ _ _ _ _ | wireReply _ _ _ _ =>
    cases hi

/-- Settles O13: the operations outside the list are local. -/
theorem otherOperationsKeepCounter : Obligations.OtherOperationsKeepCounter := by
  intro s t i hi hr hn h hd
  obtain ⟨k, pre, body, he, -, hl⟩ := exec_local hi hn
  obtain ⟨rfl, -⟩ := exec_ready he hr h
  rcases (hl (s.begin k)).settle_done hd with ⟨u, hu, ht⟩ | ⟨e, u, ⟨-, hu⟩, ht⟩
  · rw [ht]; exact ⟨hu.seq, hu.nvs, hu.seqValid⟩
  · rw [ht]; exact ⟨hu.seq, hu.nvs, hu.seqValid⟩

end Sys2Proof.Machine
end

section
/-! SUPPORT. How the counter's operations and an exchange end where no reset cuts them (R136 to R208). -/

namespace Sys2Proof.Machine

open Codec

/-! ## The counter -/

/-- What a load or an allocation changes: SEQ, RES and the edge; SEQ_VALID is never cleared (R136 to R141). -/
structure Counted (s t : State) : Prop where
  only     : t = { s with
    regs := { s.regs with
      seq := t.regs.seq, res := t.regs.res, status := { s.regs.status with seqValid := t.regs.status.seqValid } }
    edge := t.edge }
  tpOpen   : t.edge.tpOpen = s.edge.tpOpen
  seqValid : s.regs.status.seqValid = true → t.regs.status.seqValid = true

/-- What holds where the counter was loaded or moved without an error: the store holds it (R137, R138). -/
structure Counts (s t : State) : Prop extends Counted s t where
  valid : t.regs.status.seqValid = true
  store : t.edge.holds t.regs.seq

theorem Counted.trans {a b c : State} (h : Counted a b) (h' : Counted b c) : Counted a c := by
  refine ⟨?_, h'.tpOpen.trans h.tpOpen, fun hv => h'.seqValid (h.seqValid hv)⟩
  conv_lhs => rw [h'.only, h.only]

theorem Counted.kept {s t : State} (h : Counted s t) (hs : s.Kept) : t.Kept := by
  rw [h.only]
  exact { hs with link := fun hl => h.seqValid (hs.link hl) }

theorem Counted.tre {s t : State} (h : Counted s t) : t.regs.tre = s.regs.tre := by rw [h.only]

theorem Counts.sound {s t : State} (h : Counts s t) (hs : s.Sound) : t.Sound where
  toKept := h.toCounted.kept hs.toKept
  tre := h.toCounted.tre ▸ hs.tre
  store := fun _ => h.store

theorem holds_storeBytes {e : Edge} {v : Word} (h : e.nvs = .bytes (storeBytes v)) : e.holds v :=
  ⟨_, h, (length_wordBytes ..).ge, bytesWord_wordBytes ..⟩

/-- `NvWrite` of a value that SEQ has taken. -/
theorem nvWrite_ends (s : State) (v : Word) {E : ErrKind → State → Prop} :
    (nvWrite (storeBytes v) (s.withSeq v)).Ends
      (fun ok t => Counted s t ∧ t.regs.status = s.regs.status ∧ t.regs.seq = v ∧ (ok = true → t.edge.holds v)) E := by
  cases h : nvWrite (storeBytes v) (s.withSeq v) with
  | ok ok t =>
    have p := nvWrite_eq_ok h
    refine ⟨⟨?_, p.tpOpen, ?_⟩, ?_, ?_, fun hok => holds_storeBytes (p.nvs hok)⟩
    · conv_lhs => rw [p.only]
      rw [p.only]; rfl
    · rw [p.only]; exact id
    · rw [p.only]; rfl
    · rw [p.only]; rfl
  | stop w t => rw [(nvWrite_eq_stop h).1]; trivial

theorem Counts.after {a b c : State} (h : Counted a b) (h' : Counts b c) : Counts a c :=
  ⟨h.trans h'.toCounted, h'.valid, h'.store⟩

theorem seqFresh_ends (s : State) : (seqFresh s).Ends (fun _ t => Counts s t)
    fun e t => e = .storeUnavailable ∧ Counted s t := by
  refine (nvWrite_ends s Config.seqInit).bind fun ok t ⟨hc, _, hq, hn⟩ => ?_
  cases ok with
  | true =>
    exact ⟨hc.trans ⟨rfl, rfl, fun _ => rfl⟩, rfl, by rw [show t.counterLoaded.regs.seq = _ from hq]; exact hn rfl⟩
  | false => exact ⟨rfl, hc⟩

theorem answer_eq_bytes {n : Store} {b : List Byte} (h : Store.answer n = .bytes b) : n = .bytes b := by
  cases n with
  | absent => cases h
  | bytes c => cases h; rfl

/-- `SEQ.LOAD` (R136, R137, R140). -/
theorem seqLoadBody_ends (s : State) : (seqLoadBody s).Ends (fun _ t => Counts s t)
    fun e t => e = .storeUnavailable ∧ Counted s t := by
  have q := nvRead_quiet s
  unfold seqLoadBody
  cases h : nvRead s with
  | stop w t => rw [(afterAccess_eq_stop h).2.1]; trivial
  | ok r t =>
    rw [h] at q
    have hc : Counted s t := by
      have e : t = { s with edge := t.edge } := q.only
      refine ⟨?_, q.tpOpen, ?_⟩
      · conv_lhs => rw [e]
        rw [e]
      · rw [e]; exact id
    have hfresh : (seqFresh t).Ends (fun _ u => Counts s u) fun e u => e = .storeUnavailable ∧ Counted s u :=
      (seqFresh_ends t).mono (fun _ _ hu => .after hc hu) fun _ _ hu => ⟨hu.1, hc.trans hu.2⟩
    rw [Run.bind_ok]
    cases r with
    | fail => exact ⟨rfl, hc⟩
    | absent => exact hfresh
    | bytes b =>
      dsimp only
      split
      · exact hfresh
      · rename_i hl
        have hb : t.edge.nvs = .bytes b := q.nvs.trans (answer_eq_bytes ((nvRead_eq_ok h).resolve_left nofun).symm)
        exact ⟨hc.trans ⟨rfl, rfl, fun _ => rfl⟩, rfl, b, hb, Nat.le_of_not_lt hl, rfl⟩

/-- `SEQ.NEXT` as a part of an operation (R138 to R141). -/
theorem seqNext_ends (s : State) : (seqNext s).Ends (fun _ t => Counts s t)
    fun e t => e = .notReady ∧ t = s ∨ e = .storeUnavailable ∧ Counted s t := by
  unfold seqNext
  split
  · exact .inl ⟨rfl, rfl⟩
  · rename_i hv
    have hv : s.regs.status.seqValid = true := by simpa using hv
    refine (nvWrite_ends s (s.regs.seq + 1#32)).bind fun ok t ⟨hc, hs, hq, hn⟩ => ?_
    cases ok with
    | true => exact ⟨hc.trans ⟨rfl, rfl, id⟩, (congrArg Status.seqValid hs).trans hv, by rw [← hq] at hn; exact hn rfl⟩
    | false => exact .inr ⟨rfl, hc⟩

/-! ## The exchange -/

/-- What an exchange has done after `n` attempts were started: the registers of the exchange and the counter, bytes 8 to
15 of TXBUF, RXBUF and the edge (R186 to R204). -/
structure Exchanging (exp max : Word) (n : Nat) (s t : State) : Prop where
  only    : t = { s with
    regs := { s.regs with
      expLen := exp, maxAtt := max, attempt := BitVec.ofNat 32 n, seq := t.regs.seq, curseq := t.regs.curseq
      res := t.regs.res, crcAcc := t.regs.crcAcc, rcmd := t.regs.rcmd, rplen := t.regs.rplen, rseq := t.regs.rseq
      rcsum := t.regs.rcsum, tre := t.regs.tre, syn := t.regs.syn }
    txbuf := t.txbuf, rxbuf := t.rxbuf, edge := t.edge, freeUsed := t.freeUsed, failures := t.failures }
  tpOpen  : t.edge.tpOpen = s.edge.tpOpen
  outside : ∀ a, a < 8 ∨ 16 ≤ a → t.txbuf.get? a = s.txbuf.get? a
  tx      : ∀ size, 16 ≤ size → s.txbuf.Fits size → t.txbuf.Fits size

/-- What an exchange keeps of RXBUF unless it loses the reply (R33, R34, R189). -/
structure ReplyKept (exp : Word) (s t : State) : Prop where
  outside : ∀ a, 16 + exp.toNat ≤ a → t.rxbuf.get? a = s.rxbuf.get? a
  fits    : exp.toNat ≤ s.cfg.rxPayloadMax → s.rxbuf.Fits s.cfg.rxCapacity → t.rxbuf.Fits s.cfg.rxCapacity

theorem Exchanging.start (exp max : Word) (s : State) : Exchanging exp max 0 s
    { s with regs := { s.regs with expLen := exp, maxAtt := max, attempt := 0#32 }, failures := [] } :=
  ⟨rfl, rfl, fun _ _ => rfl, fun _ _ => id⟩

section
variable {exp max : Word} {n : Nat} {s a t : State}

theorem Exchanging.built (h : Exchanging exp max n s a) (b : Built a t) : Exchanging exp max (n + 1) s t := by
  have ht : t.txbuf = stamped a.txbuf a.regs.txlen.toNat a.regs.seq := by rw [b.only]
  refine ⟨?_, b.tpOpen.trans h.tpOpen, fun x hx => ?_, fun size hs hf => ?_⟩
  · have hl : a.regs.txlen = s.regs.txlen := by rw [h.only]
    conv_lhs => rw [b.only, h.only]
    rw [b.only]
    simp [BitVec.ofNat_add, hl]
  · rw [ht, get?_stamped_outside hx, h.outside x hx]
  · rw [ht]; exact fits_stamped (h.tx size hs hf) hs _ _

theorem Exchanging.notBuilt (h : Exchanging exp max n s a) (b : NotBuilt a t) : Exchanging exp max (n + 1) s t := by
  have ht : t.txbuf = a.txbuf := by rw [b.only]
  refine ⟨?_, b.tpOpen.trans h.tpOpen, fun x hx => ?_, fun size hs hf => ?_⟩
  · conv_lhs => rw [b.only, h.only]
    rw [b.only]
    simp [BitVec.ofNat_add]
  · rw [ht, h.outside x hx]
  · rw [ht]; exact h.tx size hs hf

/-- What the exchange does between two builds. -/
theorem Exchanging.step (h : Exchanging exp max n s a) (only : t = { a with
      regs := { a.regs with
        res := t.regs.res, crcAcc := t.regs.crcAcc, rcmd := t.regs.rcmd, rplen := t.regs.rplen, rseq := t.regs.rseq
        rcsum := t.regs.rcsum, tre := t.regs.tre, syn := t.regs.syn }
      rxbuf := t.rxbuf, edge := t.edge, freeUsed := t.freeUsed, failures := t.failures })
    (ho : t.edge.tpOpen = a.edge.tpOpen) : Exchanging exp max n s t := by
  have ht : t.txbuf = a.txbuf := by rw [only]
  refine ⟨?_, ho.trans h.tpOpen, fun x hx => ?_, fun size hs hf => ?_⟩
  · conv_lhs => rw [only, h.only]
    rw [only]
  · rw [ht, h.outside x hx]
  · rw [ht]; exact h.tx size hs hf

theorem Exchanging.tried (h : Exchanging exp max n s a) (b : Tried exp a t) : Exchanging exp max n s t := by
  refine h.step ?_ b.tpOpen
  conv_lhs => rw [b.only]
  rw [b.only]

theorem Exchanging.retried {f : AttemptFailure} (h : Exchanging exp max n s a) (b : Retried f a t) :
    Exchanging exp max n s t := by
  refine h.step ?_ b.reads.tpOpen
  conv_lhs => rw [b.only]
  rw [b.only]

theorem ReplyKept.of_rxbuf (h : ReplyKept exp s a) (hr : t.rxbuf = a.rxbuf) : ReplyKept exp s t :=
  ⟨hr ▸ h.outside, hr ▸ h.fits⟩

theorem ReplyKept.tried (h : ReplyKept exp s a) (hc : a.cfg = s.cfg) (b : Tried exp a t) : ReplyKept exp s t where
  outside x hx := (b.outside x hx).trans (h.outside x hx)
  fits he hf := by
    have hb := b.below (hc ▸ he) (hc ▸ (h.fits he hf).2)
    exact ⟨b.wf (h.fits he hf).1, hc ▸ hb⟩

end

/-- An exchange that its preconditions let through (R186 to R188). -/
structure Exchanged (exp max : Word) (s t : State) : Prop where
  attempts : ∃ n, n ≤ max.toNat ∧ Exchanging exp max n s t
  valid    : s.regs.status.seqValid = true
  fits     : exp.toNat ≤ s.cfg.rxPayloadMax

/-- An exchange that ended well (R199 to R201). -/
structure Replied (exp max : Word) (s t : State) : Prop extends Exchanged exp max s t where
  reply : ReplyKept exp s t
  tre   : t.regs.tre = .done
  store : t.edge.holds t.regs.seq

/-- The errors of an exchange (R188, R190, R202, R207, R250), and what each leaves. -/
inductive XchgFails (exp max : Word) (s : State) : ErrKind → State → Prop where
  | notReady : XchgFails exp max s .notReady s
  | full : XchgFails exp max s .allocationFailure s
  | exhausted {t : State} (x : Exchanged exp max s t) (rx : t.rxbuf = []) (tre : t.regs.tre = .failed)
      (store : s.edge.holds s.regs.seq → t.edge.holds t.regs.seq) : XchgFails exp max s .retriesExhausted t
  | unavailable {t : State} (x : Exchanged exp max s t) (rx : t.rxbuf = []) (tre : t.regs.tre = .build) :
      XchgFails exp max s .storeUnavailable t

/-- What holds of the states between two attempts. -/
structure BetweenAttempts (exp max : Word) (s : State) (n : Nat) (a : State) : Prop where
  exchanging : Exchanging exp max n s a
  reply      : ReplyKept exp s a
  store      : s.edge.holds s.regs.seq → a.edge.holds a.regs.seq

theorem Built.holds {a m : State} (b : Built a m) : m.edge.holds m.regs.seq := by
  rw [show m.regs.seq = a.regs.seq + 1#32 by rw [b.only]]
  exact holds_storeBytes b.nvs

theorem Tried.holds {exp : Word} {m t : State} (h : Tried exp m t) (hm : m.edge.holds m.regs.seq) :
    t.edge.holds t.regs.seq := by
  rw [show t.regs.seq = m.regs.seq by rw [h.only], Edge.holds, h.nvs]
  exact hm

theorem Retried.holds {f : AttemptFailure} {m t : State} (h : Retried f m t) (hm : m.edge.holds m.regs.seq) :
    t.edge.holds t.regs.seq := by
  rw [show t.regs.seq = m.regs.seq by rw [h.only], Edge.holds, h.reads.nvs]
  exact hm

theorem Exchanging.cfg {exp max : Word} {n : Nat} {s t : State} (h : Exchanging exp max n s t) : t.cfg = s.cfg := by
  rw [h.only]

theorem Exchanging.status {exp max : Word} {n : Nat} {s t : State} (h : Exchanging exp max n s t) :
    t.regs.status = s.regs.status := by
  rw [h.only]

theorem Built.cfg {a m : State} (b : Built a m) : m.cfg = a.cfg := by rw [b.only]
theorem Built.rxbuf {a m : State} (b : Built a m) : m.rxbuf = a.rxbuf := by rw [b.only]
theorem Retried.rxbuf {f : AttemptFailure} {m t : State} (h : Retried f m t) : t.rxbuf = m.rxbuf := by rw [h.only]

theorem BetweenAttempts.attempt {exp max : Word} {s : State} {n : Nat} {a m t u : State} {f : AttemptFailure}
    (h : BetweenAttempts exp max s n a) (b : Built a m) (tr : Tried exp m t) (re : Retried f t u) :
    BetweenAttempts exp max s (n + 1) u where
  exchanging := ((h.exchanging.built b).tried tr).retried re
  reply := ((h.reply.of_rxbuf b.rxbuf).tried (b.cfg.trans h.exchanging.cfg) tr).of_rxbuf re.rxbuf
  store _ := re.holds (tr.holds b.holds)

/-- How an exchange ends that no reset cuts (R186 to R208). -/
theorem treXchg_ends (exp max : Word) (s : State) :
    (treXchg exp max s).Ends (fun _ t => Replied exp max s t) (XchgFails exp max s) := by
  cases hv : s.regs.status.seqValid with
  | false => rw [treXchg_notReady hv]; exact .notReady
  | true =>
    by_cases he : exp.toNat ≤ s.cfg.rxPayloadMax
    · rw [treXchg_loop hv he]
      have start : BetweenAttempts exp max s 0 _ := ⟨.start exp max s, ⟨fun _ _ => rfl, fun _ => id⟩, id⟩
      have x {n : Nat} {t : State} (hn : n ≤ max.toNat) (h : Exchanging exp max n s t) : Exchanged exp max s t :=
        ⟨⟨n, hn, h⟩, hv, he⟩
      rcases treAttempts_end (I := BetweenAttempts exp max s)
          (fun k a h => ⟨(congrArg Status.seqValid h.exchanging.status).trans hv, h.exchanging.cfg ▸ he⟩)
          (fun k a m t f u h b tr re => h.attempt b tr re) max.toNat 0 _ start with
        ⟨j, a, m, t, hj, h, b, tr, -, e⟩ | ⟨a, h, e⟩ | ⟨j, a, t, hj, h, b, hr, e⟩ | ⟨j, a, t, -, -, e, -⟩
      · rw [e]
        have ht := (h.exchanging.built b).tried tr
        exact {
          toExchanged := x (by omega) (ht.step rfl rfl)
          reply := ((h.reply.of_rxbuf b.rxbuf).tried (b.cfg.trans h.exchanging.cfg) tr).of_rxbuf rfl
          tre := rfl
          store := tr.holds b.holds }
      · rw [e]
        exact .exhausted (x (by omega) (h.exchanging.step rfl rfl)) rfl rfl h.store
      · rw [e]
        exact .unavailable (x (by omega) (h.exchanging.notBuilt b)) hr (by rw [b.only])
      · rw [e]; trivial
    · rw [treXchg_full hv (by omega)]; exact .full

end Sys2Proof.Machine
end

section
/-! SUPPORT. Every step keeps the invariant: what each operation and each event does to it. -/

namespace Sys2Proof.Machine

open Codec

/-! ## The exchanging operations -/

theorem Exchanged.status {exp max : Word} {s t : State} (x : Exchanged exp max s t) : t.regs.status = s.regs.status :=
  have ⟨_, _, h⟩ := x.attempts
  h.status

theorem Exchanged.kept {exp max : Word} {s t : State} (x : Exchanged exp max s t) (hs : s.Kept)
    (rx : t.rxbuf.Fits s.cfg.rxCapacity) : t.Kept := by
  obtain ⟨n, hn, h⟩ := x.attempts
  have tx := h.tx _ (by rw [Params.txCapacity_eq]; omega) hs.tx
  rw [h.only]
  exact { hs with
    tx := tx
    rx := rx
    expLen := x.fits
    attempt := by
      rw [BitVec.toNat_ofNat]
      exact (Nat.mod_le _ _).trans hn }

theorem Replied.sound {exp max : Word} {s t : State} (x : Replied exp max s t) (hs : s.Sound) : t.Sound where
  toKept := x.kept hs.toKept (x.reply.fits x.fits hs.rx)
  tre := .inr (.inl x.tre)
  store _ := x.store

theorem XchgFails.raises {exp max : Word} {s t : State} {e : ErrKind} (h : XchgFails exp max s e t) (hs : s.Sound) :
    t.Raises e := by
  cases h with
  | notReady => exact hs.raises (by decide)
  | full => exact hs.raises (by decide)
  | exhausted x rx tre store =>
    have hk := x.kept hs.toKept (rx ▸ .nil _)
    exact State.Sound.raises { hk with tre := .inr (.inr tre), store := fun _ => store (hs.store x.valid) } (by decide)
  | unavailable x rx tre => exact (x.kept hs.toKept (rx ▸ .nil _)).unavailable (.inr tre)

theorem treXchg_sound (exp max : Word) {s : State} (hs : s.Sound) : (treXchg exp max s).KeepsSound :=
  (treXchg_ends exp max s).mono (fun _ _ h => h.sound hs) fun _ _ h => h.raises hs

theorem Counted.raises {s t : State} (h : Counted s t) (hs : s.Sound) : t.Raises .storeUnavailable :=
  (h.kept hs.toKept).unavailable (.inl (h.tre ▸ hs.tre))

theorem seqLoadBody_sound {s : State} (hs : s.Sound) : (seqLoadBody s).KeepsSound :=
  (seqLoadBody_ends s).mono (fun _ _ h => h.sound hs) fun _ _ ⟨he, h⟩ => he ▸ h.raises hs

theorem seqNextBody_sound {s : State} (hs : s.Sound) : (seqNextBody s).KeepsSound := by
  refine Run.Ends.bind (Q := fun _ t => t.Sound) ((seqNext_ends s).mono (fun _ _ h => h.sound hs) ?_) fun _ _ h => h
  rintro e t (⟨rfl, rfl⟩ | ⟨rfl, h⟩)
  · exact hs.raises (by decide)
  · exact h.raises hs

/-- `INITIALIZE`: LINK_OK is set only after an exchange, which needs the counter loaded (R188, R221). -/
theorem startBody_sound {s : State} (hs : s.Sound) : (startBody s).KeepsSound := by
  refine (seqLoadBody_sound ((withLink_false_local s).sound hs)).bind fun _ u hu => ?_
  refine ((frmLayout_local _ _ u).sound hu).bind fun _ v hv => ?_
  refine Run.Ends.bind (Q := fun _ t => t.Sound ∧ t.regs.status.seqValid = true)
    ((treXchg_ends 0#32 v.regs.arg1 v).mono (fun _ _ h => ⟨h.sound hv, ?_⟩) fun _ _ h => h.raises hv)
    fun _ w ⟨hw, hq⟩ => ?_
  · rw [h.status]; exact h.valid
  · exact { hw with link := fun _ => hq }

theorem spiBody_sound {s : State} (hs : s.Sound) : (spiBody s).KeepsSound := by
  unfold spiBody
  split
  · exact hs.raises (by decide)
  · split
    · exact hs.raises (by decide)
    · exact ((cmbSpi_local _ _ s).sound hs).bind fun _ u hu => treXchg_sound _ _ hu

/-- Every operation leads from a sound state to a sound state. -/
theorem exec_sound {i : Instr} (hi : portOf i = .op) : ∃ (k : BitVec 4) (pre : State → Option Refusal)
    (body : State → Run Unit), (∀ s, exec i s = operate k pre body s) ∧ (∀ u, Moves u (body u).state) ∧
      ∀ u, u.Sound → (body u).KeepsSound := by
  by_cases hn : i ∈ [Instr.seqLoad, .seqNext, .treXchg, .hostInitialize, .hostExecuteSpi]
  · simp only [List.mem_cons, List.not_mem_nil, or_false] at hn
    rcases hn with rfl | rfl | rfl | rfl | rfl
    · exact ⟨_, noPrecondition, seqLoadBody, fun _ => rfl, seqLoadBody_moves, fun _ => seqLoadBody_sound⟩
    · exact ⟨_, noPrecondition, seqNextBody, fun _ => rfl, seqNextBody_moves, fun _ => seqNextBody_sound⟩
    · exact ⟨_, _, treXchgBody, fun _ => rfl, fun _ => treXchg_moves _ _ _, fun _ => treXchg_sound _ _⟩
    · exact ⟨_, _, startBody, fun _ => rfl, startBody_moves, fun _ => startBody_sound⟩
    · exact ⟨_, _, spiBody, fun _ => rfl, spiBody_moves, fun _ => spiBody_sound⟩
  · obtain ⟨k, pre, body, he, hm, hl⟩ := exec_local hi hn
    exact ⟨k, pre, body, he, hm, fun u => (hl u).sound⟩

/-- Executing an instruction keeps the invariant: an operation, or a message that arrives. -/
theorem exec_inv {i : Instr} {s t : State} (hs : s.Inv) (h : exec i s = .next t) : t.Inv := by
  by_cases hi : portOf i = .op
  · obtain ⟨k, pre, body, he, hm, hk⟩ := exec_sound hi
    rw [he] at h
    rcases operate_eq_next h with ⟨-, rfl⟩ | ⟨hr, -, rfl⟩
    · exact hs
    · exact settle_inv hr (hm _) (hk _ ((begin_local s k).sound (hs.sound (not_halted_of_ready hr).1)))
  · rw [exec_wire hi] at h
    cases h
    exact Local.inv { Local.refl s with } rfl rfl hs

/-! ## Accesses of the host and other events -/

theorem writeReg_local (s : State) (n : Nat) (v : Word) :
    Local s (writeReg s n v) ∧ (writeReg s n v).regs.status = s.regs.status ∧
      (writeReg s n v).regs.err = s.regs.err := by
  unfold writeReg
  split <;> exact ⟨{ Local.refl s with }, rfl, rfl⟩

theorem whileIdle_eq_next {s t : State} {k : Host.Outcome State Fault Refusal} (h : whileIdle s k = .next t) :
    k = .next t := by
  unfold whileIdle at h
  split at h
  · cases h
  · exact h

/-- An event keeps the invariant. -/
theorem runEvent_inv {e : Event} {s t : State} (hs : s.Inv) (h : runEvent e s = .next t) : t.Inv := by
  cases e with
  | hostWrite n v =>
    cases n with
    | zero =>
      simp only [runEvent, hostWrite, startOperation] at h
      split at h
      · exact exec_inv hs h
      · cases h; exact hs
    | succ n =>
      cases whileIdle_eq_next h
      obtain ⟨hl, hst, he⟩ := writeReg_local s (n + 1) v
      exact hl.inv hst he hs
  | hostRead n =>
    cases whileIdle_eq_next h
    exact Local.inv { Local.refl s with } rfl rfl hs
  | hostWriteTx off bytes =>
    have h := whileIdle_eq_next h
    split at h
    · cases h
    · cases h
      exact (txbuf_write_local (Nat.le_of_not_lt ‹_›)).inv rfl rfl hs
  | hostWriteRx off bytes =>
    have h := whileIdle_eq_next h
    split at h
    · cases h
    · cases h
      exact (rxbuf_write_local (Nat.le_of_not_lt ‹_›)).inv rfl rfl hs
  | hostReadTx off | hostReadRx off =>
    have h := whileIdle_eq_next h
    split at h
    · cases h
    · cases h
      exact Local.inv { Local.refl s with } rfl rfl hs
  | arrive p bytes =>
    simp only [runEvent, arrive] at h
    split at h
    · exact exec_inv hs h
    · cases h; exact Local.inv { Local.refl s with } rfl rfl hs
    · cases h; exact Local.inv { Local.refl s with } rfl rfl hs
  | openTransport => cases h; exact Local.inv { Local.refl s with } rfl rfl hs
  | resetInput => cases h; exact resetInput_inv s

/-- Settles O52: a step is an event, and every event keeps the invariant. -/
theorem stepKeepsInvariant : Obligations.StepKeepsInvariant := by
  intro s t hs h
  unfold step runNext at h
  split at h
  · cases h; exact hs
  · rename_i e rest _
    have hr : State.Inv { s with pending := rest } := Local.inv { Local.refl s with } rfl rfl hs
    exact runEvent_inv hr h

end Sys2Proof.Machine
end

section
/-! SUPPORT. What the operations that exchange leave alone, and how every operation ends. -/

namespace Sys2Proof.Machine

open Codec

/-- What the buffers and the transport keep: the bytes of TXBUF in a range, and those of RXBUF beyond an expected reply,
unless the reply is lost and RXBUF holds no value at all (R33, R34, R189, R290). -/
structure BuffersKept (tx : Nat → Prop) (exp : Word) (lost : Prop) (s t : State) : Prop where
  tx     : ∀ a, tx a → t.txbuf.get? a = s.txbuf.get? a
  rx     : (∀ a, 16 + exp.toNat ≤ a → t.rxbuf.get? a = s.rxbuf.get? a) ∨ (lost ∧ t.rxbuf = [])
  tpOpen : t.edge.tpOpen = s.edge.tpOpen

/-- The errors with which an exchange loses the reply (R290). -/
def ErrKind.losesReply (e : ErrKind) : Prop := e = .retriesExhausted ∨ e = .storeUnavailable

section
variable {P Q : Nat → Prop} {exp : Word} {L : Prop} {s t u : State}

/-- Nothing of the buffers is touched. -/
theorem BuffersKept.of_eq (ht : t.txbuf = s.txbuf) (hr : t.rxbuf = s.rxbuf) (ho : t.edge.tpOpen = s.edge.tpOpen) :
    BuffersKept P exp L s t :=
  ⟨fun _ _ => by rw [ht], .inl fun _ _ => by rw [hr], ho⟩

theorem BuffersKept.trans (h : BuffersKept P exp False s u) (h' : BuffersKept P exp L u t) :
    BuffersKept P exp L s t where
  tx a ha := (h'.tx a ha).trans (h.tx a ha)
  rx := by
    rcases h.rx with h1 | ⟨hf, -⟩
    · exact h'.rx.imp_left fun h2 a ha => (h2 a ha).trans (h1 a ha)
    · exact hf.elim
  tpOpen := h'.tpOpen.trans h.tpOpen

theorem BuffersKept.mono (h : BuffersKept P exp L s t) (hp : ∀ a, Q a → P a) : BuffersKept Q exp L s t :=
  ⟨fun a ha => h.tx a (hp a ha), h.rx, h.tpOpen⟩

/-- A run that keeps the buffers, however it ends. -/
def Run.KeepsBuffers {α : Type} (P : Nat → Prop) (exp : Word) (s : State) (r : Run α) : Prop :=
  r.Ends (fun _ t => BuffersKept P exp False s t) fun e t => BuffersKept P exp e.losesReply s t

theorem Run.KeepsBuffers.mono {α : Type} {r : Run α} (h : r.KeepsBuffers P exp s) (hp : ∀ a, Q a → P a) :
    r.KeepsBuffers Q exp s :=
  Run.Ends.mono h (fun _ _ ht => ht.mono hp) fun _ _ ht => ht.mono hp

theorem Run.KeepsBuffers.after {α : Type} {r : Run α} (h : BuffersKept P exp False s u) (hr : r.KeepsBuffers P exp u) :
    r.KeepsBuffers P exp s :=
  Run.Ends.mono hr (fun _ _ ht => h.trans ht) fun _ _ ht => h.trans ht

theorem Run.KeepsBuffers.bind {α β : Type} {r : Run α} {k : α → State → Run β} (h : r.KeepsBuffers P exp s)
    (hk : ∀ a u, r = .ok a u → (k a u).KeepsBuffers P exp u) : (r.bind k).KeepsBuffers P exp s := by
  match r with
  | .ok a u => exact .after h (hk a u rfl)
  | .stop (.raised e) u => exact h
  | .stop .cutByReset _ => trivial

/-- How the buffers stand where an operation ended that no reset cut. -/
theorem Run.KeepsBuffers.settle {r : Run Unit} (h : r.KeepsBuffers P exp s) (hd : r.settle.regs.status.done = true) :
    (∀ a, P a → r.settle.txbuf.get? a = s.txbuf.get? a) ∧
    (∀ a, 16 + exp.toNat ≤ a → r.settle.rxbuf.get? a = s.rxbuf.get? a ∨ r.settle.rxbuf.get? a = none) ∧
    (r.settle.regs.err ≠ 4#8 → r.settle.regs.err ≠ 5#8 →
      ∀ a, 16 + exp.toNat ≤ a → r.settle.rxbuf.get? a = s.rxbuf.get? a) ∧
    r.settle.edge.tpOpen = s.edge.tpOpen := by
  rcases Run.Ends.settle_done h hd with ⟨t, ht, e⟩ | ⟨e, t, ht, e'⟩
  · rw [e]
    have hr := ht.rx.resolve_right fun h => h.1
    exact ⟨ht.tx, fun a ha => .inl (hr a ha), fun _ _ => hr, ht.tpOpen⟩
  · rw [e']
    refine ⟨ht.tx, fun a ha => ?_, fun h4 h5 => ht.rx.resolve_right ?_, ht.tpOpen⟩
    · rcases ht.rx with hr | ⟨-, hr⟩
      · exact .inl (hr a ha)
      · exact .inr (by rw [State.raised_rxbuf, hr]; rfl)
    · rintro ⟨rfl | rfl, -⟩
      · exact h4 rfl
      · exact h5 rfl

end

/-- An exchange writes bytes 8 to 15 of TXBUF and the expected reply in RXBUF (R189, R194, R197). -/
theorem treXchg_buffers (exp max : Word) (s : State) :
    (treXchg exp max s).KeepsBuffers (fun a => a < 8 ∨ 16 ≤ a) exp s := by
  refine (treXchg_ends exp max s).mono (fun _ t h => ?_) fun e t h => ?_
  · obtain ⟨n, -, x⟩ := h.attempts
    exact ⟨x.outside, .inl h.reply.outside, x.tpOpen⟩
  · cases h with
    | notReady => exact .of_eq rfl rfl rfl
    | full => exact .of_eq rfl rfl rfl
    | exhausted h rx =>
      obtain ⟨n, -, x⟩ := h.attempts
      exact ⟨x.outside, .inr ⟨.inl rfl, rx⟩, x.tpOpen⟩
    | unavailable h rx =>
      obtain ⟨n, -, x⟩ := h.attempts
      exact ⟨x.outside, .inr ⟨.inr rfl, rx⟩, x.tpOpen⟩

/-- An exchange leaves TXLEN, SEQ_VALID and LINK_OK, however it ends (R204). -/
theorem treXchg_flags (exp max : Word) (s : State) : (treXchg exp max s).Ends
    (fun _ t => t.regs.txlen = s.regs.txlen ∧ t.regs.status = s.regs.status)
    fun _ t => t.regs.txlen = s.regs.txlen ∧ t.regs.status = s.regs.status := by
  have hx {t : State} (h : Exchanged exp max s t) : t.regs.txlen = s.regs.txlen ∧ t.regs.status = s.regs.status := by
    obtain ⟨n, -, x⟩ := h.attempts
    exact ⟨by rw [x.only], x.status⟩
  refine (treXchg_ends exp max s).mono (fun _ t h => hx h.toExchanged) fun e t h => ?_
  cases h with
  | notReady => exact ⟨rfl, rfl⟩
  | full => exact ⟨rfl, rfl⟩
  | exhausted h => exact hx h
  | unavailable h => exact hx h

/-- An operation that halts the engine ended with `StoreUnavailable` (R248, R252). -/
theorem exec_halted_store {i : Instr} (hi : portOf i = .op) {s t : State} (hr : s.ready = true)
    (h : exec i s = .next t) (hh : t.regs.status.halted = true) : t.regs.err = 5#8 := by
  have hn := (not_halted_of_ready hr).1
  rcases exec_op_eq_next hi h with ⟨hs, -⟩ | ⟨-, k, r, rfl, m⟩
  · rw [hn] at hs; cases hs
  · have hm : r.state.regs.status.halted = false := m.halted.trans hn
    match r with
    | .ok () u => rw [show (Run.ok () u).settle.regs.status.halted = false from hm] at hh; cases hh
    | .stop (.raised e) u =>
      have hf : (u.regs.status.halted || e.fatal) = true := hh
      rw [show u.regs.status.halted = false from hm, Bool.false_or] at hf
      exact (fatal_iff_code e).mp hf
    | .stop .cutByReset u => cases hh

/-- Settles O47: the three endings of an operation, and what its body leaves alone. -/
theorem operationEndsOrIsCut : Obligations.OperationEndsOrIsCut := by
  intro s t i hi hr h
  rcases exec_op_eq_next hi h with ⟨hs, -⟩ | ⟨-, k, r, rfl, m⟩
  · rw [(not_halted_of_ready hr).1] at hs; cases hs
  · match r with
    | .ok () u =>
      exact ⟨m.cfg, m.pending, m.hostData, fun _ => ⟨rfl, m.arg0, m.arg1, m.arg2, m.speed⟩, nofun⟩
    | .stop (.raised e) u =>
      exact ⟨m.cfg, m.pending, m.hostData, fun _ => ⟨rfl, m.arg0, m.arg1, m.arg2, m.speed⟩, nofun⟩
    | .stop .cutByReset u =>
      have hc : u.cfg = s.cfg := m.cfg
      exact ⟨m.cfg, m.pending, m.hostData, nofun, fun _ => ⟨⟨u.freeWord, by rw [← hc]; rfl⟩, rfl, rfl, rfl⟩⟩

/-- Settles O34: what the loop of attempts leaves alone, at each of its ends. -/
theorem exchangeFrame : Obligations.ExchangeFrame := by
  intro s t hr h hd
  obtain ⟨-, -, -, hargs, -⟩ := operationEndsOrIsCut s t .treXchg rfl hr h
  obtain ⟨-, h0, h1, h2, hsp⟩ := hargs hd
  have hh := exec_halted_store rfl hr h
  obtain ⟨rfl, -⟩ := exec_ready (k := 0x9#4) (pre := xchgPrecondition) (body := treXchgBody) (fun _ => rfl) hr h
  obtain ⟨tx, rx, rx', ho⟩ := (treXchg_buffers s.regs.arg0 s.regs.arg1 (s.begin 0x9#4)).settle hd
  obtain ⟨hl, hv, hk⟩ : _ ∧ _ ∧ _ := (treXchg_flags s.regs.arg0 s.regs.arg1 (s.begin 0x9#4)).settle_of
    (P := fun t => t.regs.txlen = s.regs.txlen ∧ t.regs.status.seqValid = s.regs.status.seqValid ∧
      t.regs.status.linkOk = s.regs.status.linkOk)
    (fun t ⟨hl, hs⟩ => ⟨hl, by rw [hs]; rfl, by rw [hs]; rfl⟩) (fun _ h => h) (fun _ _ h => h) hd
  exact ⟨h0, h1, h2, hsp, hl, hv, hk, hh, tx, rx, rx', ho⟩

/-! ## The host operations that exchange -/

theorem seqLoadBody_buffers (P : Nat → Prop) (exp : Word) (s : State) : (seqLoadBody s).KeepsBuffers P exp s := by
  have hc {L : Prop} {t : State} (h : Counted s t) : BuffersKept P exp L s t :=
    .of_eq (by rw [h.only]) (by rw [h.only]) h.tpOpen
  exact (seqLoadBody_ends s).mono (fun _ _ h => hc h.toCounted) fun _ _ h => hc h.2

theorem cmbProbe_buffers (exp : Word) (s : State) : (cmbProbe s).KeepsBuffers (16 ≤ ·) exp s := by
  rw [cmbProbe, frmLayout_fits (Nat.zero_le _)]
  exact ⟨fun a ha => Memory.get?_write_outside (.inr (by rw [length_headerBytes]; omega)), .inl fun _ _ => rfl, rfl⟩

/-- `INITIALIZE` lays out its header and exchanges for a reply without payload (R216, R221). -/
theorem startBody_buffers (s : State) : (startBody s).KeepsBuffers (16 ≤ ·) 0#32 s := by
  refine .bind (.after (u := s.withLink false) (.of_eq rfl rfl rfl) (seqLoadBody_buffers _ _ _)) fun _ u _ => ?_
  refine (cmbProbe_buffers _ u).bind fun _ v _ => ?_
  exact ((treXchg_buffers _ _ v).mono fun _ => .inr).bind fun _ w _ => .of_eq rfl rfl rfl

/-- `CMB.SPI` writes the header and the argument block (R96, R217). -/
theorem cmbSpi_buffers (w r exp : Word) (s : State) : (cmbSpi w r s).KeepsBuffers (44 ≤ ·) exp s := by
  by_cases h : w.toNat ≤ s.maxWriteBytes
  · rw [cmbSpi_of_le h]
    refine ⟨fun a ha => ?_, .inl fun _ _ => rfl, rfl⟩
    rw [Memory.get?_write_outside (.inr (by rw [length_headerBytes]; omega)),
      Memory.get?_write_outside (.inr (by rw [length_argumentBlock]; exact ha))]
  · rw [cmbSpi_full (by omega)]
    exact BuffersKept.of_eq rfl rfl rfl

/-- `EXECUTE_SPI` lays out its request and exchanges for the read bytes (R224). -/
theorem spiBody_buffers (s : State) : (spiBody s).KeepsBuffers (44 ≤ ·) s.regs.arg1 s := by
  unfold spiBody
  split
  · exact BuffersKept.of_eq rfl rfl rfl
  · split
    · exact BuffersKept.of_eq rfl rfl rfl
    · refine (cmbSpi_buffers _ _ _ s).bind fun _ u hu => ?_
      have m := cmbSpi_moves s.regs.arg0 s.regs.arg1 s
      rw [hu] at m
      rw [← show u.regs.arg1 = s.regs.arg1 from m.arg1]
      exact (treXchg_buffers _ _ u).mono fun a ha => .inr (by omega)

/-- `EXECUTE_SPI` leaves SEQ_VALID and LINK_OK (R29). -/
theorem spiBody_status (s : State) : (spiBody s).Ends (fun _ t => t.regs.status = s.regs.status)
    fun _ t => t.regs.status = s.regs.status := by
  unfold spiBody
  split
  · rfl
  · split
    · rfl
    · refine Run.Ends.bind (Q := fun _ t => t.regs.status = s.regs.status) ?_ fun _ u hu =>
        (treXchg_flags _ _ u).mono (fun _ _ h => h.2.trans hu) fun _ _ h => h.2.trans hu
      by_cases h : s.regs.arg0.toNat ≤ s.maxWriteBytes
      · rw [cmbSpi_of_le h]; rfl
      · rw [cmbSpi_full (by omega)]; rfl

/-- Settles O41: the two host operations keep the buffers part by part. -/
theorem hostOperationFrame : Obligations.HostOperationFrame := by
  intro s t hr hd
  constructor
  · intro h
    have hh := exec_halted_store rfl hr h
    obtain ⟨rfl, -⟩ := exec_ready (k := 0xC#4) (pre := startPrecondition) (body := startBody) (fun _ => rfl) hr h
    obtain ⟨tx, rx, rx', ho⟩ := (startBody_buffers (s.begin 0xC#4)).settle hd
    exact ⟨tx, rx, rx', hh, ho⟩
  · intro h
    have hh := exec_halted_store rfl hr h
    obtain ⟨rfl, -⟩ := exec_ready (k := 0xD#4) (pre := spiPrecondition) (body := spiBody) (fun _ => rfl) hr h
    obtain ⟨tx, rx, rx', ho⟩ := (spiBody_buffers (s.begin 0xD#4)).settle hd
    obtain ⟨hv, hk⟩ : _ ∧ _ := (spiBody_status (s.begin 0xD#4)).settle_of
      (P := fun t => t.regs.status.seqValid = s.regs.status.seqValid ∧ t.regs.status.linkOk = s.regs.status.linkOk)
      (fun t hs => ⟨by rw [hs]; rfl, by rw [hs]; rfl⟩) (fun _ h => h) (fun _ _ h => h) hd
    exact ⟨tx, rx, rx', hv, hk, hh, ho⟩

end Sys2Proof.Machine
end

section
/-! SUPPORT. A message that decodes encodes to the bytes it was read from (R91, R95), and it is a wire row. -/

namespace Sys2Proof

open Codec Machine

/-- The word that a string begins with has the string's first four bytes. -/
theorem wordBytes_bytesWord_take (o : ByteOrder) {l : List Byte} (h : 4 ≤ l.length) :
    wordBytes o (bytesWord o l) = l.take 4 := by
  match l, h with
  | a :: b :: c :: d :: rest, _ => rw [wordBytes_bytesWord]; rfl

/-- The header fields of a string, written out, are its first 16 bytes. -/
theorem headerBytes_decodeHeader (o : ByteOrder) {l : List Byte} (h : 16 ≤ l.length) :
    headerBytes o (decodeHeader o l).command (decodeHeader o l).payloadLength (decodeHeader o l).sequence
      (decodeHeader o l).checksum = l.take 16 := by
  have hw (k : Nat) (hk : k + 4 ≤ 16) : wordBytes o (bytesWord o (l.drop k)) = (l.drop k).take 4 :=
    wordBytes_bytesWord_take o (by rw [List.length_drop]; omega)
  have h0 := hw 0 (by omega)
  rw [List.drop_zero] at h0
  rw [headerBytes, decodeHeader_eq, h0, hw 4 (by omega), hw 8 (by omega), hw 12 (by omega), ← List.take_add,
    ← List.take_add, ← List.take_add]

/-- The argument words of a payload with its count of write bytes, written out, are the payload (R96, R98). -/
theorem spiPayload_argumentWords {command : Word} {p : List Byte} (h : isSpiShape command p = true) :
    spiPayload (argumentWord p 0) (argumentWord p 1) (argumentWord p 2) (argumentWord p 3) (argumentWord p 4)
      (argumentWord p 6) (p.drop 28) = p := by
  obtain ⟨-, hl, h5⟩ := isSpiShape_iff.mp h
  have hcount : lengthWord (p.drop 28) = bytesWord Config.byteOrder (p.drop 20) := by
    rw [lengthWord, List.length_drop, ← h5, BitVec.ofNat_toNat, BitVec.setWidth_eq]
  have hw (k : Nat) (hk : k + 4 ≤ 28) :
      wordBytes Config.byteOrder (bytesWord Config.byteOrder (p.drop k)) = (p.drop k).take 4 :=
    wordBytes_bytesWord_take _ (by rw [List.length_drop]; omega)
  have h0 := hw 0 (by omega)
  simp only [spiPayload, argumentBlock, argumentWord_eq, hcount, Nat.reduceMul, hw 4 (by omega), hw 8 (by omega),
    hw 12 (by omega), hw 16 (by omega), hw 20 (by omega), hw 24 (by omega)]
  rw [h0, List.drop_zero, ← List.take_add, ← List.take_add, ← List.take_add, ← List.take_add, ← List.take_add,
    ← List.take_add, List.take_append_drop]

/-- The bytes of a decoded request are those of its fields, whatever its shape (R97, R98, R102). -/
theorem encode_ofRequest (command seq checksum : Word) (payload : List Byte) :
    encode (ofRequest command seq checksum payload) = encodeMessage command seq checksum payload := by
  unfold ofRequest
  split
  · rename_i h
    simp only [isProbeShape, Bool.and_eq_true, beq_iff_eq, List.isEmpty_iff] at h
    obtain ⟨rfl, rfl⟩ := h
    rfl
  · split
    · rename_i h
      rw [encode, Config.spiArgBytes_eq, spiPayload_argumentWords h, (isSpiShape_iff.mp h).1]
      rfl
    · rfl

theorem encode_ofFrame (p : Port) (h : Header) (payload : List Byte) :
    encode (ofFrame p h payload) = encodeMessage h.command h.sequence h.checksum payload := by
  cases p with
  | reply => rfl
  | op | request => exact encode_ofRequest _ _ _ _

theorem portOf_ofRequest (command seq checksum : Word) (payload : List Byte) :
    portOf (ofRequest command seq checksum payload) ≠ .op := by
  unfold ofRequest
  split
  · nofun
  · split <;> nofun

theorem portOf_ofFrame (p : Port) (h : Header) (payload : List Byte) : portOf (ofFrame p h payload) ≠ .op := by
  cases p with
  | reply => nofun
  | op | request => exact portOf_ofRequest _ _ _ _

/-- What a frame that decodes is. -/
theorem decodeFrame_eq_ok {p : Port} {body rest : List Byte} {i : Instr} (h : decodeFrame p body = .ok (i, rest)) :
    encode i ++ rest = Config.marker ++ body ∧ portOf i ≠ .op := by
  by_cases h16 : body.length < 16
  · rw [decodeFrame, Config.headerSize_eq, if_pos h16] at h
    cases h
  by_cases hp : (body.drop 16).length < (decodeHeader Config.byteOrder body).payloadLength.toNat
  · rw [decodeFrame, Config.headerSize_eq, if_neg h16, if_pos hp] at h
    cases h
  rw [decodeFrame, Config.headerSize_eq, if_neg h16, if_neg hp] at h
  have hh := headerBytes_decodeHeader Config.byteOrder (l := body) (by omega)
  generalize decodeHeader Config.byteOrder body = d at h hp hh
  cases h
  have hl : lengthWord ((body.drop 16).take d.payloadLength.toNat) = d.payloadLength := by
    rw [lengthWord, List.length_take, Nat.min_eq_left (by omega), BitVec.ofNat_toNat, BitVec.setWidth_eq]
  refine ⟨?_, portOf_ofFrame _ _ _⟩
  rw [encode_ofFrame, encodeMessage, hl, hh, List.append_assoc, List.append_assoc, List.take_append_drop,
    List.take_append_drop]

/-- A message that decodes encodes to the bytes it was read from (R91, R95), and is no operation (R103). -/
theorem decodeWire_eq_ok {p : Port} {bytes rest : List Byte} {i : Instr} (h : decodeWire p bytes = .ok (i, rest)) :
    encode i ++ rest = bytes ∧ portOf i ≠ .op := by
  unfold decodeWire at h
  split at h
  · rename_i a b body
    split at h
    · rename_i hm
      obtain ⟨rfl, rfl⟩ := hm
      split at h
      · rename_i he
        cases h
        rw [List.isEmpty_iff.mp he]
        exact ⟨rfl, nofun⟩
      · exact decodeFrame_eq_ok h
    · cases h
  · cases h

end Sys2Proof
end

section
/-! SUPPORT. What a step does as a whole, and the host's ports (R28 to R34, R36, R106). -/

namespace Sys2Proof.Machine

open Codec

/-- Settles O48: an operation's body only moves on, and nothing else touches time, the sent stream or the history. -/
theorem timeAndSentStreamOnlyGrow : Obligations.TimeAndSentStreamOnlyGrow := by
  intro s t h
  have grows : s.edge.Grows t.edge := by
    rcases step_cases h with ⟨-, rfl⟩ | ⟨e, rest, -, ⟨i, hi, -⟩ | ⟨-, rfl⟩ | ⟨-, ha⟩⟩
    · exact .refl _
    · by_cases ho : portOf i = .op
      · rcases exec_op_eq_next ho hi with ⟨-, rfl⟩ | ⟨-, k, r, rfl, m⟩
        · exact .refl _
        · rw [settle_edge]; exact m.grows
      · rw [exec_wire ho] at hi
        cases hi
        exact ⟨Nat.le_refl _, List.prefix_refl _, List.prefix_refl _⟩
    · exact .refl _
    · exact ⟨ha.now.ge, by rw [ha.sent], by rw [ha.trace]⟩
  exact ⟨grows.now, grows.sent, grows.trace⟩

/-- Settles O45: every operation tests HALTED, then BUSY, before anything else. -/
theorem operationsNeedIdleEngine : Obligations.OperationsNeedIdleEngine := by
  intro s i hi
  obtain ⟨k, pre, body, he, -⟩ := exec_op hi
  rw [he]
  exact ⟨fun hh => by rw [operate, if_pos hh], fun hh hb => by rw [operate, if_neg (by simp [hh]), if_pos hb]⟩

theorem step_of_pending {s : State} {e : Event} {rest : List Event} (h : s.pending = e :: rest) :
    step s = runEvent e { s with pending := rest } := by
  simp only [step, runNext, h]

/-- Settles O50: the reset input writes the reset values. -/
theorem resetInputGivesResetValues : Obligations.ResetInputGivesResetValues := by
  intro s rest h
  refine ⟨State.resetInput { s with pending := rest }, by rw [step_of_pending h]; rfl, ?_⟩
  have hstatus : Status.byte ⟨false, false, false, false, false, false⟩ = 0#8 := by decide
  exact ⟨hstatus, rfl, rfl, rfl, rfl, rfl, rfl, rfl, rfl, rfl, rfl, rfl, rfl, rfl, rfl, rfl, rfl, rfl, rfl,
    fun _ => ⟨rfl, rfl⟩, rfl, rfl⟩

/-- Settles O51: the buffers are empty, the counter is not loaded, and nothing was sent. -/
theorem resetMeetsInvariant : Obligations.ResetMeetsInvariant := ⟨inv_of_reset rfl rfl rfl, nofun⟩

/-- Settles O57: the event in front decides what the step runs. -/
theorem stepRunsPresentedInstruction : Obligations.StepRunsPresentedInstruction := by
  intro s rest
  refine ⟨fun v i h hd => ?_, fun p bytes i h hd => ?_, fun h => ?_⟩
  · rw [step_of_pending h]
    simp only [runEvent, hostWrite, startOperation, hd]
  · rw [step_of_pending h]
    simp only [runEvent, arrive, hd]
  · simp only [step, runNext, h]

/-- Settles O58: a whole message that arrives is a wire row, whose encoding is the bytes that arrived. -/
theorem arrivalAppendsToStream : Obligations.ArrivalAppendsToStream := by
  refine ⟨fun s p bytes rest h => ?_, fun s i hi => exec_wire hi s⟩
  rw [step_of_pending h]
  simp only [runEvent, arrive]
  split
  · rename_i i hd
    obtain ⟨hb, hi⟩ := decodeWire_eq_ok hd
    rw [List.append_nil] at hb
    rw [exec_wire hi, hb]
    rfl
  · rfl
  · rfl

/-! ## The host's ports -/

theorem whileIdle_pending {s : State} (hb : s.regs.status.busy = false) {rest : List Event}
    (k : Host.Outcome State Fault Refusal) : whileIdle { s with pending := rest } k = k := by
  simp only [whileIdle, hb, Bool.false_eq_true, if_false]

theorem writeReg_readOnly (s : State) {n : Nat} (h : n ∉ [3, 4, 5, 7]) (v : Word) : writeReg s n v = s := by
  unfold writeReg
  split
  any_goals simp at h
  rfl

/-- The bits of STATUS (R29). -/
theorem getLsbD_statusByte (f : Status) (k : Nat) : (Status.byte f).getLsbD k =
    [f.busy, f.done, f.errf, f.halted, f.seqValid, f.linkOk].getD k false := by
  simp only [Status.byte, BitVec.getLsbD_append, BitVec.getLsbD_ofBool]
  match k with
  | 0 | 1 | 2 | 3 | 4 | 5 | 6 | 7 => simp
  | k + 8 => simp

theorem getLsbD_readReg_status (s : State) (k : Nat) : (readReg s 1).getLsbD k =
    [s.regs.status.busy, s.regs.status.done, s.regs.status.errf, s.regs.status.halted, s.regs.status.seqValid,
      s.regs.status.linkOk].getD k false := by
  rw [← getLsbD_statusByte]
  simp only [readReg, BitVec.getLsbD_setWidth]
  by_cases h : k < 32
  · simp [h]
  · rw [BitVec.getLsbD_of_ge _ k (by omega), Bool.and_false]

theorem readReg_above (s : State) {n : Nat} (h : 20 < n) : readReg s n = 0#32 := by
  unfold readReg
  split
  any_goals omega
  rfl

/-- Settles O59: each number of the table, one by one. -/
theorem hostRegisterPort : Obligations.HostRegisterPort := by
  intro s n v rest hb
  refine ⟨fun h h0 hn => ?_, fun r hr h => ?_, fun h => ?_⟩
  · obtain ⟨m, rfl⟩ := Nat.exists_eq_succ_of_ne_zero h0
    rw [step_of_pending h]
    simp only [runEvent, hostWrite, whileIdle_pending hb]
    rw [writeReg_readOnly _ hn]
  · rw [step_of_pending h]
    simp only [List.mem_cons, Prod.mk.injEq, List.not_mem_nil, or_false] at hr
    rcases hr with ⟨rfl, rfl⟩ | ⟨rfl, rfl⟩ | ⟨rfl, rfl⟩ | ⟨rfl, rfl⟩
    all_goals
      simp only [runEvent, hostWrite, whileIdle_pending hb]
      rfl
  · refine ⟨State.answered { s with pending := rest } (readReg { s with pending := rest } n), ?_, rfl, ?_⟩
    · rw [step_of_pending h]
      simp only [runEvent, whileIdle_pending hb]
    · refine ⟨fun w hw => ?_, ?_, ?_, ?_, ?_, readReg_above _⟩
      · simp only [List.mem_cons, Prod.mk.injEq, List.not_mem_nil, or_false] at hw
        rcases hw with ⟨rfl, rfl⟩ | ⟨rfl, rfl⟩ | ⟨rfl, rfl⟩ | ⟨rfl, rfl⟩ | ⟨rfl, rfl⟩ | ⟨rfl, rfl⟩ | ⟨rfl, rfl⟩ |
          ⟨rfl, rfl⟩ | ⟨rfl, rfl⟩ | ⟨rfl, rfl⟩ | ⟨rfl, rfl⟩ | ⟨rfl, rfl⟩ | ⟨rfl, rfl⟩ | ⟨rfl, rfl⟩ | ⟨rfl, rfl⟩ |
          ⟨rfl, rfl⟩ | ⟨rfl, rfl⟩
        all_goals rfl
      · rintro rfl k
        exact getLsbD_readReg_status _ k
      · rintro rfl hv
        exact if_pos hv
      · rintro rfl w hw
        simp only [List.mem_cons, Prod.mk.injEq, List.not_mem_nil, or_false] at hw
        show (TreState.code s.regs.tre).setWidth 32 = w
        rcases hw with ⟨ht, rfl⟩ | ⟨ht, rfl⟩ | ⟨ht, rfl⟩ | ⟨ht, rfl⟩ | ⟨ht, rfl⟩ | ⟨ht, rfl⟩ | ⟨ht, rfl⟩ | ⟨ht, rfl⟩ |
          ⟨ht, rfl⟩ | ⟨ht, rfl⟩
        all_goals rw [ht]; rfl
      · rintro rfl w hw
        simp only [List.mem_cons, Prod.mk.injEq, List.not_mem_nil, or_false] at hw
        show (SynState.code s.regs.syn).setWidth 32 = w
        rcases hw with ⟨ht, rfl⟩ | ⟨ht, rfl⟩
        all_goals rw [ht]; rfl

/-- Settles O60: the laws of `Memory.write` and `readByte` at the port. -/
theorem hostBufferPort : Obligations.HostBufferPort := by
  intro s off bytes rest hb
  refine ⟨fun h hl => ?_, fun h hl => ?_, fun b h hl hg => ?_, fun b h hl hg => ?_, fun h hl => ?_, fun h hl => ?_⟩
  · refine ⟨{ s with pending := rest, txbuf := s.txbuf.write off bytes }, ?_, rfl, ?_⟩
    · rw [step_of_pending h]
      simp only [runEvent, hostWriteTx, whileIdle_pending hb, if_neg (Nat.not_lt.mpr hl)]
    · exact ⟨Memory.written_write_self _ (Nat.le_refl _) (Nat.le_refl _), Memory.read_write_self .., fun a =>
        Memory.get?_write_outside⟩
  · refine ⟨{ s with pending := rest, rxbuf := s.rxbuf.write off bytes }, ?_, rfl, ?_⟩
    · rw [step_of_pending h]
      simp only [runEvent, hostWriteRx, whileIdle_pending hb, if_neg (Nat.not_lt.mpr hl)]
    · exact ⟨Memory.written_write_self _ (Nat.le_refl _) (Nat.le_refl _), Memory.read_write_self .., fun a =>
        Memory.get?_write_outside⟩
  · refine ⟨State.answered { s with pending := rest } (b.setWidth 32), ?_, rfl, rfl, rfl⟩
    rw [step_of_pending h]
    simp only [runEvent, hostReadTx, whileIdle_pending hb, if_neg (Nat.not_le.mpr hl), readByte, hg, Option.getD_some]
  · refine ⟨State.answered { s with pending := rest } (b.setWidth 32), ?_, rfl, rfl, rfl⟩
    rw [step_of_pending h]
    simp only [runEvent, hostReadRx, whileIdle_pending hb, if_neg (Nat.not_le.mpr hl), readByte, hg, Option.getD_some]
  · rw [step_of_pending h]
    simp only [runEvent, hostWriteTx, whileIdle_pending hb, if_pos hl]
  · rw [step_of_pending h]
    simp only [runEvent, hostWriteRx, whileIdle_pending hb, if_pos hl]

end Sys2Proof.Machine
end

section
/-! SUPPORT. The bounded read as a whole, and why every number handed to the transport stays below the store (R70, R73). -/

namespace Sys2Proof.Machine

open Codec

/-- Settles O49: the bytes taken and the bytes left split what stood there followed by what arrived. -/
theorem boundedReadTakesFromFront : Obligations.BoundedReadTakesFromFront := by
  intro n t s u r h
  obtain ⟨q, hl⟩ := rxRead_eq_ok h
  obtain ⟨-, rfl, hu⟩ := afterAccess_eq_ok h
  have hnow : u.edge.now = s.edge.now + min s.edge.answer.1.elapsed t := by simp [← hu]
  have hrx : u.edge.rx = (s.edge.rx ++ s.edge.answer.1.arrived).drop (min n s.edge.answer.1.count) := by simp [← hu]
  refine ⟨s.edge.answer.1.arrived, hl, ?_, q.now, by omega, ?_⟩
  · simp [hrx]
  · rw [← q.nvs, ← q.sent, ← q.tpOpen]
    exact q.only

/-! ## The numbers sent, and the store -/

/-- Every number handed to the transport is below a value. -/
def Edge.sentBelow (e : Edge) (w : Word) : Prop := ∀ v ∈ sentNumbers e.trace, v.toNat < w.toNat

/-- The invariant of R70 with its premises: numbers sent are below the stored value, while the store is intact and 0 was
never persisted. -/
def Edge.PersistedFirst (e : Edge) : Prop := e.storeIntact → e.notWrapped → e.sentBelowStore

theorem sentNumbers_append (a b : List Access) : sentNumbers (a ++ b) = sentNumbers a ++ sentNumbers b :=
  List.filterMap_append

theorem sentNumbers_of_listens {xs : List Access} (h : ∀ x ∈ xs, x.listens = true) : sentNumbers xs = [] := by
  refine List.filterMap_eq_nil_iff.mpr fun x hx => ?_
  have hl := h x hx
  cases x with
  | txWrite b ok => cases hl
  | nvRead | nvWrite b w | rxRead n got | rxFlush | now | delay | tpRelease => rfl

/-- Where a store holds a value, the numbers sent are below the store when they are below that value. -/
theorem Edge.holds.sentBelowStore_iff {e : Edge} {w : Word} (h : e.holds w) : e.sentBelowStore ↔ e.sentBelow w := by
  obtain ⟨b, hb, hl, hw⟩ := h
  constructor
  · intro hs v hv
    obtain ⟨c, hc, -, hlt⟩ := hs v hv
    rw [hb] at hc
    cases hc
    exact hw ▸ hlt
  · exact fun hs v hv => ⟨b, hb, hl, hw ▸ hs v hv⟩

/-- A store that is absent or short was never used to send a number (R136, R143). -/
theorem Edge.sentBelowStore.nothing_sent {e : Edge} (h : e.sentBelowStore)
    (hn : ∀ b, e.nvs = .bytes b → b.length < 4) : sentNumbers e.trace = [] := by
  refine List.eq_nil_iff_forall_not_mem.mpr fun v hv => ?_
  obtain ⟨b, hb, hl, -⟩ := h v hv
  have := hn b hb
  omega

/-- The premises of the invariant go back along the history. -/
theorem Edge.storeIntact.of_prefix {e e' : Edge} (h : e'.storeIntact) (ht : e.trace <+: e'.trace) : e.storeIntact :=
  fun b hb => h b (ht.subset hb)

theorem Edge.notWrapped.of_prefix {e e' : Edge} (h : e'.notWrapped) (ht : e.trace <+: e'.trace) : e.notWrapped :=
  fun hb => h (ht.subset hb)

theorem Edge.PersistedFirst.of_prefix {e e' : Edge} (h : e.PersistedFirst) (ht : e.trace <+: e'.trace)
    (keep : e'.notWrapped → e.sentBelowStore → e'.sentBelowStore) : e'.PersistedFirst :=
  fun hi hw => keep hw (h (hi.of_prefix ht) (hw.of_prefix ht))

/-! ## Accesses that neither write the store nor send -/

/-- What leaves the store and hands no number to the transport. -/
structure Edge.Silent (e e' : Edge) : Prop where
  nvs   : e'.nvs = e.nvs
  trace : ∃ xs, e'.trace = e.trace ++ xs ∧ sentNumbers xs = []

theorem Edge.Silent.of_trace {e e' : Edge} (hn : e'.nvs = e.nvs) (ht : e'.trace = e.trace) : e.Silent e' :=
  ⟨hn, [], by rw [ht, List.append_nil], rfl⟩

theorem Edge.Reads.silent {e e' : Edge} (h : e.Reads e') : e.Silent e' := by
  obtain ⟨xs, hx, hl⟩ := h.trace
  exact ⟨h.nvs, xs, hx, sentNumbers_of_listens hl⟩

theorem Edge.Silent.persistedFirst {e e' : Edge} (h : e.Silent e') (hp : e.PersistedFirst) : e'.PersistedFirst := by
  obtain ⟨xs, hx, hs⟩ := h.trace
  refine hp.of_prefix (hx ▸ List.prefix_append _ _) fun _ hb => ?_
  rw [Edge.sentBelowStore, hx, sentNumbers_append, hs, List.append_nil, h.nvs]
  exact hb

/-! ## The write of a counter value -/

/-- A store write, completed or not, after which the invariant holds: the value written is above all numbers sent, unless
the counter wrapped (R67, R138, R141). -/
theorem Edge.PersistedFirst.of_nvWrite {e e' : Edge} {w : Word} {ok : Bool}
    (ht : e'.trace = e.trace ++ [.nvWrite (storeBytes w) ok]) (hn : ok = true → e'.nvs = .bytes (storeBytes w))
    (hw : e.storeIntact → e.notWrapped → w ≠ 0#32 → e.sentBelow w) : e'.PersistedFirst := by
  intro hi hz
  have hpre : e.trace <+: e'.trace := ht ▸ List.prefix_append _ _
  cases ok with
  | false => exact absurd (by simp [ht]) (hi (storeBytes w))
  | true =>
    have hne : w ≠ 0#32 := by
      rintro rfl
      exact hz (by simp [ht])
    have hnone : sentNumbers [.nvWrite (storeBytes w) true] = [] := rfl
    rw [(holds_storeBytes (hn rfl)).sentBelowStore_iff, Edge.sentBelow, ht, sentNumbers_append, hnone, List.append_nil]
    exact hw (hi.of_prefix hpre) (hz.of_prefix hpre) hne

theorem nvWrite_persistedFirst {s : State} {w : Word}
    (hw : s.edge.storeIntact → s.edge.notWrapped → w ≠ 0#32 → s.edge.sentBelow w) :
    (nvWrite (storeBytes w) s).state.edge.PersistedFirst := by
  obtain ⟨ok, p⟩ := nvWrite_persists (storeBytes w) s
  exact .of_nvWrite p.trace p.nvs hw

/-- The value after a stored one is above it, unless the counter wraps (R138, R141). -/
theorem toNat_add_one {v : Word} (h : v + 1#32 ≠ 0#32) : (v + 1#32).toNat = v.toNat + 1 := by
  bv_omega

/-! ## Parts of an operation -/

/-- What the parts of an operation need: the invariant of R70, and that the store holds a counter that is loaded. -/
structure State.CountsFirst (s : State) : Prop where
  sent  : s.edge.PersistedFirst
  store : s.regs.status.seqValid = true → s.edge.holds s.regs.seq

/-- The next value of a loaded counter is above all numbers sent. -/
theorem State.CountsFirst.sentBelow_next {s : State} (h : s.CountsFirst) (hv : s.regs.status.seqValid = true)
    (hi : s.edge.storeIntact) (hw : s.edge.notWrapped) (hne : s.regs.seq + 1#32 ≠ 0#32) :
    s.edge.sentBelow (s.regs.seq + 1#32) := by
  intro v hv'
  have := (h.store hv).sentBelowStore_iff.mp (h.sent hi hw) v hv'
  rw [toNat_add_one hne]
  omega

/-- A second part that does not touch the edge. -/
theorem Run.bind_edge {α β : Type} (r : Run α) {k : α → State → Run β} (hk : ∀ a u, (k a u).state.edge = u.edge) :
    (r.bind k).state.edge = r.state.edge := by
  cases r with
  | ok a u => exact hk a u
  | stop w u => rfl

theorem Run.bind_persistedFirst {α β : Type} {r : Run α} {k : α → State → Run β} (hr : r.state.edge.PersistedFirst)
    (hk : ∀ a u, r = .ok a u → u.edge.PersistedFirst → (k a u).state.edge.PersistedFirst) :
    (r.bind k).state.edge.PersistedFirst := by
  cases r with
  | ok a u => exact hk a u rfl hr
  | stop w u => exact hr

/-- The first value of a fresh store (R136, R143): no number was sent before it. -/
theorem seqFresh_persistedFirst {s : State} (hp : s.edge.PersistedFirst)
    (hn : ∀ b, s.edge.nvs = .bytes b → b.length < 4) : (seqFresh s).state.edge.PersistedFirst := by
  rw [seqFresh, Run.bind_edge _ (fun ok u => by cases ok <;> rfl)]
  refine nvWrite_persistedFirst fun hi hw _ v hv => ?_
  rw [show sentNumbers (s.withSeq Config.seqInit).edge.trace = [] from (hp hi hw).nothing_sent hn] at hv
  cases hv

theorem answer_eq_absent {n : Store} (h : Store.answer n = .absent) : n = .absent := by
  cases n with
  | absent => rfl
  | bytes b => cases h

theorem seqLoadBody_persistedFirst {s : State} (hp : s.edge.PersistedFirst) :
    (seqLoadBody s).state.edge.PersistedFirst := by
  have q := nvRead_quiet s
  refine Run.bind_persistedFirst ((q.reads rfl).silent.persistedFirst hp) fun r u hr hu => ?_
  rw [hr] at q
  have hnvs : u.edge.nvs = s.edge.nvs := q.nvs
  cases r with
  | fail => exact hu
  | absent =>
    have ha : s.edge.nvs = .absent := answer_eq_absent ((nvRead_eq_ok hr).resolve_left nofun).symm
    exact seqFresh_persistedFirst hu fun b hb => by rw [hnvs, ha] at hb; cases hb
  | bytes b =>
    dsimp only
    split
    · rename_i hl
      have ha : s.edge.nvs = .bytes b := answer_eq_bytes ((nvRead_eq_ok hr).resolve_left nofun).symm
      refine seqFresh_persistedFirst hu fun c hc => ?_
      rw [hnvs, ha] at hc
      cases hc
      exact hl
    · exact hu

/-- `SEQ.NEXT` (R138): the value persisted is above the number returned and all before it. -/
theorem seqNextBody_persistedFirst {s : State} (hs : s.CountsFirst) : (seqNextBody s).state.edge.PersistedFirst := by
  rw [seqNextBody, Run.bind_edge _ (fun _ _ => rfl), seqNext]
  split
  · exact hs.sent
  · rename_i hv
    rw [Run.bind_edge _ (fun ok u => by cases ok <;> rfl)]
    exact nvWrite_persistedFirst (s := s.withSeq _) (hs.sentBelow_next (by simpa using hv))

/-! ## An exchange -/

/-- The only number in the accesses after a build is that of the frame. -/
theorem eq_of_mem_sentNumbers {f : List Byte} {xs : List Access} (h : ∀ x ∈ xs, sendsFrame f x) {v : Word}
    (hv : v ∈ sentNumbers xs) : v = bytesWord Config.byteOrder (f.drop 8) := by
  obtain ⟨x, hx, hxv⟩ := List.mem_filterMap.mp hv
  rcases h x hx with hl | ⟨b, ok, rfl, rfl | rfl⟩
  · have : v ∈ sentNumbers [x] := List.mem_filterMap.mpr ⟨x, List.mem_singleton.mpr rfl, hxv⟩
    rw [sentNumbers_of_listens (by simpa using hl)] at this
    cases this
  · simp [Config.marker] at hxv
  · dsimp only at hxv
    split at hxv
    · cases hxv; rfl
    · cases hxv

/-- The frame of a build has the number allocated for it (R189). -/
theorem Built.frame_number {a m : State} (b : Built a m) :
    bytesWord Config.byteOrder (m.txFrame.drop 8) = a.regs.seq := by
  have hf : m.txFrame = (stamped a.txbuf a.regs.txlen.toNat a.regs.seq).read 0 (16 + a.regs.txlen.toNat) := by
    rw [b.only]; rfl
  rw [hf, read_stamped]
  exact bytesWord_stampFrame (by rw [Memory.length_read]; omega)

theorem Built.persistedFirst {a m : State} (b : Built a m) (h : a.CountsFirst)
    (hv : a.regs.status.seqValid = true) : m.edge.PersistedFirst :=
  .of_nvWrite b.trace (fun _ => b.nvs) (h.sentBelow_next hv)

/-- A build that failed left the store unspecified (R67, R190). -/
theorem NotBuilt.persistedFirst {a t : State} (b : NotBuilt a t) : t.edge.PersistedFirst :=
  fun hi => absurd (by simp [b.trace]) (hi (storeBytes (a.regs.seq + 1#32)))

/-- The heart of R70: the number that an attempt sends is one below the value its build persisted. -/
theorem Tried.persistedFirst {exp : Word} {a m t : State} (tr : Tried exp m t) (b : Built a m)
    (hm : m.edge.PersistedFirst) : t.edge.PersistedFirst := by
  obtain ⟨xs, hx, hxs⟩ := tr.trace
  have hpre : m.edge.trace <+: t.edge.trace := hx ▸ List.prefix_append _ _
  refine hm.of_prefix hpre fun hw hb => ?_
  have hstore : m.edge.holds (a.regs.seq + 1#32) := holds_storeBytes b.nvs
  have hne : a.regs.seq + 1#32 ≠ 0#32 := fun h0 => hw.of_prefix hpre (by simp [b.trace, h0])
  have htstore : t.edge.holds (a.regs.seq + 1#32) := by rw [Edge.holds, tr.nvs]; exact hstore
  rw [htstore.sentBelowStore_iff]
  intro v hv
  rw [hx, sentNumbers_append] at hv
  rcases List.mem_append.mp hv with hv | hv
  · exact hstore.sentBelowStore_iff.mp hb v hv
  · rw [eq_of_mem_sentNumbers hxs hv, b.frame_number, toNat_add_one hne]
    omega

theorem Retried.persistedFirst {f : AttemptFailure} {t u : State} (re : Retried f t u) (h : t.edge.PersistedFirst) :
    u.edge.PersistedFirst := re.reads.silent.persistedFirst h

/-- What R70 needs of the states between two attempts. -/
structure BetweenSends (exp : Word) (a : State) : Prop extends State.CountsFirst a where
  valid : a.regs.status.seqValid = true
  fits  : exp.toNat ≤ a.cfg.rxPayloadMax

theorem BetweenSends.attempt {exp : Word} {a m t u : State} {f : AttemptFailure} (h : BetweenSends exp a)
    (b : Built a m) (tr : Tried exp m t) (re : Retried f t u) : BetweenSends exp u where
  sent := re.persistedFirst (tr.persistedFirst b (b.persistedFirst h.toCountsFirst h.valid))
  store _ := re.holds (tr.holds b.holds)
  valid := by rw [re.only, tr.only, b.only]; exact h.valid
  fits := by rw [re.only, tr.only, b.only]; exact h.fits

/-- The loop of attempts, at each of its ends. -/
theorem treAttempts_persistedFirst {exp : Word} (left : Nat) {s : State} (hs : BetweenSends exp s) :
    (treAttempts exp left s).state.edge.PersistedFirst := by
  have built {a m : State} (h : BetweenSends exp a) (b : Built a m) := b.persistedFirst h.toCountsFirst h.valid
  rcases treAttempts_end (I := fun _ => BetweenSends exp) (fun _ _ h => ⟨h.valid, h.fits⟩)
      (fun _ _ _ _ _ _ h b tr re => h.attempt b tr re) left 0 s hs with
    ⟨_, a, m, t, -, h, b, tr, -, e⟩ | ⟨a, h, e⟩ | ⟨_, a, t, -, -, b, -, e⟩ |
    ⟨_, a, t, -, h, e, b | ⟨m, b, tr | ⟨v, f, tr, re⟩⟩⟩
  all_goals rw [e]
  · exact tr.persistedFirst b (built h b)
  · exact h.sent
  · exact b.persistedFirst
  · exact b.persistedFirst
  · exact tr.persistedFirst b (built h b)
  · exact re.persistedFirst (tr.persistedFirst b (built h b))

theorem treXchg_persistedFirst (exp max : Word) {s : State} (hs : s.CountsFirst) :
    (treXchg exp max s).state.edge.PersistedFirst := by
  cases hv : s.regs.status.seqValid with
  | false => rw [treXchg_notReady hv]; exact hs.sent
  | true =>
    by_cases he : exp.toNat ≤ s.cfg.rxPayloadMax
    · rw [treXchg_loop hv he]
      exact treAttempts_persistedFirst _ ⟨⟨hs.sent, hs.store⟩, hv, he⟩
    · rw [treXchg_full hv (by omega)]; exact hs.sent

/-! ## The operations -/

theorem frmLayout_edge (cmd : Word) (n : Nat) (s : State) : (frmLayout cmd n s).state.edge = s.edge := by
  unfold frmLayout; split <;> rfl

theorem cmbSpi_edge (w r : Word) (s : State) : (cmbSpi w r s).state.edge = s.edge := by
  unfold cmbSpi
  split
  · rfl
  · exact frmLayout_edge ..

theorem frmVerify_edge (len : Nat) (s : State) : (frmVerify len s).state.edge = s.edge := by
  unfold frmVerify
  split
  · rfl
  · dsimp only
    split <;> rfl

theorem crc32Body_edge (s : State) : (crc32Body s).state.edge = s.edge := by
  unfold crc32Body; split <;> rfl

/-- A part that is local and leaves the edge alone keeps what the next part needs. -/
theorem Run.IsLocal.countsFirst {α : Type} {s u : State} {r : Run α} {a : α} (h : r.IsLocal s)
    (he : r.state.edge = s.edge) (hr : r = .ok a u) (hs : s.CountsFirst) : u.CountsFirst := by
  subst hr
  have hl : Local s u := h
  have he : u.edge = s.edge := he
  exact ⟨he ▸ hs.sent, fun hv => by rw [he, hl.seq]; exact hs.store (hl.seqValid.symm.trans hv)⟩

/-- `INITIALIZE`: the load, the layout and the exchange (R221). -/
theorem startBody_persistedFirst {s : State} (hp : s.edge.PersistedFirst) :
    (startBody s).state.edge.PersistedFirst := by
  refine Run.bind_persistedFirst (seqLoadBody_persistedFirst (s := s.withLink false) hp) fun _ u hu hpu => ?_
  have hc := seqLoadBody_ends (s.withLink false)
  rw [hu] at hc
  have hs : u.CountsFirst := ⟨hpu, fun _ => Counts.store hc⟩
  refine Run.bind_persistedFirst (by rw [cmbProbe, frmLayout_edge]; exact hpu) fun _ v hv _ => ?_
  rw [Run.bind_edge _ (fun _ _ => rfl)]
  exact treXchg_persistedFirst _ _ ((frmLayout_local ..).countsFirst (frmLayout_edge ..) hv hs)

/-- `EXECUTE_SPI`: the layout and the exchange (R224). -/
theorem spiBody_persistedFirst {s : State} (hs : s.CountsFirst) : (spiBody s).state.edge.PersistedFirst := by
  unfold spiBody
  split
  · exact hs.sent
  · split
    · exact hs.sent
    · refine Run.bind_persistedFirst (by rw [cmbSpi_edge]; exact hs.sent) fun _ u hu _ => ?_
      exact treXchg_persistedFirst _ _ ((cmbSpi_local ..).countsFirst (cmbSpi_edge ..) hu hs)

theorem shutdownBody_silent (s : State) : s.edge.Silent (shutdownBody s).state.edge := by
  rw [shutdownBody, Run.bind_edge _ (fun _ _ => rfl)]
  obtain ⟨-, hn, -, -, ht⟩ := tpRelease_state s
  exact ⟨hn, _, ht, rfl⟩

theorem synAwaitBody_silent (s : State) : s.edge.Silent (synAwaitBody s).state.edge := by
  rw [synAwaitBody, Run.bind_edge _ (fun _ _ => rfl)]
  exact (synAwait_searched _ s).reads.silent

/-- Every operation keeps every number sent below the store, wherever it ends or is cut (R70, R271). -/
theorem exec_op_persistedFirst {i : Instr} (hi : portOf i = .op) :
    ∃ (k : BitVec 4) (pre : State → Option Refusal) (body : State → Run Unit), (∀ s, exec i s = operate k pre body s) ∧
      ∀ u, u.CountsFirst → (body u).state.edge.PersistedFirst := by
  have same {r : Run Unit} {u : State} (h : r.state.edge = u.edge) (hu : u.CountsFirst) :
      r.state.edge.PersistedFirst := h ▸ hu.sent
  cases i with
  | seqLoad => exact ⟨_, noPrecondition, seqLoadBody, fun _ => rfl, fun _ hu => seqLoadBody_persistedFirst hu.sent⟩
  | seqNext => exact ⟨_, noPrecondition, seqNextBody, fun _ => rfl, fun _ => seqNextBody_persistedFirst⟩
  | treXchg => exact ⟨_, _, treXchgBody, fun _ => rfl, fun _ => treXchg_persistedFirst _ _⟩
  | hostInitialize => exact ⟨_, _, startBody, fun _ => rfl, fun _ hu => startBody_persistedFirst hu.sent⟩
  | hostExecuteSpi => exact ⟨_, _, spiBody, fun _ => rfl, fun _ => spiBody_persistedFirst⟩
  | synAwait => exact ⟨_, _, synAwaitBody, fun _ => rfl, fun u hu => (synAwaitBody_silent u).persistedFirst hu.sent⟩
  | hostShutdown =>
    exact ⟨_, noPrecondition, shutdownBody, fun _ => rfl, fun u hu => (shutdownBody_silent u).persistedFirst hu.sent⟩
  | crc32 => exact ⟨_, _, crc32Body, fun _ => rfl, fun u => same (crc32Body_edge u)⟩
  | frmLayout => exact ⟨_, noPrecondition, frmLayoutBody, fun _ => rfl, fun _ => same (frmLayout_edge ..)⟩
  | frmStamp => exact ⟨_, _, frmStampBody, fun _ => rfl, fun _ => same rfl⟩
  | frmEncode =>
    exact ⟨_, _, frmEncodeBody, fun _ => rfl,
      fun _ => same ((Run.bind_edge _ fun _ _ => rfl).trans (frmLayout_edge ..))⟩
  | frmDechdr => exact ⟨_, _, frmDechdr, fun _ => rfl, fun _ => same rfl⟩
  | frmVerify =>
    exact ⟨_, _, frmVerifyBody, fun _ => rfl,
      fun _ => same ((Run.bind_edge _ fun _ _ => rfl).trans (frmVerify_edge ..))⟩
  | cmbProbe => exact ⟨_, noPrecondition, cmbProbe, fun _ => rfl, fun _ => same (frmLayout_edge ..)⟩
  | cmbSpi => exact ⟨_, noPrecondition, cmbSpiBody, fun _ => rfl, fun _ => same (cmbSpi_edge ..)⟩
  | reservedF => exact ⟨_, noPrecondition, reservedBody, fun _ => rfl, fun _ => same rfl⟩
  | wireMarker | wireFrame _ _ _ _ | wireProbeRequest _ _ | wireSpiRequest _ _ _ _ _ _ _ _ _ | wireReply _ _ _ _ =>
    cases hi

theorem exec_persistedFirst {i : Instr} {s t : State} (hs : s.Inv) (hp : s.edge.PersistedFirst)
    (h : exec i s = .next t) : t.edge.PersistedFirst := by
  by_cases hi : portOf i = .op
  · obtain ⟨k, pre, body, he, hb⟩ := exec_op_persistedFirst hi
    rw [he] at h
    rcases operate_eq_next h with ⟨-, rfl⟩ | ⟨hr, -, rfl⟩
    · exact hp
    · rw [settle_edge]
      exact hb (s.begin k) ⟨hp, fun hv => hs.storeAgrees hv (not_halted_of_ready hr).1⟩
  · rw [exec_wire hi] at h
    cases h
    exact (Edge.Silent.of_trace (e := s.edge) rfl rfl).persistedFirst hp

/-- Settles O53: whatever a step is, the numbers sent stay below the store while the premises of R141 and R142 hold. -/
theorem persistBeforeSend : Obligations.PersistBeforeSend := by
  intro s t hs hb h
  have hp : s.edge.PersistedFirst := fun _ _ => hb
  show t.edge.PersistedFirst
  rcases step_cases h with ⟨-, rfl⟩ | ⟨_, rest, -, ⟨i, hi, -⟩ | ⟨-, rfl⟩ | ⟨-, ha⟩⟩
  · exact hp
  · have hr : State.Inv { s with pending := rest } := Local.inv { Local.refl s with } rfl rfl hs
    exact exec_persistedFirst hr hp hi
  · exact hp
  · exact (Edge.Silent.of_trace ha.nvs ha.trace).persistedFirst hp

end Sys2Proof.Machine
end

section
/-! SUPPORT. Decoding gives an encoded instruction back: the fields read back from where they were written, and a
message from its bytes (R91 to R99, R103). -/

namespace Sys2Proof

open Codec

/-! ## Fields in a row -/

/-- Words written one behind the other read back, each from its own four bytes, whatever follows them. -/
theorem bytesWord_drop_wordsBytes (o : ByteOrder) (ws : List Word) (rest : List Byte) {i : Nat} (h : i < ws.length) :
    bytesWord o ((ws.flatMap (wordBytes o) ++ rest).drop (i * 4)) = ws[i] := by
  induction ws generalizing i with
  | nil => cases h
  | cons w ws ih =>
    rw [List.flatMap_cons, List.append_assoc]
    cases i with
    | zero => rw [Nat.zero_mul, List.drop_zero, bytesWord_wordBytes_append, List.getElem_cons_zero]
    | succ i =>
      rw [Nat.succ_mul, Nat.add_comm, ← List.drop_drop, List.drop_left' (length_wordBytes o w),
        ih (Nat.lt_of_succ_lt_succ h), List.getElem_cons_succ]

/-- `decode_header` gives back the four fields that were written (R91, R155). -/
theorem decodeHeader_headerBytes_append (o : ByteOrder) (c l q k : Word) (rest : List Byte) :
    decodeHeader o (headerBytes o c l q k ++ rest) = ⟨c, l, q, k⟩ := by
  have hb : headerBytes o c l q k = [c, l, q, k].flatMap (wordBytes o) := by simp [headerBytes]
  have hw (i : Nat) (h : i < 4) := bytesWord_drop_wordsBytes o [c, l, q, k] rest h
  rw [decodeHeader_eq, hb]
  exact (Header.mk.injEq ..).mpr ⟨hw 0 (by decide), hw 1 (by decide), hw 2 (by decide), hw 3 (by decide)⟩

/-- The words of an SPI request's payload are the operands it was made of (R96). -/
theorem argumentWord_spiPayload (speed k0 k1 k2 k3 rcount : Word) (writeBytes : List Byte) {i : Nat} (h : i < 7) :
    argumentWord (spiPayload speed k0 k1 k2 k3 rcount writeBytes) i =
      [speed, k0, k1, k2, k3, lengthWord writeBytes, rcount][i] := by
  have hb : spiPayload speed k0 k1 k2 k3 rcount writeBytes =
      [speed, k0, k1, k2, k3, lengthWord writeBytes, rcount].flatMap (wordBytes Config.byteOrder) ++ writeBytes := by
    simp [spiPayload, argumentBlock]
  rw [argumentWord_eq, hb]
  exact bytesWord_drop_wordsBytes _ _ _ h

/-! ## Messages -/

/-- A payload whose length fits its field has the length that the field says (R93, R95). -/
theorem toNat_lengthWord {payload : List Byte} (h : lengthFits payload = true) :
    (lengthWord payload).toNat = payload.length :=
  (BitVec.toNat_ofNat ..).trans (Nat.mod_eq_of_lt (lengthFits_iff.mp h))

/-- A frame is read back whole, as the row that its direction gives it (R91, R100; log 11). -/
theorem decodeFrame_headerBytes_append (p : Port) (command seq checksum : Word) {payload : List Byte}
    (h : lengthFits payload = true) :
    decodeFrame p (headerBytes Config.byteOrder command (lengthWord payload) seq checksum ++ payload) =
      .ok (ofFrame p ⟨command, lengthWord payload, seq, checksum⟩ payload, []) := by
  have hl := length_headerBytes Config.byteOrder command (lengthWord payload) seq checksum
  have hlong : ¬ (headerBytes Config.byteOrder command (lengthWord payload) seq checksum ++ payload).length < 16 := by
    rw [List.length_append]; omega
  rw [decodeFrame, Config.headerSize_eq, if_neg hlong, decodeHeader_headerBytes_append, List.drop_left' hl,
    toNat_lengthWord h, if_neg (Nat.lt_irrefl _), List.take_length, List.drop_length]

/-- A message is read back whole: the frame behind its marker (R91, R92). -/
theorem decodeWire_encodeMessage (p : Port) (command seq checksum : Word) {payload : List Byte}
    (h : lengthFits payload = true) :
    decodeWire p (encodeMessage command seq checksum payload) =
      .ok (ofFrame p ⟨command, lengthWord payload, seq, checksum⟩ payload, []) := by
  have hb : encodeMessage command seq checksum payload = Config.markerFirst :: Config.markerSecond ::
      (headerBytes Config.byteOrder command (lengthWord payload) seq checksum ++ payload) := by
    rw [encodeMessage, List.append_assoc]; rfl
  have hne : (headerBytes Config.byteOrder command (lengthWord payload) seq checksum ++ payload).isEmpty = false :=
    rfl
  rw [hb, decodeWire, if_pos ⟨rfl, rfl⟩, hne, if_neg Bool.false_ne_true, decodeFrame_headerBytes_append _ _ _ _ h]

/-- The payload of an SPI request has the shape of its row: word 5 counts the write bytes (R96, R98). -/
theorem isSpiShape_spiPayload {speed k0 k1 k2 k3 rcount : Word} {writeBytes : List Byte}
    (h : lengthFits (spiPayload speed k0 k1 k2 k3 rcount writeBytes) = true) :
    isSpiShape Config.cmdSpi (spiPayload speed k0 k1 k2 k3 rcount writeBytes) = true := by
  have hl : (spiPayload speed k0 k1 k2 k3 rcount writeBytes).length = 28 + writeBytes.length := by
    rw [spiPayload, List.length_append, length_argumentBlock]
  have hfits : lengthFits writeBytes = true := by rw [lengthFits_iff] at h ⊢; omega
  have h5 : bytesWord Config.byteOrder ((spiPayload speed k0 k1 k2 k3 rcount writeBytes).drop 20) =
      lengthWord writeBytes := argumentWord_spiPayload speed k0 k1 k2 k3 rcount writeBytes (i := 5) (by decide)
  rw [isSpiShape_iff, h5, toNat_lengthWord hfits]
  exact ⟨rfl, by omega, by omega⟩

/-- The payload of an SPI request gives back its operands (R96, R98). -/
theorem ofRequest_spiPayload (seq checksum speed k0 k1 k2 k3 rcount : Word) {writeBytes : List Byte}
    (h : lengthFits (spiPayload speed k0 k1 k2 k3 rcount writeBytes) = true) :
    ofRequest Config.cmdSpi seq checksum (spiPayload speed k0 k1 k2 k3 rcount writeBytes) =
      .wireSpiRequest seq checksum speed k0 k1 k2 k3 rcount writeBytes := by
  have hw {i : Nat} := argumentWord_spiPayload speed k0 k1 k2 k3 rcount writeBytes (i := i)
  have hdrop : (spiPayload speed k0 k1 k2 k3 rcount writeBytes).drop 28 = writeBytes :=
    List.drop_left' (length_argumentBlock ..)
  have hprobe : isProbeShape Config.cmdSpi (spiPayload speed k0 k1 k2 k3 rcount writeBytes) = false := rfl
  rw [ofRequest, hprobe, if_neg Bool.false_ne_true, if_pos (isSpiShape_spiPayload h), hw (by decide),
    hw (by decide), hw (by decide), hw (by decide), hw (by decide), hw (by decide), Config.spiArgBytes_eq, hdrop]
  rfl

/-! ## The statements -/

/-- Settles O54: a selector and the marker by their values, a message by its fields, its row by direction and shape. -/
theorem decodeEncodeRoundTrip : Obligations.DecodeEncodeRoundTrip := by
  intro i hw
  cases i with
  | crc32 | seqLoad | seqNext | frmLayout | frmStamp | frmEncode | frmDechdr | frmVerify | synAwait | treXchg
  | cmbProbe | cmbSpi | hostInitialize | hostExecuteSpi | hostShutdown | reservedF | wireMarker => rfl
  | wireFrame command seq checksum payload =>
    simp only [WellFormed, Bool.and_eq_true, Bool.not_eq_true'] at hw
    obtain ⟨⟨⟨hl, -⟩, hprobe⟩, hspi⟩ := hw
    refine (decodeWire_encodeMessage .request command seq checksum hl).trans ?_
    rw [ofFrame, ofRequest, hprobe, hspi]
    rfl
  | wireProbeRequest seq checksum => exact decodeWire_encodeMessage .request Config.cmdProbe seq checksum rfl
  | wireSpiRequest seq checksum speed k0 k1 k2 k3 rcount writeBytes =>
    obtain ⟨hl, -⟩ := Bool.and_eq_true_iff.mp hw
    refine (decodeWire_encodeMessage .request Config.cmdSpi seq checksum hl).trans ?_
    rw [ofFrame, ofRequest_spiPayload seq checksum speed k0 k1 k2 k3 rcount hl]
  | wireReply command seq checksum payload =>
    obtain ⟨hl, -⟩ := Bool.and_eq_true_iff.mp hw
    exact decodeWire_encodeMessage .reply command seq checksum hl

/-- Settles O55: the first half of what a message that decodes is. -/
theorem encodeDecodedMessage : Obligations.EncodeDecodedMessage := by
  intro p bytes rest i h
  obtain ⟨hb, -⟩ := decodeWire_eq_ok h
  exact hb

/-- Settles O56: the selectors by their values, the two messages as encodings of their fields. -/
theorem wordsDecode : Obligations.WordsDecode :=
  ⟨rfl, rfl, rfl, rfl, decodeWire_encodeMessage .request 0#32 5#32 0xA45B4531#32 (payload := []) rfl,
    decodeWire_encodeMessage .reply 43#32 3#32 0x74197120#32 (payload := [0x01#8, 0x02#8, 0x03#8]) rfl⟩

end Sys2Proof
end

section
/-! SUPPORT. The three forms of the checksum are one fold of eight division steps, which is linear over xor and loses no
bit (R122, R124, R126); and what `CRC32` makes of it (R123). -/

namespace Sys2Proof.Codec

/-! ## One byte -/

/-- `n` steps divide the low `n` bits, which the mask `m` cuts out, and shift the bits above them (R121). -/
theorem crcBits_eq_low_xor_shift (n : Nat) (m c : Word) (hm : ∀ i < 32, m.getLsbD i = decide (i < n)) :
    crcBits n c = crcBits n (c &&& m) ^^^ (c >>> n) := by
  have hbits (i : Nat) (hi : i < 32) : (c &&& ~~~m).getLsbD i = (c.getLsbD i && !decide (i < n)) := by
    simp only [BitVec.getLsbD_and, BitVec.getLsbD_not, hi, decide_true, Bool.true_and, hm i hi]
  have hsplit : c = (c &&& m) ^^^ (c &&& ~~~m) := by
    apply BitVec.eq_of_getLsbD_eq
    intro i hi
    simp only [BitVec.getLsbD_xor, BitVec.getLsbD_and, hbits i hi, hm i hi]
    cases c.getLsbD i <;> cases decide (i < n) <;> rfl
  have hlow : ∀ i < n, (c &&& ~~~m).getLsbD i = false := by
    intro i hi
    by_cases h32 : i < 32
    · simp [hbits i h32, hi]
    · exact BitVec.getLsbD_of_ge _ _ (by omega)
  have hhigh : (c &&& ~~~m) >>> n = c >>> n := by
    apply BitVec.eq_of_getLsbD_eq
    intro i hi
    simp only [BitVec.getLsbD_ushiftRight]
    by_cases h32 : n + i < 32
    · simp [hbits _ h32]
    · rw [BitVec.getLsbD_of_ge _ _ (by omega), BitVec.getLsbD_of_ge _ _ (by omega)]
  calc crcBits n c = crcBits n (c &&& m) ^^^ crcBits n (c &&& ~~~m) := by rw [← crcBits_xor, ← hsplit]
    _ = crcBits n (c &&& m) ^^^ (c >>> n) := by rw [crcBits_of_low_zero n _ hlow, hhigh]

/-- A nibble step is four division steps, but for the bits of `b` above the nibble (R122). -/
theorem crcNibble_eq (c b : Word) : crcNibble c b = crcBits 4 (c ^^^ b) ^^^ (b >>> 4) := by
  have hk : ((c ^^^ b) &&& 0xF#32).toNat < Config.crcTableEntries :=
    Nat.lt_of_le_of_lt (BitVec.toNat_and .. ▸ Nat.and_le_right) (by decide)
  rw [crcNibble, crcTable_getD hk, crcEntry, BitVec.ofNat_toNat, BitVec.setWidth_eq,
    crcBits_eq_low_xor_shift 4 0xF#32 (c ^^^ b) (by decide), BitVec.ushiftRight_xor_distrib,
    BitVec.xor_assoc, BitVec.xor_assoc, BitVec.xor_self, BitVec.xor_zero]

theorem setWidth_ushiftRight_eight (b : Byte) : b.setWidth 32 >>> 8 = 0#32 := by
  apply BitVec.eq_of_getLsbD_eq
  intro i hi
  simp

/-- Half bytes and single bits: the two nibble steps are the eight division steps (R124). -/
theorem crcByte_eq (c : Word) (b : Byte) : crcByte c b = crcBits 8 (c ^^^ b.setWidth 32) := by
  rw [crcByte, crcNibble_eq, crcNibble_eq, BitVec.xor_assoc, BitVec.xor_self, BitVec.xor_zero, ← crcBits_add,
    ← BitVec.shiftRight_add, setWidth_ushiftRight_eight, BitVec.xor_zero]

/-- The whole table and single bits (R124). -/
theorem crcFullEntry_xor (c : Word) (b : Byte) :
    crcFullEntry ((c ^^^ b.setWidth 32) &&& 0xFF#32).toNat ^^^ (c >>> 8) = crcBits 8 (c ^^^ b.setWidth 32) := by
  rw [crcFullEntry, BitVec.ofNat_toNat, BitVec.setWidth_eq,
    crcBits_eq_low_xor_shift 8 0xFF#32 (c ^^^ b.setWidth 32) (by decide), BitVec.ushiftRight_xor_distrib,
    setWidth_ushiftRight_eight, BitVec.xor_zero]

/-- Settles O2: both reference forms fold the same eight division steps. -/
theorem halfByteFormEqualsReferenceForms : Obligations.HalfByteFormEqualsReferenceForms := by
  intro bs
  have hbyte : crcByte = fun c b => crcBits 8 (c ^^^ b.setWidth 32) := funext fun c => funext (crcByte_eq c)
  constructor
  · rw [crc32, crcRemainder, crc32Bitwise, hbyte]
  · simp only [crc32, crcRemainder, crc32FullTable, crcFullEntry_xor, hbyte]

/-! ## Linearity -/

theorem crcByte_xor (c d : Word) (a b : Byte) : crcByte (c ^^^ d) (a ^^^ b) = crcByte c a ^^^ crcByte d b := by
  rw [crcByte_eq, crcByte_eq, crcByte_eq, ← crcBits_xor, BitVec.setWidth_xor]
  congr 1
  ac_rfl

/-- The remainders of two strings of equal length, from any two starts, add up to that of their xor (R126). -/
theorem foldl_crcByte_xor (c d : Word) {as bs : List Byte} (h : as.length = bs.length) :
    (List.zipWith (· ^^^ ·) as bs).foldl crcByte (c ^^^ d) = as.foldl crcByte c ^^^ bs.foldl crcByte d := by
  induction as generalizing c d bs with
  | nil => rw [List.length_eq_zero_iff.mp h.symm]; rfl
  | cons a as ih =>
    cases bs with
    | nil => cases h
    | cons b bs =>
      rw [List.zipWith_cons_cons, List.foldl_cons, crcByte_xor]
      exact ih _ _ (Nat.succ.inj h)

/-- The two complements and the two starts cancel: the xor of two checksums is the remainder of the xor from 0 (R126). -/
theorem crc32_xor_crc32 {as bs : List Byte} (h : as.length = bs.length) :
    crc32 as ^^^ crc32 bs = (List.zipWith (· ^^^ ·) as bs).foldl crcByte 0#32 := by
  calc crc32 as ^^^ crc32 bs
      = (crcRemainder as ^^^ crcRemainder bs) ^^^ (Config.crcXorOut ^^^ Config.crcXorOut) := by
        rw [crc32, crc32]; ac_rfl
    _ = (List.zipWith (· ^^^ ·) as bs).foldl crcByte 0#32 := by
        rw [BitVec.xor_self, BitVec.xor_zero, crcRemainder, crcRemainder, ← foldl_crcByte_xor _ _ h, BitVec.xor_self]

theorem zipWith_xor_zeros (as : List Byte) : List.zipWith (· ^^^ ·) as (List.replicate as.length 0#8) = as := by
  induction as with
  | nil => rfl
  | cons a as ih => rw [List.length_cons, List.replicate_succ, List.zipWith_cons_cons, ih, BitVec.xor_zero]

/-- Settles O3: each side is the remainder of `A xor B` from 0. -/
theorem checksumIsAffine : Obligations.ChecksumIsAffine := by
  intro a b h
  have hl : (List.zipWith (· ^^^ ·) a b).length = a.length := by rw [List.length_zipWith, h, Nat.min_self]
  rw [crc32_xor_crc32 h, crc32_xor_crc32 (by rw [hl, List.length_replicate]), ← hl, zipWith_xor_zeros]

/-! ## No change of one byte is lost -/

theorem crcByte_left_injective (b : Byte) {c d : Word} (h : crcByte c b = crcByte d b) : c = d := by
  rw [crcByte_eq, crcByte_eq] at h
  exact (BitVec.xor_left_inj _).mp (crcBits_injective 8 h)

theorem crcByte_right_injective (c : Word) {a b : Byte} (h : crcByte c a = crcByte c b) : a = b := by
  rw [crcByte_eq, crcByte_eq] at h
  have hw := (BitVec.xor_right_inj _).mp (crcBits_injective 8 h)
  simpa using congrArg (BitVec.setWidth 8) hw

theorem foldl_crcByte_injective (bs : List Byte) {c d : Word} (h : bs.foldl crcByte c = bs.foldl crcByte d) :
    c = d := by
  induction bs generalizing c d with
  | nil => exact h
  | cons b bs ih => exact crcByte_left_injective b (ih h)

theorem foldl_crcByte_set {c : Word} {bs : List Byte} {i : Nat} (hi : i < bs.length) {x : Byte}
    (h : (bs.set i x).foldl crcByte c = bs.foldl crcByte c) : x = bs[i] := by
  induction bs generalizing c i with
  | nil => cases hi
  | cons b bs ih =>
    cases i with
    | zero => exact crcByte_right_injective c (foldl_crcByte_injective bs h)
    | succ i => exact ih (Nat.lt_of_succ_lt_succ hi) h

/-- Another value of one byte gives another checksum (R126). -/
theorem crc32_set_ne {bs : List Byte} {i : Nat} (hi : i < bs.length) {x : Byte} (hx : x ≠ bs[i]) :
    crc32 (bs.set i x) ≠ crc32 bs :=
  fun h => hx (foldl_crcByte_set hi ((BitVec.xor_left_inj _).mp h))

theorem flipBit_ne (b : Byte) (k : Fin 8) : b ^^^ (1#8 <<< k.val) ≠ b := by
  have hk : ∀ k : Fin 8, 1#8 <<< k.val ≠ 0#8 := by decide
  exact fun h => hk k ((BitVec.xor_right_inj _).mp (h.trans BitVec.xor_zero.symm))

/-- Settles O4: a flipped bit gives the byte another value. -/
theorem oneBitChangeChangesChecksum : Obligations.OneBitChangeChangesChecksum :=
  fun bs i k => crc32_set_ne i.isLt (flipBit_ne bs[i] k)

end Sys2Proof.Codec

namespace Sys2Proof.Machine

open Codec

/-! ## The operation `CRC32` -/

/-- What `CRC32` does to a state whose first `n` bytes are within TXBUF (R123). -/
theorem crc32Body_of_le {s : State} (h : s.count0 ≤ s.cfg.txCapacity) :
    crc32Body s = .ok () { s with regs := { s.regs with
      res := crc32 (s.txbuf.read 0 s.count0), crcAcc := crcRemainder (s.txbuf.read 0 s.count0) } } :=
  if_neg (Nat.not_lt.mpr h)

theorem crc32Body_of_lt {s : State} (h : s.cfg.txCapacity < s.count0) : crc32Body s = raise .allocationFailure s :=
  if_pos h

/-- Settles O1: the two ends of the body, and the precondition. -/
theorem crc32Operation : Obligations.Crc32Operation := by
  intro s hs
  refine ⟨fun hn hw => ?_, fun hn => ?_, fun hn hw => ?_⟩
  · refine (operate_run hs (by simp [crcPrecondition, hw])).trans ?_
    rw [crc32Body_of_le (s := s.begin 0x0#4) hn, crcRemainder_eq]
    rfl
  · refine (operate_run hs (by simp [crcPrecondition, hn])).trans ?_
    rw [crc32Body_of_lt (s := s.begin 0x0#4) hn, ← raised_begin hs rfl]
    rfl
  · exact operate_refused hs (by simp [crcPrecondition, hw, hn])

end Sys2Proof.Machine
end

section
/-! SUPPORT. The counter's operations under a given environment: what an access does with the answer it draws, what
`SEQ.LOAD` and `SEQ.NEXT` do with it, and why an allocated number was never sent before (R136 to R143). -/

namespace Sys2Proof.Machine

open Codec

/-! ## A store access with a given answer -/

section
variable {s : State} {a : EnvAnswer} {rest : List EnvAnswer}

theorem Edge.answer_of_answers {e : Edge} (h : e.answers = a :: rest) : e.answer = (a, { e with answers := rest }) := by
  simp only [Edge.answer, h]

/-- `NvRead` under an answer without reset: the store's content or `Fail` (R66). -/
theorem nvRead_of_answers (h : s.edge.answers = a :: rest) (hr : a.reset = false) :
    nvRead s = .ok (if a.ok then Store.answer s.edge.nvs else .fail)
      { s with edge := (s.edge.drawn a rest).record .nvRead } := by
  simp only [nvRead, afterAccess, Edge.answer_of_answers h, hr, Bool.false_eq_true, if_false]
  rfl

/-- The state once SEQ took a value and one store access, with a given answer, wrote its bytes: on Fail the store holds
anything (R67, R138, R140). -/
def State.persisting (s : State) (v : Word) (a : EnvAnswer) (rest : List EnvAnswer) : State :=
  { s.withSeq v with edge := { s.edge.drawn a rest with
      nvs := if a.ok then .bytes (storeBytes v) else a.store
      trace := s.edge.trace ++ [.nvWrite (storeBytes v) a.ok] } }

/-- `NvWrite` of a value that SEQ has taken, under an answer without reset (R67). -/
theorem nvWrite_of_answers (v : Word) (h : s.edge.answers = a :: rest) (hr : a.reset = false) :
    nvWrite (storeBytes v) (s.withSeq v) = .ok a.ok (s.persisting v a rest) := by
  have ha : (s.withSeq v).edge.answer = (a, { s.edge with answers := rest }) := Edge.answer_of_answers h
  simp only [nvWrite, afterAccess, ha, hr, Bool.false_eq_true, if_false, Bool.not_false, Bool.and_true]
  rfl

/-! ## `SEQ.LOAD` -/

/-- A store that gives no counter value: absent, or shorter than one (R136). -/
def GivesNoCounter (n : Store) : Prop := n = .absent ∨ ∃ b, n = .bytes b ∧ b.length < 4

theorem seqLoadBody_of_read_fails (h : s.edge.answers = a :: rest) (hr : a.reset = false) (ho : a.ok = false) :
    seqLoadBody s = raise .storeUnavailable { s with edge := (s.edge.drawn a rest).record .nvRead } := by
  simp only [seqLoadBody, nvRead_of_answers h hr, ho, Bool.false_eq_true, if_false, Run.bind_ok]

theorem seqLoadBody_of_stored {b : List Byte} (h : s.edge.answers = a :: rest) (hr : a.reset = false)
    (ho : a.ok = true) (hb : s.edge.nvs = .bytes b) (hl : 4 ≤ b.length) :
    seqLoadBody s = .ok () (State.counterLoaded
      { s.withSeq (bytesWord Config.byteOrder b) with edge := (s.edge.drawn a rest).record .nvRead }) := by
  simp only [seqLoadBody, nvRead_of_answers h hr, ho, hb, if_true, Store.answer, Run.bind_ok, Config.nvsBytes_eq]
  exact if_neg (Nat.not_lt.mpr hl)

/-- On a store that gives no value the load goes on to the write-back of SEQ_INIT (R136, R143). -/
theorem seqLoadBody_of_fresh (h : s.edge.answers = a :: rest) (hr : a.reset = false) (ho : a.ok = true)
    (hn : GivesNoCounter s.edge.nvs) :
    seqLoadBody s = seqFresh { s with edge := (s.edge.drawn a rest).record .nvRead } := by
  simp only [seqLoadBody, nvRead_of_answers h hr, ho, if_true, Run.bind_ok]
  rcases hn with hn | ⟨b, hn, hl⟩
  · simp only [hn, Store.answer]
  · simp only [hn, Store.answer]
    exact if_pos hl

theorem seqFresh_of_answers (h : s.edge.answers = a :: rest) (hr : a.reset = false) :
    seqFresh s = if a.ok then .ok () (s.persisting Config.seqInit a rest).counterLoaded
      else raise .storeUnavailable (s.persisting Config.seqInit a rest) := by
  simp only [seqFresh, nvWrite_of_answers _ h hr, Run.bind_ok]

end

theorem storeBytes_seqInit : storeBytes Config.seqInit = [0x02#8, 0x00#8, 0x00#8, 0x00#8] := by decide

/-- What the fatal error does, whether or not the engine was halted before (R248, R251). -/
theorem raised_storeUnavailable (s : State) : s.raised .storeUnavailable =
    { s with regs := { s.regs with err := 5#8, status := s.regs.status.stopped } } := by
  simp only [State.raised, ErrKind.fatal, Bool.or_true]
  rfl

theorem exec_seqLoad {s : State} (hs : s.ready = true) :
    exec .seqLoad s = .next (seqLoadBody (s.begin 0x1#4)).settle :=
  operate_run (pre := noPrecondition) hs rfl

theorem exec_seqNext {s : State} (hs : s.ready = true) :
    exec .seqNext s = .next (seqNextBody (s.begin 0x2#4)).settle :=
  operate_run (pre := noPrecondition) hs rfl

/-- Settles O5: the read answers the store's bytes, and SEQ takes the first four. -/
theorem seqLoadTakesStoredValue : Obligations.SeqLoadTakesStoredValue := by
  intro s a rest b hs ha hr ho hb hl
  rw [exec_seqLoad hs, seqLoadBody_of_stored (s := s.begin 0x1#4) ha hr ho hb hl]
  rfl

/-- Settles O6: the load goes on to the write-back, which succeeds. -/
theorem seqLoadStartsFresh : Obligations.SeqLoadStartsFresh := by
  intro s a c rest hs ha hr ho hcr hco hn
  rw [exec_seqLoad hs, seqLoadBody_of_fresh (s := s.begin 0x1#4) ha hr ho hn, seqFresh_of_answers rfl hcr, if_pos hco,
    State.persisting, hco, storeBytes_seqInit]
  simp only [Edge.record_trace, List.append_assoc]
  rfl

/-- Settles O7: the read, or the write-back, raises the fatal error. -/
theorem seqLoadStoreFailureHalts : Obligations.SeqLoadStoreFailureHalts := by
  intro s a c rest hs ha hr
  refine ⟨fun ho => ?_, fun ho hcr hco hn => ?_⟩
  · rw [exec_seqLoad hs, seqLoadBody_of_read_fails (s := s.begin 0x1#4) ha hr ho]
    exact congrArg _ (raised_storeUnavailable _)
  · rw [exec_seqLoad hs, seqLoadBody_of_fresh (s := s.begin 0x1#4) ha hr ho hn, seqFresh_of_answers rfl hcr,
      if_neg (by simp [hco]), State.persisting, hco, storeBytes_seqInit]
    refine congrArg _ ((raised_storeUnavailable _).trans ?_)
    simp only [Edge.record_trace, List.append_assoc]
    rfl

/-! ## `SEQ.NEXT` -/

theorem seqNext_notReady {s : State} (hv : s.regs.status.seqValid = false) : seqNext s = raise .notReady s := by
  simp only [seqNext, hv, Bool.not_false, if_true]

theorem seqNext_of_answers {s : State} {a : EnvAnswer} {rest : List EnvAnswer} (hv : s.regs.status.seqValid = true)
    (h : s.edge.answers = a :: rest) (hr : a.reset = false) :
    seqNext s = if a.ok then .ok s.regs.seq ((s.persisting (s.regs.seq + 1#32) a rest).withRes s.regs.seq)
      else raise .storeUnavailable (s.persisting (s.regs.seq + 1#32) a rest) := by
  simp only [seqNext, hv, Bool.not_true, Bool.false_eq_true, if_false, nvWrite_of_answers _ h hr, Run.bind_ok]
  rfl

/-- Settles O8: the write of the next value succeeds, or raises the fatal error. -/
theorem seqNextAllocates : Obligations.SeqNextAllocates := by
  intro s a rest hs hv ha hr
  rw [exec_seqNext hs, seqNextBody, seqNext_of_answers (s := s.begin 0x2#4) hv ha hr, State.persisting]
  refine ⟨fun ho => ?_, fun ho => ?_⟩
  · rw [ho]
    rfl
  · rw [ho]
    exact congrArg _ (raised_storeUnavailable _)

/-- Settles O10: the next value of the greatest one is 0. -/
theorem seqWrapsSilently : Obligations.SeqWrapsSilently := by
  intro s a rest hs hv ha hr ho hq
  have hwrap : s.regs.seq + 1#32 = 0#32 := by rw [hq]; decide
  refine ⟨_, (seqNextAllocates s a rest hs hv ha hr).1 ho, hq, hwrap, ?_, rfl, rfl⟩
  rw [hwrap]
  rfl

theorem spiBody_notReady {s : State} (hl : s.regs.status.linkOk = false) : spiBody s = raise .notReady s := by
  simp only [spiBody, hl, Bool.not_false, if_true]

/-- Settles O9: each of the three raises `NotReady` before any access; `EXECUTE_SPI` since LINK_OK asks for a counter. -/
theorem noAllocationWithoutCounter : Obligations.NoAllocationWithoutCounter := by
  intro s hs hi hv
  have hlink : s.regs.status.linkOk = false :=
    Bool.eq_false_iff.mpr fun hl => by simp [hi.linkCounted hl] at hv
  refine ⟨?_, ?_, ?_⟩
  · rw [exec_seqNext hs, seqNextBody, seqNext_notReady (s := s.begin 0x2#4) hv, ← raised_begin hs rfl]
    rfl
  · refine (operate_run hs (by simp [xchgPrecondition, hv])).trans ?_
    rw [treXchgBody, treXchg_notReady (s := s.begin 0x9#4) hv, ← raised_begin hs rfl]
    rfl
  · refine (operate_run hs (by simp [spiPrecondition, hlink])).trans ?_
    rw [spiBody_notReady (s := s.begin 0xD#4) hlink, ← raised_begin hs rfl]
    rfl

/-! ## What an allocation has done, for every environment -/

/-- `SEQ.NEXT` with a number returned: the counter was loaded, RES is the value before, and SEQ and the store hold the
value after it (R138). -/
structure Allocated (s t : State) : Prop where
  valid : s.regs.status.seqValid = true
  res   : t.regs.res = s.regs.seq
  seq   : t.regs.seq = s.regs.seq + 1#32
  nvs   : t.edge.nvs = .bytes (storeBytes (s.regs.seq + 1#32))

theorem seqNext_eq_ok {s t : State} {v : Word} (h : seqNext s = .ok v t) : Allocated s t := by
  cases hv : s.regs.status.seqValid with
  | false => rw [seqNext_notReady hv] at h; cases h
  | true =>
    simp only [seqNext, hv, Bool.not_true, Bool.false_eq_true, if_false] at h
    obtain ⟨ok, u, hw, h⟩ := Run.bind_eq_ok h
    have p := nvWrite_eq_ok hw
    cases ok with
    | false => cases h
    | true =>
      cases h
      exact ⟨hv, rfl, by rw [p.only]; rfl, p.nvs rfl⟩

/-- A `SEQ.NEXT` that ended without error has allocated a number (R28, R251, R271). -/
theorem exec_seqNext_allocated {s t : State} (hs : s.ready = true) (h : exec .seqNext s = .next t)
    (hd : t.regs.status.done = true) (he : t.regs.err = 0#8) : Allocated s t := by
  rw [exec_seqNext hs] at h
  cases h
  rcases settle_cases (seqNextBody (s.begin 0x2#4)) with ⟨u, hu, ht⟩ | ⟨e, u, -, ht⟩ | ⟨u, -, ht⟩
  · obtain ⟨v, w, hw, hwu⟩ := Run.bind_eq_ok hu
    cases hwu
    rw [ht]
    exact { seqNext_eq_ok hw with }
  · rw [ht] at he
    exact absurd he (bne_iff_ne.mp (code_ne_zero e))
  · rw [ht] at hd
    cases hd

/-- Settles O11: every number sent is below the stored value, which is the number returned. -/
theorem allocatedNumberWasNeverSent : Obligations.AllocatedNumberWasNeverSent := by
  intro s t hi hb hs h hd he hsent
  have al := exec_seqNext_allocated hs h hd he
  have hstore : s.edge.holds s.regs.seq := hi.storeAgrees al.valid (not_halted_of_ready hs).1
  have hlt := hstore.sentBelowStore_iff.mp hb _ hsent
  rw [al.res] at hlt
  exact Nat.lt_irrefl _ hlt

/-- Settles O12: the reset keeps the store, from which the load takes the value that the allocation persisted. -/
theorem restartContinuesAboveAllocated : Obligations.RestartContinuesAboveAllocated := by
  intro s t a rest hs h hd he hq ha hr ho
  have al := exec_seqNext_allocated hs h hd he
  have hseq : bytesWord .little (storeBytes (s.regs.seq + 1#32)) = s.regs.seq + 1#32 := bytesWord_wordBytes ..
  refine ⟨_, seqLoadTakesStoredValue t.resetInput a rest _ rfl ha hr ho al.nvs (length_wordBytes ..).ge, rfl, rfl,
    hseq.trans al.seq.symm, ?_⟩
  have hne : s.regs.seq + 1#32 ≠ 0#32 := by bv_omega
  show t.regs.res.toNat < (bytesWord .little (storeBytes (s.regs.seq + 1#32))).toNat
  rw [hseq, al.res, toNat_add_one hne]
  exact Nat.lt_succ_self _

end Sys2Proof.Machine
end

section
/-! SUPPORT. The frame on values: the header fields read from the bytes at their offsets, an encoded frame verifies, and a
verified frame with one byte changed does not (R154 to R160). -/

namespace Sys2Proof.Codec

/-! ## The word a string begins with -/

/-- A word is read from the first four bytes of a string alone. -/
theorem bytesWord_take (o : ByteOrder) {l : List Byte} (h : 4 ≤ l.length) : bytesWord o (l.take 4) = bytesWord o l := by
  match l, h with
  | a :: b :: c :: d :: rest, _ => cases o <;> rfl

/-- Two strings begin with the same word exactly when their first four bytes are the same. -/
theorem bytesWord_eq_iff (o : ByteOrder) {l m : List Byte} (hl : 4 ≤ l.length) (hm : 4 ≤ m.length) :
    bytesWord o l = bytesWord o m ↔ l.take 4 = m.take 4 := by
  constructor
  · intro h
    rw [← wordBytes_bytesWord_take o hl, h, wordBytes_bytesWord_take o hm]
  · intro h
    rw [← bytesWord_take o hl, h, bytesWord_take o hm]

theorem wordBytes_zero (o : ByteOrder) : wordBytes o 0#32 = [0#8, 0#8, 0#8, 0#8] := by cases o <;> decide

/-! ## An encoded frame -/

/-- The copy with its checksum field zeroed is the frame with 0 there (R94, R157). -/
theorem zeroChecksum_headerBytes_append (o : ByteOrder) (c l q k : Word) (p : List Byte) :
    zeroChecksum (headerBytes o c l q k ++ p) = headerBytes o c l q 0#32 ++ p := by
  have h12 : (wordBytes o c ++ wordBytes o l ++ wordBytes o q).length = 12 := by simp
  rw [zeroChecksum_eq, List.drop_left' (length_headerBytes o c l q k), headerBytes, List.append_assoc _ (wordBytes o k),
    List.take_left' h12, headerBytes, wordBytes_zero]

/-- A stamp gives a header its number and the checksum over the frame with 0 in the field (R152, R154). -/
theorem stampFrame_headerBytes_append (o : ByteOrder) (c l q k seq : Word) (p : List Byte) :
    stampFrame o seq (headerBytes o c l q k ++ p) =
      headerBytes o c l seq (crc32 (headerBytes o c l seq 0#32 ++ p)) ++ p := by
  have h8 : (wordBytes o c ++ wordBytes o l).length = 8 := by simp
  rw [stampFrame_eq, List.drop_left' (length_headerBytes o c l q k), headerBytes, List.append_assoc _ (wordBytes o k),
    List.append_assoc _ (wordBytes o q), List.take_left' h8, headerBytes, headerBytes, wordBytes_zero]

theorem decodeHeader_encodeFrame (o : ByteOrder) (cmd seq : Word) (p : List Byte) :
    decodeHeader o (encodeFrame o cmd seq p) = ⟨cmd, lengthWord p, seq, frameChecksum o cmd seq p⟩ :=
  decodeHeader_headerBytes_append ..

/-- The checksum recomputed over an encoded frame is the one in its field, whatever the length (R154, R157). -/
theorem crc32_zeroChecksum_encodeFrame (o : ByteOrder) (cmd seq : Word) (p : List Byte) :
    crc32 (zeroChecksum (encodeFrame o cmd seq p)) = (decodeHeader o (encodeFrame o cmd seq p)).checksum := by
  rw [decodeHeader_encodeFrame, encodeFrame, zeroChecksum_headerBytes_append]
  rfl

/-- Settles O19: the length field fits its payload, and the checksum was taken over the frame with 0 in the field. -/
theorem encodedFrameVerifies : Obligations.EncodedFrameVerifies := by
  intro o cmd seq p hp
  have hfits : lengthFits p = true := lengthFits_iff.mpr (by omega)
  have hlen : lengthMatches o (encodeFrame o cmd seq p) = true := by
    rw [lengthMatches_eq, decodeHeader_encodeFrame, toNat_lengthWord hfits, length_encodeFrame, Nat.add_sub_cancel_left,
      beq_self_eq_true]
  refine ⟨?_, decodeHeader_encodeFrame .., List.drop_left' (length_headerBytes ..)⟩
  rw [verifyFrame, hlen, crc32_zeroChecksum_encodeFrame, beq_self_eq_true, Bool.true_and]

/-! ## One byte changed -/

/-- The copy with its checksum field zeroed, byte by byte (R157). -/
theorem getElem?_zeroChecksum {f : List Byte} (h : 16 ≤ f.length) (j : Nat) :
    (zeroChecksum f)[j]? = if 12 ≤ j ∧ j < 16 then some 0#8 else f[j]? := by
  have hA : (f.take 12).length = 12 := by rw [List.length_take]; omega
  have hAZ : (f.take 12 ++ [0#8, 0#8, 0#8, 0#8]).length = 16 := by rw [List.length_append, hA]; rfl
  rw [zeroChecksum_eq]
  by_cases h16 : 16 ≤ j
  · rw [if_neg (by omega), List.getElem?_append_right (by omega), hAZ, List.getElem?_drop, Nat.add_sub_cancel' h16]
  rw [List.getElem?_append_left (by omega)]
  by_cases h12 : 12 ≤ j
  · rw [if_pos ⟨h12, by omega⟩, List.getElem?_append_right (by omega), hA]
    exact List.getElem?_replicate_of_lt (n := 4) (by omega)
  · rw [if_neg (by omega), List.getElem?_append_left (by omega), List.getElem?_take_of_lt (by omega)]

/-- A byte of the checksum field is not seen in the zeroed copy. -/
theorem zeroChecksum_set_field {f : List Byte} (h : 16 ≤ f.length) {i : Nat} (hi : 12 ≤ i ∧ i < 16) (x : Byte) :
    zeroChecksum (f.set i x) = zeroChecksum f := by
  apply List.ext_getElem?
  intro j
  rw [getElem?_zeroChecksum (by rwa [List.length_set]), getElem?_zeroChecksum h]
  split
  · rfl
  · exact List.getElem?_set_ne (by omega)

/-- A byte elsewhere stands in the zeroed copy as in the frame. -/
theorem zeroChecksum_set_outside {f : List Byte} (h : 16 ≤ f.length) {i : Nat} (hi : ¬ (12 ≤ i ∧ i < 16)) (x : Byte) :
    zeroChecksum (f.set i x) = (zeroChecksum f).set i x := by
  have hl : (zeroChecksum f).length = f.length := by
    simp only [zeroChecksum_eq, List.length_append, List.length_take, List.length_drop, List.length_cons, List.length_nil]
    omega
  apply List.ext_getElem?
  intro j
  rw [getElem?_zeroChecksum (by rwa [List.length_set]), List.getElem?_set, List.getElem?_set, hl,
    getElem?_zeroChecksum h]
  split
  · rw [if_neg (by omega)]
  · rfl

/-- The checksum field of two frames is the same exactly when its four bytes are. -/
theorem checksum_eq_iff (o : ByteOrder) {f g : List Byte} (hf : 16 ≤ f.length) (hg : 16 ≤ g.length) :
    (decodeHeader o f).checksum = (decodeHeader o g).checksum ↔ ∀ j, 12 ≤ j ∧ j < 16 → f[j]? = g[j]? := by
  rw [decodeHeader_eq, decodeHeader_eq, bytesWord_eq_iff o (by rw [List.length_drop]; omega)
    (by rw [List.length_drop]; omega), List.ext_getElem?_iff]
  simp only [List.getElem?_take, List.getElem?_drop]
  constructor
  · intro h j hj
    have hk := h (j - 12)
    rwa [if_pos (by omega), if_pos (by omega), Nat.add_sub_cancel' hj.1] at hk
  · intro h k
    split
    · exact h _ (by omega)
    · rfl

/-- A frame whose checksum is right no longer verifies with another value of one byte: of the field, which the zeroed copy
does not see, or of the rest, which the field does not see (R126, R159, R160). -/
theorem verifyFrame_set (o : ByteOrder) {f : List Byte} (h : 16 ≤ f.length)
    (hc : crc32 (zeroChecksum f) = (decodeHeader o f).checksum) {i : Nat} (hi : i < f.length) {x : Byte}
    (hx : x ≠ f[i]) : verifyFrame o (f.set i x) = false := by
  have hl : 16 ≤ (f.set i x).length := by rwa [List.length_set]
  have hne : crc32 (zeroChecksum (f.set i x)) ≠ (decodeHeader o (f.set i x)).checksum := by
    by_cases hf : 12 ≤ i ∧ i < 16
    · rw [zeroChecksum_set_field h hf, hc]
      intro he
      have hb := (checksum_eq_iff o h hl).mp he i hf
      rw [List.getElem?_set_self hi, List.getElem?_eq_getElem hi] at hb
      exact hx (Option.some.inj hb).symm
    · have hk : (decodeHeader o (f.set i x)).checksum = (decodeHeader o f).checksum :=
        (checksum_eq_iff o hl h).mpr fun j hj => List.getElem?_set_ne (by rintro rfl; exact hf hj)
      have hz : (zeroChecksum f)[i]? = some f[i] := by
        rw [getElem?_zeroChecksum h, if_neg hf, List.getElem?_eq_getElem hi]
      obtain ⟨hlt, hz⟩ := List.getElem?_eq_some_iff.mp hz
      rw [zeroChecksum_set_outside h hf, hk, ← hc]
      exact crc32_set_ne hlt (by rwa [hz])
  rw [verifyFrame, beq_false_of_ne hne, Bool.and_false]

/-- Settles O20: a flipped bit gives the byte another value. -/
theorem oneFlippedBitFailsVerify : Obligations.OneFlippedBitFailsVerify := by
  intro o cmd seq p _ i k
  exact verifyFrame_set o (by rw [length_encodeFrame]; omega) (crc32_zeroChecksum_encodeFrame o cmd seq p) i.isLt
    (flipBit_ne _ k)

end Sys2Proof.Codec
end

section
/-! SUPPORT. The operations of the Frame Codec: what each leaves in TXBUF and in the registers, its error and its
precondition (R151 to R159). -/

namespace Sys2Proof.Machine

open Codec

/-! ## `FRM.LAYOUT` -/

/-- TXBUF after a layout: the header with zero number and checksum, the bytes behind it as they were (R151). -/
def laidOut (m : Memory) (cmd len : Word) : Memory := m.write 0 (headerBytes Config.byteOrder cmd len 0#32 0#32)

theorem ofNat_count1 (s : State) : BitVec.ofNat 32 s.count1 = s.regs.arg1 := by
  rw [State.count1, BitVec.ofNat_toNat, BitVec.setWidth_eq]

/-- A layout of ARG1 payload bytes that fit (R151, R153). -/
theorem frmLayout_count1 {cmd : Word} {s : State} (h : s.count1 ≤ s.cfg.txPayloadMax) :
    frmLayout cmd s.count1 s = .ok () { s with
      txbuf := laidOut s.txbuf cmd s.regs.arg1, regs := { s.regs with txlen := s.regs.arg1 } } := by
  rw [frmLayout_fits h, ofNat_count1]
  rfl

theorem get?_laidOut_outside (m : Memory) (cmd len : Word) {a : Nat} (h : 16 ≤ a) :
    (laidOut m cmd len).get? a = m.get? a :=
  Memory.get?_write_outside (.inr (by rw [length_headerBytes]; omega))

theorem written_laidOut_header (m : Memory) (cmd len : Word) : (laidOut m cmd len).written 0 16 = true :=
  Memory.written_write_self m (Nat.le_refl 0) (by rw [length_headerBytes])

theorem read_laidOut_header (m : Memory) (cmd len : Word) :
    (laidOut m cmd len).read 0 16 = headerBytes Config.byteOrder cmd len 0#32 0#32 := by
  have h := Memory.read_write_self m 0 (headerBytes Config.byteOrder cmd len 0#32 0#32)
  rwa [length_headerBytes] at h

/-- The laid-out frame: the header, and the payload as it was (R151). -/
theorem read_laidOut (m : Memory) (cmd len : Word) (n : Nat) :
    (laidOut m cmd len).read 0 (16 + n) = headerBytes Config.byteOrder cmd len 0#32 0#32 ++ m.read 16 n := by
  rw [Memory.read_add, read_laidOut_header, laidOut,
    Memory.read_write_outside (.inr (by rw [length_headerBytes])), Nat.zero_add]

/-- `FRM.LAYOUT` of a payload that fits (R28, R151). -/
theorem exec_frmLayout_of_le {s : State} (hs : s.ready = true) (h : s.count1 ≤ s.cfg.txPayloadMax) :
    exec .frmLayout s = .next { s.after 0x3#4 with
      txbuf := laidOut s.txbuf s.regs.arg0 s.regs.arg1
      regs := { (s.after 0x3#4).regs with txlen := s.regs.arg1 } } := by
  refine (operate_run (pre := noPrecondition) hs rfl).trans ?_
  rw [frmLayoutBody, frmLayout_count1 (by exact h)]
  simp only [Run.settle, State.finished, State.begin, State.after, Status.ended]

/-- Settles O14: the layout fits, or raises before any write. -/
theorem layoutOperation : Obligations.LayoutOperation := by
  intro s hs
  refine ⟨fun hn => ?_, fun hn => ?_⟩
  · refine ⟨_, exec_frmLayout_of_le hs hn, ?_⟩
    dsimp only
    exact ⟨rfl, written_laidOut_header .., read_laidOut_header .., fun a => get?_laidOut_outside _ _ _⟩
  · refine (operate_run (pre := noPrecondition) hs rfl).trans ?_
    rw [frmLayoutBody, frmLayout_full (by exact hn), ← raised_begin hs rfl]
    rfl

/-! ## `FRM.STAMP` -/

/-- `FRM.STAMP` of a frame whose other bytes were written (R28, R152). -/
theorem exec_frmStamp_of_stampable {s : State} (hs : s.ready = true)
    (hw : s.stampable s.regs.txlen.toNat = true) :
    exec .frmStamp s = .next { s.after 0x4#4 with
      txbuf := stamped s.txbuf s.regs.txlen.toNat s.regs.arg0
      regs := { (s.after 0x4#4).regs with
        res := crc32 (stampInput s.txbuf s.regs.txlen.toNat s.regs.arg0)
        crcAcc := crc32 (stampInput s.txbuf s.regs.txlen.toNat s.regs.arg0) ^^^ 0xFFFFFFFF#32 } } := by
  refine (operate_run hs (by simp [stampPrecondition, hw])).trans ?_
  rw [frmStampBody, frmStamp_eq, crcRemainder_eq]
  simp only [Run.settle, State.finished, State.begin, State.after, Status.ended]

/-- Settles O15: the stamped frame, whose checksum field is RES; or a byte without a value. -/
theorem stampOperation : Obligations.StampOperation := by
  intro s hs
  refine ⟨fun hw => ?_, fun hw => ?_⟩
  · refine ⟨_, crc32 (stampInput s.txbuf s.regs.txlen.toNat s.regs.arg0), exec_frmStamp_of_stampable hs hw, ?_⟩
    dsimp only [State.txFrame]
    exact ⟨read_stamped .., (read_stamped_sum ..).symm, written_stamped_field .., rfl, fun a => get?_stamped_outside⟩
  · exact operate_refused hs (by simp [stampPrecondition, hw])

/-! ## `FRM.ENCODE` -/

/-- What the stamp of a laid-out frame takes its checksum over: the frame with its number and 0 in the field (R153). -/
theorem stampInput_laidOut (m : Memory) (cmd len seq : Word) (n : Nat) :
    stampInput (laidOut m cmd len) n seq = headerBytes Config.byteOrder cmd len seq 0#32 ++ m.read 16 n := by
  have h8 : (wordBytes Config.byteOrder cmd ++ wordBytes Config.byteOrder len).length = 8 := by simp
  have hcmd : (laidOut m cmd len).read 0 8 = wordBytes Config.byteOrder cmd ++ wordBytes Config.byteOrder len := by
    rw [← Memory.take_read _ 0 16 8 (by omega), read_laidOut_header, headerBytes, List.append_assoc _ _ (wordBytes _ _),
      List.take_left' h8]
  have hpay : (laidOut m cmd len).read 16 n = m.read 16 n :=
    Memory.read_write_outside (.inr (by rw [length_headerBytes]))
  rw [stampInput_eq, hcmd, hpay, headerBytes, wordBytes_zero]

/-- Layout, then stamp, is the frame that `encode` makes (R153, R154). -/
theorem read_stamped_laidOut (m : Memory) (cmd seq : Word) {n : Nat} {len : Word} (h : len = lengthWord (m.read 16 n)) :
    (stamped (laidOut m cmd len) n seq).read 0 (16 + n) = encodeFrame Config.byteOrder cmd seq (m.read 16 n) := by
  rw [read_stamped, read_laidOut, stampFrame_headerBytes_append, h]
  rfl

/-- ARG1 is the length word of a payload of ARG1 bytes (R95, R153). -/
theorem lengthWord_read_count1 (s : State) : lengthWord (s.txbuf.read 16 s.count1) = s.regs.arg1 := by
  rw [lengthWord, Memory.length_read, ofNat_count1]

/-- Where the payload fits, `FRM.ENCODE` lays out and stamps; the checksum is that of the encoded frame (R153, R154). -/
theorem frmEncodeBody_of_le {s : State} (h : s.count1 ≤ s.cfg.txPayloadMax) :
    frmEncodeBody s = .ok () { s with
      txbuf := stamped (laidOut s.txbuf s.regs.arg0 s.regs.arg1) s.count1 s.regs.arg2
      regs := { s.regs with
        txlen := s.regs.arg1
        res := frameChecksum .little s.regs.arg0 s.regs.arg2 (s.txbuf.read 16 s.count1)
        crcAcc := frameChecksum .little s.regs.arg0 s.regs.arg2 (s.txbuf.read 16 s.count1) ^^^ 0xFFFFFFFF#32 } } := by
  have hcrc : crc32 (stampInput (laidOut s.txbuf s.regs.arg0 s.regs.arg1) s.count1 s.regs.arg2) =
      frameChecksum .little s.regs.arg0 s.regs.arg2 (s.txbuf.read 16 s.count1) := by
    rw [stampInput_laidOut, frameChecksum, lengthWord_read_count1]
    rfl
  rw [← hcrc, frmEncodeBody, frmEncode, frmLayout_count1 h, Run.bind_ok, frmStamp_eq, crcRemainder_eq]
  simp only [State.count1]

/-- `FRM.ENCODE` of a payload that fits and was written: layout, then stamp (R28, R153). -/
theorem exec_frmEncode_of_le {s : State} (hs : s.ready = true) (h : s.count1 ≤ s.cfg.txPayloadMax)
    (hw : s.txbuf.written 16 s.count1 = true) :
    exec .frmEncode s = .next { s.after 0x5#4 with
      txbuf := stamped (laidOut s.txbuf s.regs.arg0 s.regs.arg1) s.count1 s.regs.arg2
      regs := { (s.after 0x5#4).regs with
        txlen := s.regs.arg1
        res := frameChecksum .little s.regs.arg0 s.regs.arg2 (s.txbuf.read 16 s.count1)
        crcAcc := frameChecksum .little s.regs.arg0 s.regs.arg2 (s.txbuf.read 16 s.count1) ^^^ 0xFFFFFFFF#32 } } := by
  refine (operate_run hs (by simp [encodePrecondition, hw])).trans ?_
  rw [frmEncodeBody_of_le (by exact h)]
  simp only [Run.settle, State.finished, State.begin, State.count1, State.after, Status.ended]

/-- Settles O16: layout and stamp make the encoded frame, a payload that does not fit raises, and a byte without a value
refuses. -/
theorem encodeOperation : Obligations.EncodeOperation := by
  intro s hs
  refine ⟨fun hn hw => ?_, fun hn => ?_, fun hn hw => ?_⟩
  · refine ⟨_, exec_frmEncode_of_le hs hn hw, ?_⟩
    dsimp only [State.txFrame]
    refine ⟨read_stamped_laidOut _ _ _ (lengthWord_read_count1 s).symm, rfl, fun a ha => ?_⟩
    exact (get?_stamped_outside (.inr ha)).trans (get?_laidOut_outside _ _ _ ha)
  · refine (operate_run hs (by simp [encodePrecondition, hn])).trans ?_
    rw [frmEncodeBody, frmEncode, frmLayout_full (by exact hn), ← raised_begin hs rfl]
    rfl
  · exact operate_refused hs (by simp [encodePrecondition, hw, hn])

/-! ## `FRM.DECHDR` -/

/-- The fields of a header in a buffer, each from its own four bytes (R93, R155). -/
theorem decodeHeader_read_fields (o : ByteOrder) (m : Memory) :
    decodeHeader o (m.read 0 16) = ⟨bytesWord o (m.read 0 4), bytesWord o (m.read 4 4), bytesWord o (m.read 8 4),
      bytesWord o (m.read 12 4)⟩ := by
  have hfield (a n : Nat) (hn : 4 ≤ n) : bytesWord o (m.read a n) = bytesWord o (m.read a 4) := by
    rw [← bytesWord_take o (by rwa [Memory.length_read]), Memory.take_read _ _ _ _ hn]
  simp only [decodeHeader_eq, Memory.drop_read, Nat.zero_add, hfield _ _ (by decide : 4 ≤ 16 - 4),
    hfield _ _ (by decide : 4 ≤ 16 - 8), hfield _ _ (by decide : 4 ≤ 16 - 12), hfield _ _ (by decide : 4 ≤ 16)]

/-- Settles O17: the four fields; or a byte without a value. -/
theorem decodeHeaderOperation : Obligations.DecodeHeaderOperation := by
  intro s hs
  refine ⟨fun hw => ?_, fun hw => ?_⟩
  · refine (operate_run hs (by simp [dechdrPrecondition, hw])).trans ?_
    rw [frmDechdr, State.rxFrame, Config.headerSize_eq, decodeHeader_read_fields]
    rfl
  · exact operate_refused hs (by simp [dechdrPrecondition, hw])

/-! ## `FRM.VERIFY` -/

/-- A length below the header or above the buffer raises (R157). -/
theorem frmVerify_outside {len : Nat} {s : State} (h : len < 16 ∨ s.cfg.rxCapacity < len) :
    frmVerify len s = raise .allocationFailure s :=
  if_pos (by rwa [Bool.or_eq_true, decide_eq_true_eq, decide_eq_true_eq])

/-- The guard of `frmVerify` does not hold for a length from the header's up to the buffer's. -/
theorem frmVerify_guard_false {len : Nat} {s : State} (h16 : 16 ≤ len) (hcap : len ≤ s.cfg.rxCapacity) :
    ¬ (decide (len < Config.headerSize) || decide (s.cfg.rxCapacity < len)) = true := by
  rw [Bool.or_eq_true, decide_eq_true_eq, decide_eq_true_eq, Config.headerSize_eq]
  omega

/-- Within those bounds a wrong length field answers 0 at once (R159). -/
theorem frmVerify_of_mismatch {len : Nat} {s : State} (h16 : 16 ≤ len) (hcap : len ≤ s.cfg.rxCapacity)
    (hm : lengthMatches Config.byteOrder (s.rxFrame len) = false) :
    frmVerify len s = .ok false { s with regs := { s.regs with res := 0#32 } } := by
  rw [frmVerify, if_neg (frmVerify_guard_false h16 hcap)]
  simp only [hm, Bool.not_false, if_true]

/-- With the right length field the answer is that of `verify`, and the remainder that of the recomputation (R157, R158). -/
theorem frmVerify_of_match {len : Nat} {s : State} (h16 : 16 ≤ len) (hcap : len ≤ s.cfg.rxCapacity)
    (hm : lengthMatches Config.byteOrder (s.rxFrame len) = true) :
    frmVerify len s = .ok (verifyFrame Config.byteOrder (s.rxFrame len)) { s with regs := { s.regs with
      res := if verifyFrame Config.byteOrder (s.rxFrame len) then 1#32 else 0#32
      crcAcc := crc32 (zeroChecksum (s.rxFrame len)) ^^^ 0xFFFFFFFF#32 } } := by
  rw [frmVerify, if_neg (frmVerify_guard_false h16 hcap), verifyFrame]
  simp only [hm, Bool.not_true, Bool.false_eq_true, if_false, Bool.true_and, ← crcRemainder_eq]
  rfl

/-- A length that raises asks for no byte (R157). -/
theorem verifyPrecondition_outside {s : State} (h : s.count0 < 16 ∨ s.cfg.rxCapacity < s.count0) :
    verifyPrecondition s = none := by
  have hout : ¬ (16 ≤ s.count0 ∧ s.count0 ≤ s.cfg.rxCapacity) := by omega
  refine if_neg fun hc => hout ?_
  obtain ⟨hc, hcap⟩ := Bool.and_eq_true_iff.mp hc
  exact ⟨of_decide_eq_true (Bool.and_eq_true_iff.mp hc).1, of_decide_eq_true hcap⟩

/-- Settles O18: the length field decides first, then the checksum; a length outside raises before any byte is read. -/
theorem verifyOperation : Obligations.VerifyOperation := by
  intro s hs
  refine ⟨fun h16 hcap hw => ?_, fun hout => ?_, fun h16 hcap hw => ?_⟩
  · have hrun : exec .frmVerify s = .next (frmVerifyBody (s.begin 0x7#4)).settle :=
      operate_run hs (by simp [verifyPrecondition, hw])
    refine ⟨fun hm => hrun.trans ?_, fun hm => hrun.trans ?_⟩
    · rw [frmVerifyBody, frmVerify_of_mismatch (by exact h16) (by exact hcap) (by exact hm)]
      rfl
    · rw [frmVerifyBody, frmVerify_of_match (by exact h16) (by exact hcap) (by exact hm)]
      rfl
  · refine (operate_run hs (verifyPrecondition_outside hout)).trans ?_
    rw [frmVerifyBody, frmVerify_outside (by exact hout), ← raised_begin hs rfl]
    rfl
  · exact operate_refused hs (by simp [verifyPrecondition, h16, hcap, hw])

end Sys2Proof.Machine
end

section
/-! SUPPORT. The marker search: where it stops on a byte string, what it answers for every environment, and what it does
under a prompt environment and under one that lets the bound pass (R170 to R179). -/

namespace Sys2Proof.Machine

/-! ## The search on a byte string -/

/-- A marker ends at byte `k` of a byte string: the bytes `k - 2` and `k - 1` are `FE CA` (R92, R172). -/
def MarkerEndsAt (bs : List Byte) (k : Nat) : Prop :=
  2 ≤ k ∧ bs[k - 2]? = some 0xFE#8 ∧ bs[k - 1]? = some 0xCA#8

/-- The marker stands at the front of a byte string, given as its first byte and the others. -/
def MarkerAtFront (b : Byte) (bs : List Byte) : Prop := b = 0xFE#8 ∧ bs.head? = some 0xCA#8

/-- With one byte put in front, a marker ends where one did before, one further on, or it is the front. -/
theorem markerEndsAt_cons {b : Byte} {bs : List Byte} {k : Nat} :
    MarkerEndsAt (b :: bs) (k + 1) ↔ MarkerEndsAt bs k ∨ (k = 1 ∧ MarkerAtFront b bs) := by
  match k with
  | 0 => simp [MarkerEndsAt]
  | 1 => simp [MarkerEndsAt, MarkerAtFront, List.head?_eq_getElem?]
  | k + 2 => simp [MarkerEndsAt]

/-- The search ends behind a marker at the front. -/
theorem synScan_search_of_front {b : Byte} {bs : List Byte} (h : MarkerAtFront b bs) :
    synScan .search (b :: bs) = some 2 := by
  obtain ⟨rfl, h⟩ := h
  obtain ⟨cs, rfl⟩ := List.head?_eq_some_iff.mp h
  rfl

/-- Where no marker is at the front the search goes on behind the first byte: a byte that is no `CA` leads from
GOT_FIRST where it leads from SEARCH (R172). -/
theorem synScan_search_of_not_front {b : Byte} {bs : List Byte} (h : ¬ MarkerAtFront b bs) :
    synScan .search (b :: bs) = (synScan .search bs).map (· + 1) := by
  by_cases hb : b = Config.markerFirst
  · have hgot : synScan .search (b :: bs) = (synScan .gotFirst bs).map (· + 1) := by simp [synScan, synNext, hb]
    rw [hgot]
    cases bs with
    | nil => rfl
    | cons c cs =>
      have hc : c ≠ Config.markerSecond := fun hc => h ⟨hb, by rw [hc]; rfl⟩
      have hstep : synNext .gotFirst c = synNext .search c := by simp [synNext, hc]
      rw [synScan, synScan, hstep]
  · simp [synScan, synNext, hb]

/-- The search succeeds exactly behind the first marker (R172). -/
theorem synScan_search_eq_some_iff (bs : List Byte) (k : Nat) :
    synScan .search bs = some k ↔ MarkerEndsAt bs k ∧ ∀ j < k, ¬ MarkerEndsAt bs j := by
  induction bs generalizing k with
  | nil => simp [synScan, MarkerEndsAt]
  | cons b bs ih =>
    by_cases hf : MarkerAtFront b bs
    · have hend : MarkerEndsAt (b :: bs) 2 := markerEndsAt_cons.mpr (.inr ⟨rfl, hf⟩)
      rw [synScan_search_of_front hf, Option.some_inj]
      constructor
      · rintro rfl
        exact ⟨hend, fun j hj hm => absurd hm.1 (by omega)⟩
      · rintro ⟨hm, hfirst⟩
        exact (hm.1.eq_or_lt).resolve_right fun hlt => hfirst 2 hlt hend
    · have hcons (j : Nat) : MarkerEndsAt (b :: bs) (j + 1) ↔ MarkerEndsAt bs j := by simp [markerEndsAt_cons, hf]
      rw [synScan_search_of_not_front hf]
      cases k with
      | zero => simp [MarkerEndsAt]
      | succ k =>
        constructor
        · intro h
          obtain ⟨m, hm, hk⟩ := Option.map_eq_some_iff.mp h
          obtain rfl : m = k := Nat.succ.inj hk
          obtain ⟨hend, hfirst⟩ := (ih m).mp hm
          refine ⟨(hcons m).mpr hend, fun j hj h => ?_⟩
          obtain ⟨i, rfl⟩ : ∃ i, j = i + 1 := ⟨j - 1, by have := h.1; omega⟩
          exact hfirst i (by omega) ((hcons i).mp h)
        · rintro ⟨hend, hfirst⟩
          rw [(ih k).mpr ⟨(hcons k).mp hend, fun j hj h => hfirst (j + 1) (by omega) ((hcons j).mpr h)⟩]
          rfl

/-- Settles O21: a marker ends at byte `k`, and at no byte before it. -/
theorem searchFindsFirstMarker : Obligations.SearchFindsFirstMarker := by
  intro bs k
  rw [synScan_search_eq_some_iff, MarkerEndsAt, and_assoc, and_assoc]
  have hfirst : (∀ j < k, ¬ MarkerEndsAt bs j) ↔
      ∀ j, 2 ≤ j → j < k → ¬ (bs[j - 2]? = some 0xFE#8 ∧ bs[j - 1]? = some 0xCA#8) :=
    ⟨fun h j hj hk hm => h j hk ⟨hj, hm⟩, fun h j hk hm => h j hm.1 hk hm.2⟩
  rw [hfirst]

/-! ## For every environment -/

theorem takenBytes_append (a b : List Access) : takenBytes (a ++ b) = takenBytes a ++ takenBytes b :=
  List.flatMap_append

/-- An access that leaves the registers alone and takes the bytes `l`. -/
structure Took (l : List Byte) (s t : State) : Prop where
  regs  : t.regs = s.regs
  taken : takenBytes t.edge.trace = takenBytes s.edge.trace ++ l

theorem Quiet.took {x : Access} {s t : State} (h : Quiet x s t) : Took (takenBytes [x]) s t :=
  ⟨by rw [h.only], by rw [h.trace, takenBytes_append]⟩

theorem clock_took {s u : State} {t : Nat × Nat} (h : clock s = .ok t u) : Took [] s u := by
  have hq := clock_quiet s
  rw [h] at hq
  exact hq.took

theorem rxRead_took {n t : Nat} {s u : State} {got : List Byte} (h : rxRead n t s = .ok got u) : Took got s u := by
  have hgot : takenBytes [.rxRead n got] = got := List.append_nil got
  rw [← hgot]
  exact (rxRead_eq_ok h).1.took

/-- The answer of a search in RES, and what it says of the bytes `l` that were taken from the SYN_STATE `st` on: 1 where
they end in their first marker, 0 where they hold none (R172 to R175). -/
structure AnswersBy (st : SynState) (l : List Byte) (found : Bool) (t : State) : Prop where
  res  : t.regs.res = if found then 1#32 else 0#32
  scan : synScan st l = if found then some l.length else none

/-- A byte that ends no marker, taken first, leaves the answer as it is. -/
theorem AnswersBy.cons {st : SynState} {b : Byte} {l : List Byte} {found : Bool} {t : State}
    (hb : (synNext st b).2 = false) (h : AnswersBy (synNext st b).1 l found t) : AnswersBy st (b :: l) found t := by
  refine ⟨h.res, ?_⟩
  rw [synScan, hb, if_neg Bool.false_ne_true, h.scan]
  cases found <;> rfl

/-- The loop of a search that was not cut took some bytes, and answers by them. -/
theorem synLoop_eq_ok {bound t0 heads : Nat} {s t : State} {found : Bool}
    (h : synLoop bound t0 heads s = .ok found t) :
    ∃ l, takenBytes t.edge.trace = takenBytes s.edge.trace ++ l ∧ AnswersBy s.regs.syn l found t := by
  induction heads generalizing s with
  | zero =>
    cases h
    exact ⟨[], (List.append_nil _).symm, rfl, rfl⟩
  | succ heads ih =>
    obtain ⟨now, u, hu, h⟩ := Run.bind_eq_ok h
    have hclock := clock_took hu
    split at h
    · cases h
      exact ⟨[], hclock.taken, rfl, rfl⟩
    · obtain ⟨got, v, hv, h⟩ := Run.bind_eq_ok h
      have hread := rxRead_took hv
      have hsyn : v.regs.syn = s.regs.syn := by rw [hread.regs, hclock.regs]
      have htaken : takenBytes v.edge.trace = takenBytes s.edge.trace ++ got := by
        rw [hread.taken, hclock.taken, List.append_nil]
      cases got with
      | nil =>
        obtain ⟨l, hl, ha⟩ := ih h
        exact ⟨l, by rw [hl, htaken, List.append_nil], hsyn ▸ ha⟩
      | cons b more =>
        obtain rfl : more = [] := List.length_eq_zero_iff.mp (by simpa using (rxRead_eq_ok hv).2)
        rw [← hsyn]
        dsimp only at h
        split at h
        next hfound =>
          cases h
          exact ⟨[b], htaken, rfl, by rw [synScan, if_pos hfound]; rfl⟩
        next hgo =>
          obtain ⟨l, hl, ha⟩ := ih h
          exact ⟨b :: l, by rw [hl, State.toSyn_edge, htaken, List.append_assoc]; rfl,
            .cons (Bool.not_eq_true _ ▸ hgo) ha⟩

/-- A search that was not cut took some bytes, and answers by them, starting in SEARCH (R171). -/
theorem synAwait_eq_ok {bound : Nat} {s t : State} {found : Bool} (h : synAwait bound s = .ok found t) :
    ∃ l, takenBytes t.edge.trace = takenBytes s.edge.trace ++ l ∧ AnswersBy .search l found t := by
  obtain ⟨now, u, hu, h⟩ := Run.bind_eq_ok h
  obtain ⟨l, hl, ha⟩ := synLoop_eq_ok h
  exact ⟨l, by rw [hl, State.toSyn_edge, (clock_took hu).taken, List.append_nil], ha⟩

/-- `SYN.AWAIT` on an open transport runs to its end (R273). -/
theorem exec_synAwait {s : State} (hs : s.ready = true) (ho : s.edge.tpOpen = true) :
    exec .synAwait s = .next (synAwaitBody (s.begin 0x8#4)).settle :=
  operate_run hs (by simp [awaitPrecondition, ho])

/-- The operation, where the search answers. -/
theorem synAwaitBody_of_ok {s t : State} {found : Bool} (h : synAwait s.count0 s = .ok found t) :
    synAwaitBody s = .ok () t := by
  rw [synAwaitBody, h, Run.bind_ok]

/-- A `SYN.AWAIT` with DONE set is a search that answered: it raises nothing, and a reset would clear DONE. -/
theorem synAwaitBody_settle_done {s : State} (hd : (synAwaitBody s).settle.regs.status.done = true) :
    ∃ found t, synAwait s.count0 s = .ok found t ∧ (synAwaitBody s).settle = t.finished := by
  rcases settle_cases (synAwaitBody s) with ⟨t, ht, he⟩ | ⟨e, t, ht, -⟩ | ⟨t, -, he⟩
  · obtain ⟨found, u, hu, hut⟩ := Run.bind_eq_ok ht
    cases hut
    exact ⟨found, t, hu, he⟩
  · rcases Run.bind_eq_stop ht with hu | ⟨_, _, -, hk⟩
    · exact absurd hu (synAwait_not_raised _ _ _ _)
    · cases hk
  · rw [he] at hd
    cases hd

/-- Settles O23: the answer is that of the search, whose bytes decide it. -/
theorem awaitAnswersByBytesTaken : Obligations.AwaitAnswersByBytesTaken := by
  intro s t hs h hd
  rcases operate_eq_next h with ⟨hh, -⟩ | ⟨-, -, rfl⟩
  · rw [(not_halted_of_ready hs).1] at hh
    cases hh
  · obtain ⟨found, u, hu, he⟩ := synAwaitBody_settle_done hd
    obtain ⟨l, hl, hres, hscan⟩ := synAwait_eq_ok hu
    rw [he, State.finished_edge, State.finished_regs]
    refine ⟨l, hl, ?_⟩
    dsimp only
    rw [hres, hscan]
    cases found <;> simp

/-! ## Accesses with given answers -/

theorem clock_of_answers {s : State} {a : EnvAnswer} {rest : List EnvAnswer} (h : s.edge.answers = a :: rest)
    (hr : a.reset = false) :
    clock s = .ok (s.edge.now + a.elapsed, a.count) { s with edge := (s.edge.drawn a rest).record .now } := by
  simp only [clock, afterAccess, Edge.answer_of_answers h, hr, Bool.false_eq_true, if_false]
  rfl

/-! ## A prompt environment -/

/-- A prompt answer, field by field. -/
theorem EnvAnswer.prompt_iff {a : EnvAnswer} : EnvAnswer.prompt a = true ↔
    a.reset = false ∧ a.ok = true ∧ a.elapsed = 0 ∧ a.arrived = [] ∧ 4294967296 ≤ a.count := by
  simp [EnvAnswer.prompt, and_assoc]

theorem Edge.prompt_iff {e : Edge} {n : Nat} :
    e.prompt n = true ↔ n ≤ e.answers.length ∧ ∀ a ∈ e.answers.take n, EnvAnswer.prompt a = true := by
  rw [Edge.prompt, Bool.and_eq_true, decide_eq_true_eq, List.all_eq_true]

/-- The edge after `n` prompt answers to the accesses `xs`, which took `k` bytes. -/
def Edge.prompted (e : Edge) (n k : Nat) (xs : List Access) : Edge :=
  { e with rx := e.rx.drop k, answers := e.answers.drop n, trace := e.trace ++ xs }

theorem Edge.prompted_prompted (e : Edge) (n k n' k' : Nat) (xs xs' : List Access) :
    (e.prompted n k xs).prompted n' k' xs' = e.prompted (n + n') (k + k') (xs ++ xs') := by
  simp [Edge.prompted, List.drop_drop]

/-- What was prompt for longer is still prompt after some prompt answers. -/
theorem Edge.prompt_prompted {e : Edge} {n m : Nat} (h : e.prompt (n + m) = true) (k : Nat) (xs : List Access) :
    (e.prompted n k xs).prompt m = true := by
  obtain ⟨hlen, hall⟩ := Edge.prompt_iff.mp h
  refine Edge.prompt_iff.mpr ⟨?_, fun a ha => hall a ?_⟩
  · rw [Edge.prompted, List.length_drop]
    exact Nat.le_sub_of_add_le' hlen
  · rw [List.take_add]
    exact List.mem_append_right _ ha

/-- A prompt environment has a prompt answer to the next access. -/
theorem Edge.prompt_head {e : Edge} {n : Nat} (h : e.prompt (n + 1) = true) :
    ∃ a, e.answers = a :: e.answers.drop 1 ∧ EnvAnswer.prompt a = true := by
  obtain ⟨hlen, hall⟩ := Edge.prompt_iff.mp h
  match he : e.answers with
  | [] => rw [he] at hlen; cases hlen
  | a :: rest => exact ⟨a, rfl, hall a (by rw [he, List.take_succ_cons]; exact List.mem_cons_self)⟩

/-- An access that draws a prompt answer finds the edge as it was, but for that answer. -/
theorem Edge.drawn_of_prompt (e : Edge) {a : EnvAnswer} (h : EnvAnswer.prompt a = true) (rest : List EnvAnswer) :
    e.drawn a rest = { e with answers := rest } := by
  obtain ⟨-, -, helapsed, harrived, -⟩ := EnvAnswer.prompt_iff.mp h
  rw [Edge.drawn, helapsed, harrived, List.append_nil, Nat.add_zero]

/-- A prompt `Now()`: no time has passed, and a search that starts here may take more loop heads than any bound of a
word (R258; log 5). -/
theorem clock_of_prompt {s : State} {n : Nat} (h : s.edge.prompt (n + 1) = true) :
    ∃ heads, 4294967296 ≤ heads ∧
      clock s = .ok (s.edge.now, heads) { s with edge := s.edge.prompted 1 0 [.now] } := by
  obtain ⟨a, ha, hp⟩ := Edge.prompt_head h
  obtain ⟨hr, -, helapsed, -, hcount⟩ := EnvAnswer.prompt_iff.mp hp
  refine ⟨a.count, hcount, ?_⟩
  rw [clock_of_answers ha hr, Edge.drawn_of_prompt _ hp, helapsed]
  rfl

/-- A prompt `RxRead` answers all it is asked for, as far as the stream reaches (R73). -/
theorem rxRead_of_prompt {s : State} {m : Nat} (h : s.edge.prompt (m + 1) = true) {n : Nat} (hn : n ≤ 4294967296)
    (t : Nat) : rxRead n t s =
      .ok (s.edge.rx.take n) { s with edge := s.edge.prompted 1 n [.rxRead n (s.edge.rx.take n)] } := by
  obtain ⟨a, ha, hp⟩ := Edge.prompt_head h
  obtain ⟨hr, -, helapsed, harrived, hcount⟩ := EnvAnswer.prompt_iff.mp hp
  have hmin : min n a.count = n := Nat.min_eq_left (hn.trans hcount)
  simp only [rxRead, afterAccess, Edge.answer_of_answers ha, hr, helapsed, harrived, hmin, Edge.pass_rx,
    List.append_nil, Bool.false_eq_true, if_false]
  rw [Nat.zero_min]
  simp [Edge.prompted, Edge.pass, Edge.record]

/-- The accesses of the turns of a search that take the bytes `bs`. -/
def searchAccesses (bs : List Byte) : List Access := bs.flatMap fun b => [.now, .rxRead 1 [b]]

/-- The state after a turn of a search that took the byte `b` under a prompt environment (R172, R173). -/
def State.searchTurn (s : State) (b : Byte) : State :=
  { s with edge := s.edge.prompted 2 1 (searchAccesses [b]) }.toSyn (synNext s.regs.syn b).1

/-- A turn of the loop under a prompt environment takes the byte at the front (R172, R173). -/
theorem synLoop_turn_of_prompt {s : State} {n : Nat} (h : s.edge.prompt (n + 2) = true) {b : Byte} {bs : List Byte}
    (hrx : s.edge.rx = b :: bs) (bound heads : Nat) :
    synLoop bound s.edge.now (heads + 1) s =
      if (synNext s.regs.syn b).2 then .ok true ((s.searchTurn b).withRes 1#32)
      else synLoop bound s.edge.now heads (s.searchTurn b) := by
  obtain ⟨c, -, hclock⟩ := clock_of_prompt h
  have hread := rxRead_of_prompt (s := { s with edge := s.edge.prompted 1 0 [.now] })
    (Edge.prompt_prompted (m := n + 1) (by rwa [Nat.add_comm 1]) 0 [.now]) (n := 1) (by decide) s.cfg.tSub
  have htake : (s.edge.prompted 1 0 [.now]).rx.take 1 = [b] := by simp [Edge.prompted, hrx]
  simp only [htake, Edge.prompted_prompted] at hread
  rw [synLoop, hclock, Run.bind_ok, if_neg (by simp), hread]
  rfl

/-- A byte that completes the marker leaves SYN_STATE as it is, GOT_FIRST (R172). -/
theorem synNext_of_found {st : SynState} {b : Byte} (h : (synNext st b).2 = true) : (synNext st b).1 = .gotFirst := by
  unfold synNext at h ⊢
  cases st with
  | search => dsimp only at h; split at h <;> cases h
  | gotFirst =>
    dsimp only at h ⊢
    split at h
    next hb => rw [if_pos hb]
    next => split at h <;> cases h

/-- The loop under a prompt environment takes the bytes through the first marker, and finds it (R173, R176). -/
theorem synLoop_of_prompt {bound k heads : Nat} {s : State} (hk : synScan s.regs.syn s.edge.rx = some k)
    (hheads : k ≤ heads) (hp : s.edge.prompt (2 * k) = true) :
    synLoop bound s.edge.now heads s = .ok true { s with
      regs := { s.regs with res := 1#32, syn := .gotFirst }
      edge := s.edge.prompted (2 * k) k (searchAccesses (s.edge.rx.take k)) } := by
  generalize hrx : s.edge.rx = bs at hk
  induction bs generalizing s k heads with
  | nil => cases hk
  | cons b bs ih =>
    rw [synScan] at hk
    split at hk
    next hfound =>
      obtain rfl : 1 = k := Option.some.inj hk
      obtain ⟨heads, rfl⟩ := Nat.exists_eq_add_one_of_ne_zero (Nat.ne_of_gt hheads)
      rw [synLoop_turn_of_prompt (n := 0) hp hrx, if_pos hfound, State.searchTurn,
        synNext_of_found hfound]
      rfl
    next hgo =>
      obtain ⟨j, hj, rfl⟩ := Option.map_eq_some_iff.mp hk
      obtain ⟨heads, rfl⟩ := Nat.exists_eq_add_one_of_ne_zero (Nat.ne_of_gt (Nat.zero_lt_of_lt hheads))
      rw [synLoop_turn_of_prompt (n := 2 * j) hp hrx, if_neg hgo]
      have hrest : (s.searchTurn b).edge.rx = bs := by rw [State.searchTurn, State.toSyn_edge, Edge.prompted, hrx]; rfl
      have hprompt : (s.searchTurn b).edge.prompt (2 * j) = true := Edge.prompt_prompted (by rwa [Nat.add_comm]) _ _
      refine (ih (s := s.searchTurn b) (Nat.le_of_succ_le_succ hheads) hprompt hrest hj).trans ?_
      simp only [State.searchTurn, State.toSyn_edge, State.toSyn_regs, Edge.prompted_prompted]
      rw [Nat.mul_succ, Nat.add_comm 2, Nat.add_comm 1]
      rfl

/-- A search under a prompt environment finds the first marker of the stream and takes the bytes through it
(R173, R176). -/
theorem synAwait_of_prompt {bound k : Nat} {s : State} (hk : synScan .search s.edge.rx = some k)
    (hlt : k < 4294967296) (hp : s.edge.prompt (2 * k + 1) = true) :
    synAwait bound s = .ok true { s with
      regs := { s.regs with res := 1#32, syn := .gotFirst }
      edge := s.edge.prompted (2 * k + 1) k (.now :: searchAccesses (s.edge.rx.take k)) } := by
  obtain ⟨heads, hheads, hclock⟩ := clock_of_prompt hp
  rw [synAwait, hclock, Run.bind_ok]
  have hp' : (s.edge.prompted 1 0 [.now]).prompt (2 * k) = true := Edge.prompt_prompted (by rwa [Nat.add_comm 1]) _ _
  refine (synLoop_of_prompt (s := { s with edge := s.edge.prompted 1 0 [.now] }.toSyn .search)
    hk (hlt.le.trans hheads) hp').trans ?_
  simp only [State.toSyn_edge, State.toSyn_regs, Edge.prompted_prompted]
  rw [Nat.zero_add, Nat.add_comm 1]
  rfl

/-- Settles O22: the search finds the marker at byte `k`, and the operation ends with what it left. -/
theorem awaitFindsMarker : Obligations.AwaitFindsMarker := by
  intro s k hs ho hk hlt hp
  refine ⟨_, exec_synAwait hs ho, ?_⟩
  rw [synAwaitBody_of_ok (synAwait_of_prompt (s := s.begin 0x8#4) hk hlt hp)]
  rfl

/-! ## A bound that passes -/

/-- A search whose environment lets the bound pass before the first sub-read: a timeout that takes nothing, later than
the bound (R175, R179; log 5). -/
theorem synAwait_of_no_head {bound : Nat} {s : State} {a : EnvAnswer} {rest : List EnvAnswer}
    (h : s.edge.answers = a :: rest) (hr : a.reset = false) (hc : a.count = 0) :
    synAwait bound s = .ok false { s with
      regs := { s.regs with res := 0#32, syn := .search }
      edge := { s.edge.drawn a rest with
        now := s.edge.now + a.elapsed + bound + 1
        trace := s.edge.trace ++ [.now] } } := by
  have hnow : s.edge.now + a.elapsed + (s.edge.now + a.elapsed + bound + 1 - (s.edge.now + a.elapsed)) =
      s.edge.now + a.elapsed + bound + 1 := by omega
  rw [synAwait, clock_of_answers h hr, Run.bind_ok, hc, synLoop]
  simp [Edge.pass, Edge.record, Edge.drawn, State.withRes, State.toSyn, hnow]

/-- Settles O24: the search that gets no loop head, and the precondition. -/
theorem awaitMayTimeOut : Obligations.AwaitMayTimeOut := by
  intro s a rest hs
  constructor
  · intro ho ha hr hc
    refine ⟨_, exec_synAwait hs ho, ?_⟩
    rw [synAwaitBody_of_ok (synAwait_of_no_head (s := s.begin 0x8#4) ha hr hc)]
    have hlate : s.count0 < s.edge.now + a.elapsed + s.count0 + 1 - s.edge.now := by omega
    exact ⟨hlate, rfl⟩
  · intro ho
    exact operate_refused hs (by simp [awaitPrecondition, ho])

end Sys2Proof.Machine
end

section
/-! SUPPORT. How `TRE.XCHG` starts: its precondition and its two tests, the loop of attempts it leads to, and an exchange
that comes to no frame: no attempt allowed, or no number persisted (R186, R188, R190, R206). -/

namespace Sys2Proof.Machine

open Codec

/-! ## The preconditions of the exchanging operations -/

/-- An attempt without the frame's bytes, or else without the transport, is refused (R39, R273). -/
theorem attemptPrecondition_unwritten (s : State) : attemptPrecondition false s = some .txByteWithoutValue := rfl

theorem attemptPrecondition_closed {s : State} (ho : s.edge.tpOpen = false) :
    attemptPrecondition true s = some .transportNotOpen := by
  rw [attemptPrecondition, ho]
  rfl

theorem attemptPrecondition_open {s : State} (ho : s.edge.tpOpen = true) : attemptPrecondition true s = none := by
  rw [attemptPrecondition, ho]
  rfl

/-- An exchange that makes an attempt asks for the frame and the transport (R188, R273). -/
theorem xchgPrecondition_of_attempt {s : State} (hv : s.regs.status.seqValid = true)
    (he : s.count0 ≤ s.cfg.rxPayloadMax) (hm : s.regs.arg1 ≠ 0#32) :
    xchgPrecondition s = attemptPrecondition (s.stampable s.regs.txlen.toNat) s := by
  simp [xchgPrecondition, hv, he, hm]

theorem startPrecondition_of_attempt {s : State} (hm : s.regs.arg1 ≠ 0#32) :
    startPrecondition s = attemptPrecondition true s := by
  simp [startPrecondition, hm]

theorem spiPrecondition_of_attempt {s : State} (hl : s.regs.status.linkOk = true)
    (hv : s.regs.status.seqValid = true) (he : s.count1 ≤ s.cfg.rxPayloadMax) (hw : s.count0 ≤ s.maxWriteBytes)
    (hm : s.regs.arg2 ≠ 0#32) : spiPrecondition s = attemptPrecondition (s.txbuf.written 44 s.count0) s := by
  simp [spiPrecondition, hl, hv, he, hw, hm]

/-- An exchange whose own test fails does nothing but raise the error (R188, R250). -/
theorem exec_treXchg_raised {s : State} (hs : s.ready = true) (hp : xchgPrecondition s = none) {e : ErrKind}
    (hr : treXchgBody (s.begin 0x9#4) = raise e (s.begin 0x9#4)) (he : e.fatal = false) :
    exec .treXchg s = .next (s.refusedWith 0x9#4 e) := by
  refine (operate_run hs hp).trans ?_
  rw [hr, ← raised_begin hs he]
  rfl

/-- Settles O25: the two tests come before the precondition, which asks for the frame, then for the transport. -/
theorem exchangePreconditions : Obligations.ExchangePreconditions := by
  intro s hs
  refine ⟨fun hv => ?_, fun hv he => ?_, fun hv he hm => ⟨fun hw => ?_, fun hw ho => ?_⟩, fun hm ho => ?_,
    fun hl hv he hw hm => ⟨fun hb => ?_, fun hb ho => ?_⟩⟩
  · exact exec_treXchg_raised hs (by simp [xchgPrecondition, hv]) (treXchg_notReady (by exact hv)) rfl
  · exact exec_treXchg_raised hs (by simp [xchgPrecondition, he]) (treXchg_full (by exact hv) (by exact he)) rfl
  · exact operate_refused hs ((xchgPrecondition_of_attempt hv he hm).trans (hw ▸ attemptPrecondition_unwritten s))
  · exact operate_refused hs ((xchgPrecondition_of_attempt hv he hm).trans (hw ▸ attemptPrecondition_closed ho))
  · exact operate_refused hs ((startPrecondition_of_attempt hm).trans (attemptPrecondition_closed ho))
  · exact operate_refused hs
      ((spiPrecondition_of_attempt hl hv he hw hm).trans (hb ▸ attemptPrecondition_unwritten s))
  · exact operate_refused hs ((spiPrecondition_of_attempt hl hv he hw hm).trans (hb ▸ attemptPrecondition_closed ho))

/-! ## The loop of attempts as an operation -/

/-- The state in which the loop of attempts of `TRE.XCHG` starts (R28, R186). -/
def State.exchangeStart (s : State) : State :=
  { s.begin 0x9#4 with
    regs := { (s.begin 0x9#4).regs with expLen := s.regs.arg0, maxAtt := s.regs.arg1, attempt := 0#32 }
    failures := [] }

/-- `TRE.XCHG` whose tests hold is its loop (R186, R188). -/
theorem treXchg_begin_eq_loop {s : State} (hv : s.regs.status.seqValid = true) (he : s.count0 ≤ s.cfg.rxPayloadMax) :
    treXchg s.regs.arg0 s.regs.arg1 (s.begin 0x9#4) = treAttempts s.regs.arg0 s.count1 s.exchangeStart :=
  treXchg_loop hv he

/-- So is the operation, where its precondition holds too (R28). -/
theorem exec_treXchg_loop {s : State} (hs : s.ready = true) (hp : xchgPrecondition s = none)
    (hv : s.regs.status.seqValid = true) (he : s.count0 ≤ s.cfg.rxPayloadMax) :
    exec .treXchg s = .next (treAttempts s.regs.arg0 s.count1 s.exchangeStart).settle := by
  refine (operate_run hs hp).trans ?_
  rw [← treXchg_begin_eq_loop hv he]
  rfl

/-- Where attempts are allowed, the frame is written and the transport is open, that precondition holds (R188, R273). -/
theorem exec_treXchg_of_attempt {s : State} (hs : s.ready = true) (hv : s.regs.status.seqValid = true)
    (he : s.count0 ≤ s.cfg.rxPayloadMax) (hm : s.regs.arg1 ≠ 0#32) (hw : s.stampable s.regs.txlen.toNat = true)
    (ho : s.edge.tpOpen = true) :
    exec .treXchg s = .next (treAttempts s.regs.arg0 s.count1 s.exchangeStart).settle :=
  exec_treXchg_loop hs ((xchgPrecondition_of_attempt hv he hm).trans (hw ▸ attemptPrecondition_open ho)) hv he

theorem count1_eq_zero_iff {s : State} : s.count1 = 0 ↔ s.regs.arg1 = 0#32 :=
  ⟨fun h => BitVec.eq_of_toNat_eq h, fun h => congrArg BitVec.toNat h⟩

theorem count1_eq_succ {s : State} (hm : s.regs.arg1 ≠ 0#32) : ∃ n, s.count1 = n + 1 :=
  Nat.exists_eq_add_one_of_ne_zero (mt count1_eq_zero_iff.mp hm)

/-- Settles O26: the loop ends where it starts. -/
theorem zeroAttempts : Obligations.ZeroAttempts := by
  intro s hs hv he hm
  have hloop := exec_treXchg_loop hs (by simp [xchgPrecondition, hm]) hv he
  rw [State.count1, hm] at hloop
  refine ⟨_, hloop, rfl, ?_, rfl, rfl, hm, rfl, rfl, rfl⟩
  have hh := (not_halted_of_ready hs).1
  simp [treAttempts, raise, Run.settle, State.exchangeStart, Status.failed, ErrKind.fatal, hh]

/-! ## No number persisted -/

/-- An attempt that stops its run stops the loop (R251, R271). -/
theorem treAttempts_of_stop {exp : Word} {left : Nat} {s t : State} {w : Stop} (h : treAttempt exp s = .stop w t) :
    treAttempts exp (left + 1) s = .stop w t := by
  rw [treAttempts, h, Run.bind_stop]

/-- The state in which an attempt starts: ATTEMPT counts it (R187). -/
def State.nextAttempt (s : State) : State := { s with regs := { s.regs with attempt := s.regs.attempt + 1#32 } }

/-- What an attempt leaves whose store write drew an answer without reset that fails: SEQ has moved, and nothing was
stamped (R190). -/
def State.unbuilt (s : State) (a : EnvAnswer) (rest : List EnvAnswer) : State :=
  ((s.nextAttempt.toTre .build).persisting (s.regs.seq + 1#32) a rest).replyLost

theorem treAttempt_of_store_fails {exp : Word} {s : State} {a : EnvAnswer} {rest : List EnvAnswer}
    (hv : s.regs.status.seqValid = true) (ha : s.edge.answers = a :: rest) (hr : a.reset = false)
    (ho : a.ok = false) : treAttempt exp s = .stop (.raised .storeUnavailable) (s.unbuilt a rest) := by
  rw [treAttempt_eq, treBuild, seqNext_of_answers (by exact hv) (by exact ha) hr, ho]
  rfl

/-- Settles O32: the first build raises the fatal error before its stamp. -/
theorem storeFailureInBuildSendsNothing : Obligations.StoreFailureInBuildSendsNothing := by
  intro s a rest hs hv he hm hw hopen ha hr ho
  obtain ⟨n, hn⟩ := count1_eq_succ hm
  refine ⟨_, exec_treXchg_of_attempt hs hv he hm hw hopen, ?_⟩
  rw [hn, treAttempts_of_stop (treAttempt_of_store_fails (by exact hv) (by exact ha) hr ho), Run.settle,
    raised_storeUnavailable]
  refine ⟨rfl, rfl, rfl, rfl, rfl, rfl, rfl, rfl, ?_⟩
  rw [← ho]
  rfl

end Sys2Proof.Machine
end

section
/-! SUPPORT. What the attempts of an exchange spend, for every environment: one number and one recorded cause each; and
what it means that an exchange ran out of attempts, or succeeded in one of them (R187 to R208). -/

namespace Sys2Proof.Machine

open Codec

/-! ## Between two attempts, and after a reply -/

/-- What `n` failed attempts have spent: `n` numbers, the last of them persisted, and as many causes (R187, R189, R203). -/
structure Spent (exp max : Word) (s : State) (n : Nat) (a : State) : Prop where
  exchanging : Exchanging exp max n s a
  seq        : a.regs.seq = s.regs.seq + BitVec.ofNat 32 n
  failures   : a.failures.length = n
  store      : n ≠ 0 → a.edge.nvs = .bytes (storeBytes a.regs.seq)

/-- An attempt after `n` failed ones that has a validated reply (R199, R200). -/
structure Delivered (exp max : Word) (s : State) (n : Nat) (t : State) : Prop where
  exchanging : Exchanging exp max (n + 1) s t
  seq        : t.regs.seq = s.regs.seq + BitVec.ofNat 32 (n + 1)
  curseq     : t.regs.curseq = s.regs.seq + BitVec.ofNat 32 n
  failures   : t.failures.length = n
  store      : t.edge.nvs = .bytes (storeBytes t.regs.seq)
  reply      : Validated exp t

section
variable {exp max : Word} {n : Nat} {s a m t u : State} {f : AttemptFailure}

theorem Spent.start (exp max : Word) (s : State) : Spent exp max s 0
    { s with regs := { s.regs with expLen := exp, maxAtt := max, attempt := 0#32 }, failures := [] } :=
  ⟨.start exp max s, (BitVec.add_zero _).symm, rfl, fun h => absurd rfl h⟩

theorem Built.seq (b : Built a m) : m.regs.seq = a.regs.seq + 1#32 := by rw [b.only]
theorem Built.curseq (b : Built a m) : m.regs.curseq = a.regs.seq := by rw [b.only]
theorem Built.failures (b : Built a m) : m.failures = a.failures := by rw [b.only]
theorem Tried.seq (tr : Tried exp m t) : t.regs.seq = m.regs.seq := by rw [tr.only]
theorem Tried.curseq (tr : Tried exp m t) : t.regs.curseq = m.regs.curseq := by rw [tr.only]
theorem Tried.failures (tr : Tried exp m t) : t.failures = m.failures := by rw [tr.only]
theorem Retried.seq (re : Retried f t u) : u.regs.seq = t.regs.seq := by rw [re.only]
theorem Retried.failures (re : Retried f t u) : u.failures = t.failures ++ [f] := by rw [re.only]

/-- The number of an attempt that was built is one more than the numbers spent before. -/
theorem Spent.seq_built (h : Spent exp max s n a) (b : Built a m) :
    m.regs.seq = s.regs.seq + BitVec.ofNat 32 (n + 1) := by
  rw [b.seq, h.seq, BitVec.add_assoc, BitVec.ofNat_add]

/-- After its build an attempt keeps what the build persisted (R189). -/
theorem Built.nvs_tried (b : Built a m) (tr : Tried exp m t) : t.edge.nvs = .bytes (storeBytes t.regs.seq) := by
  rw [tr.nvs, b.nvs, tr.seq, b.seq]

/-- A failed attempt with its Retry edge spends one number more. -/
theorem Spent.attempt (h : Spent exp max s n a) (b : Built a m) (tr : Tried exp m t) (re : Retried f t u) :
    Spent exp max s (n + 1) u where
  exchanging := ((h.exchanging.built b).tried tr).retried re
  seq := by rw [re.seq, tr.seq, h.seq_built b]
  failures := by rw [re.failures, List.length_append, tr.failures, b.failures, h.failures, List.length_singleton]
  store _ := by rw [re.reads.nvs, b.nvs_tried tr, re.seq]

theorem Spent.delivered (h : Spent exp max s n a) (b : Built a m) (tr : Tried exp m t) (v : Validated exp t) :
    Delivered exp max s n t where
  exchanging := (h.exchanging.built b).tried tr
  seq := by rw [tr.seq, h.seq_built b]
  curseq := by rw [tr.curseq, b.curseq, h.seq]
  failures := by rw [tr.failures, b.failures, h.failures]
  store := b.nvs_tried tr
  reply := v

end

/-- What an exchange has spent where no reset cut it: it has a reply after fewer than MAX failed attempts, or, where it
ran out of attempts, it made MAX of them (R187, R202, R207). -/
theorem treXchg_spends (exp max : Word) (s : State) : (treXchg exp max s).Ends
    (fun _ t => ∃ n u, n < max.toNat ∧ Delivered exp max s n u ∧ t = (u.toTre .done).withRes exp)
    fun e t => e = .retriesExhausted →
      ∃ a, Spent exp max s max.toNat a ∧ t = (a.toTre .failed).replyLost := by
  cases hv : s.regs.status.seqValid with
  | false => rw [treXchg_notReady hv]; exact nofun
  | true =>
    by_cases he : exp.toNat ≤ s.cfg.rxPayloadMax
    · rw [treXchg_loop hv he]
      rcases treAttempts_end (I := Spent exp max s)
          (fun k a h => ⟨(congrArg Status.seqValid h.exchanging.status).trans hv, h.exchanging.cfg ▸ he⟩)
          (fun k a m t f u h b tr re => h.attempt b tr re) max.toNat 0 _ (.start exp max s) with
        ⟨n, a, m, t, hn, h, b, tr, v, e⟩ | ⟨a, h, e⟩ | ⟨n, a, t, -, -, -, -, e⟩ | ⟨n, a, t, -, -, e, -⟩
      · rw [e]
        rw [Nat.zero_add] at h
        exact ⟨n, t, hn, h.delivered b tr v, rfl⟩
      · rw [e]
        rw [Nat.zero_add] at h
        exact fun _ => ⟨a, h, rfl⟩
      · rw [e]; exact nofun
      · rw [e]; trivial
    · rw [treXchg_full hv (by omega)]; exact nofun

/-! ## The operation -/

/-- `TRE.XCHG` with a next state, in an engine that is ready, ran to its end. -/
theorem exec_treXchg_settle {s t : State} (hs : s.ready = true) (h : exec .treXchg s = .next t) :
    t = (treXchg s.regs.arg0 s.regs.arg1 (s.begin 0x9#4)).settle :=
  (exec_ready (pre := xchgPrecondition) (body := treXchgBody) (fun _ => rfl) hs h).1

/-- An exchange that ended without error. -/
theorem exec_treXchg_delivered {s t : State} (hs : s.ready = true) (h : exec .treXchg s = .next t)
    (hd : t.regs.status.done = true) (he : t.regs.err = 0#8) :
    ∃ n u, n < s.count1 ∧ Delivered s.regs.arg0 s.regs.arg1 (s.begin 0x9#4) n u ∧
      t = ((u.toTre .done).withRes s.regs.arg0).finished := by
  obtain rfl := exec_treXchg_settle hs h
  rcases (treXchg_spends s.regs.arg0 s.regs.arg1 (s.begin 0x9#4)).settle_done hd with
    ⟨_, ⟨n, u, hn, hu, rfl⟩, ht⟩ | ⟨e, u, -, ht⟩
  · exact ⟨n, u, hn, hu, ht⟩
  · rw [ht] at he
    exact absurd he (bne_iff_ne.mp (code_ne_zero e))

theorem eq_retriesExhausted_of_code {e : ErrKind} (h : e.code = 4#8) : e = .retriesExhausted := by
  cases e
  case retriesExhausted => rfl
  all_goals cases h

/-- An exchange that ended with `RetriesExhausted`. -/
theorem exec_treXchg_exhausted {s t : State} (hs : s.ready = true) (h : exec .treXchg s = .next t)
    (he : t.regs.err = 4#8) :
    ∃ a, Spent s.regs.arg0 s.regs.arg1 (s.begin 0x9#4) s.count1 a ∧
      t = (a.toTre .failed).replyLost.raised .retriesExhausted := by
  obtain rfl := exec_treXchg_settle hs h
  have hm := treXchg_moves s.regs.arg0 s.regs.arg1 (s.begin 0x9#4)
  have hends := treXchg_spends s.regs.arg0 s.regs.arg1 (s.begin 0x9#4)
  rcases settle_cases (treXchg s.regs.arg0 s.regs.arg1 (s.begin 0x9#4)) with
    ⟨u, hu, ht⟩ | ⟨e, u, hu, ht⟩ | ⟨u, -, ht⟩
  · rw [hu] at hm
    rw [ht, State.finished_regs, show u.regs.err = 0#8 from hm.err] at he
    cases he
  · rw [ht] at he ⊢
    rw [hu] at hends
    obtain rfl := eq_retriesExhausted_of_code he
    obtain ⟨a, ha, rfl⟩ := hends rfl
    exact ⟨a, ha, rfl⟩
  · rw [ht] at he
    cases he

/-- Settles O30: it ran out of attempts, so MAX of them were spent. -/
theorem exhaustedExchangeMadeAllAttempts : Obligations.ExhaustedExchangeMadeAllAttempts := by
  intro s t hs h he
  obtain ⟨a, ha, rfl⟩ := exec_treXchg_exhausted hs h he
  have hx := ha.exchanging
  have hmax : BitVec.ofNat 32 s.count1 = s.regs.arg1 := ofNat_count1 s
  refine ⟨?_, rfl, ?_, ?_, ?_, ha.seq.trans ?_, ha.failures,
    fun hm => ha.store (mt count1_eq_zero_iff.mp hm), rfl⟩
  · simp [hx.status, Status.failed, ErrKind.fatal, (not_halted_of_ready hs).1]
  · show a.regs.maxAtt = _
    rw [hx.only]
  · show a.regs.attempt = _
    rw [hx.only, hmax]
  · show a.regs.expLen = _
    rw [hx.only]
  · rw [hmax]; rfl

/-- Settles O31: the reply of the last attempt was validated, after one recorded cause for each attempt before. -/
theorem successfulExchangeIsValidated : Obligations.SuccessfulExchangeIsValidated := by
  intro s t hs h hd he
  obtain ⟨n, u, hn, hu, rfl⟩ := exec_treXchg_delivered hs h hd he
  have hattempt : u.regs.attempt = BitVec.ofNat 32 (n + 1) := by rw [hu.exchanging.only]
  have hcount : (BitVec.ofNat 32 (n + 1)).toNat = n + 1 := by
    have hlt : s.count1 < 2 ^ 32 := s.regs.arg1.isLt
    rw [BitVec.toNat_ofNat, Nat.mod_eq_of_lt (by omega)]
  have hprev : BitVec.ofNat 32 (n + 1) - 1#32 = BitVec.ofNat 32 n := by
    rw [BitVec.ofNat_add, BitVec.add_sub_cancel]
  have hreply := hu.reply
  have hseq : (decodeHeader .little (u.rxbuf.read 0 (16 + s.count0))).sequence = u.regs.rseq :=
    congrArg Header.sequence ((decodeHeader_read ..).trans hreply.header.symm)
  simp only [State.finished_regs, State.withRes_regs, State.toTre_regs, State.finished_failures, State.withRes_failures,
    State.toTre_failures, State.finished_edge, State.withRes_edge, State.toTre_edge, State.finished_rxbuf,
    State.withRes_rxbuf, State.toTre_rxbuf, hattempt, hcount, hprev]
  exact ⟨by omega, hn, by rw [hu.failures], trivial, trivial, hu.curseq, hu.seq, hu.store, hreply.rplen, hreply.rseq,
    hreply.written, hreply.verified, hseq.trans hreply.rseq⟩

end Sys2Proof.Machine
end

section
/-! SUPPORT. The Retry edge: what it does where no reset cuts it, and how often the loop of attempts passes it
(R187, R202, R203, R206). -/

namespace Sys2Proof.Machine

/-! ## The edge -/

/-- A delay that was not cut lasted at least its time (R258). -/
theorem delay_eq_ok {n : Nat} {s t : State} (h : delay n s = .ok () t) : s.edge.now + n ≤ t.edge.now := by
  obtain ⟨-, -, rfl⟩ := afterAccess_eq_ok h
  simp only [Edge.record_now, Edge.pass_now, Edge.answer_now]
  omega

/-- The Retry edge that was not cut flushes, and delays where another attempt follows (R203). -/
theorem retryEdge_eq_ok {f : AttemptFailure} {again : Bool} {s t : State} (h : retryEdge f again s = .ok () t) :
    Retried f s t ∧ t.edge.trace = s.edge.trace ++ .rxFlush :: (if again then [.delay] else []) ∧
      (again = true → s.edge.now + s.cfg.tRetryDelay ≤ t.edge.now) := by
  have hr := retryEdge_retried f again s
  rw [h] at hr
  refine ⟨hr, ?_⟩
  obtain ⟨_, u, hu, h⟩ := Run.bind_eq_ok h
  have q := rxFlush_quiet { s.toTre .retry with failures := s.failures ++ [f] }
  rw [hu] at q
  cases again with
  | false =>
    cases h
    exact ⟨q.trace, nofun⟩
  | true =>
    have d := delay_quiet u.cfg.tRetryDelay u
    rw [show delay u.cfg.tRetryDelay u = .ok () t from h] at d
    have hcfg : u.cfg = s.cfg := by rw [show u = _ from q.only]; rfl
    refine ⟨?_, fun _ => ?_⟩
    · rw [show t.edge.trace = _ from d.trace, show u.edge.trace = _ from q.trace, List.append_assoc]
      rfl
    · rw [← hcfg]
      exact (Nat.add_le_add_right q.now _).trans (delay_eq_ok h)

/-! ## The loop -/

/-- The flushes and delays of an exchange that started its `n`-th attempt: one of each for every attempt before. -/
def retriesBefore (n : Nat) : List Access := (List.replicate (n - 1) [Access.rxFlush, Access.delay]).flatten

/-- The loop started `n` attempts, with a flush and a delay for each but the last, and then the flushes `last` (R203). -/
structure Flushed (n : Nat) (last : List Access) (s t : State) : Prop where
  attempt : t.regs.attempt = s.regs.attempt + BitVec.ofNat 32 n
  flushes : flushesAndDelays t.edge.trace = flushesAndDelays s.edge.trace ++ retriesBefore n ++ last

/-- One failed attempt more in front of a part of the loop, with its flush and its delay (R203). -/
theorem Flushed.after_retry {n : Nat} {last : List Access} {s u t : State}
    (ha : u.regs.attempt = s.regs.attempt + 1#32)
    (hf : flushesAndDelays u.edge.trace = flushesAndDelays s.edge.trace ++ [.rxFlush, .delay])
    (h : Flushed (n + 1) last u t) : Flushed (n + 2) last s t where
  attempt := by rw [h.attempt, ha, BitVec.add_assoc, BitVec.add_comm 1#32, ← BitVec.ofNat_add]
  flushes := by
    rw [h.flushes, hf]
    simp [retriesBefore, List.replicate_succ]

/-- One attempt that no Retry edge follows. -/
theorem Flushed.one {s t : State} (ha : t.regs.attempt = s.regs.attempt + 1#32)
    (hf : flushesAndDelays t.edge.trace = flushesAndDelays s.edge.trace) : Flushed 1 [] s t :=
  ⟨ha, by rw [hf]; simp [retriesBefore]⟩

/-- Where the loop ends that no reset cuts, with `left` attempts allowed: it ran out of them, the last flush made, or it
ended in one of them (R187, R202, R203). -/
def FlushedByEnd (left : Nat) (s : State) (e : ErrKind) (t : State) : Prop :=
  (e = .retriesExhausted ∧ Flushed left (if left = 0 then [] else [.rxFlush]) s t) ∨
  (e = .storeUnavailable ∧ ∃ n < left, Flushed (n + 1) [] s t)

theorem NotBuilt.attempt {s t : State} (b : NotBuilt s t) : t.regs.attempt = s.regs.attempt + 1#32 := by rw [b.only]

/-- What a failed attempt with an uncut Retry edge did. -/
structure FailedOnce (again : Bool) (s u : State) : Prop where
  attempt : u.regs.attempt = s.regs.attempt + 1#32
  status  : u.regs.status = s.regs.status
  cfg     : u.cfg = s.cfg
  flushes : flushesAndDelays u.edge.trace =
    flushesAndDelays s.edge.trace ++ .rxFlush :: (if again then [.delay] else [])

theorem retryEdge_failedOnce {exp : Word} {again : Bool} {f : AttemptFailure} {s t u : State}
    (hv : s.regs.status.seqValid = true) (ht : treAttempt exp s = .ok (some f) t)
    (hu : retryEdge f again t = .ok () u) : FailedOnce again s u := by
  obtain ⟨hsame, hattempt, hstatus, hcfg⟩ := treAttempt_sameFlushes hv ht
  obtain ⟨re, htrace, -⟩ := retryEdge_eq_ok hu
  refine ⟨?_, ?_, ?_, ?_⟩
  · rw [re.only]; exact hattempt
  · rw [re.only]; exact hstatus
  · rw [re.only]; exact hcfg
  · rw [htrace, flushesAndDelays_append, show flushesAndDelays t.edge.trace = _ from hsame]
    cases again <;> rfl

/-- How a run ends, where no reset cuts it, that goes on with `left` attempts allowed: with a reply in one of them, or
with an error (R187, R199, R202). -/
def Run.FlushesIn (left : Nat) (s : State) (r : Run Unit) : Prop :=
  r.Ends (fun _ t => ∃ n < left, Flushed (n + 1) [] s t) (FlushedByEnd left s)

/-- The rest of the loop behind a failed attempt (R202, R203). -/
theorem FailedOnce.flushesIn {left : Nat} {s u : State} {r : Run Unit} (h : FailedOnce (left != 0) s u)
    (hr : r.FlushesIn left u) : r.FlushesIn (left + 1) s := by
  have before {n : Nat} {t : State} (hn : n < left) (ht : Flushed (n + 1) [] u t) : Flushed (n + 2) [] s t := by
    rw [show (left != 0) = true from bne_iff_ne.mpr (by omega)] at h
    exact ht.after_retry h.attempt h.flushes
  refine Run.Ends.mono hr ?_ ?_
  · rintro _ t ⟨n, hn, ht⟩
    exact ⟨n + 1, Nat.succ_lt_succ hn, before hn ht⟩
  · rintro e t (⟨he, ht⟩ | ⟨he, n, hn, ht⟩)
    · cases left with
      | zero =>
        refine .inl ⟨he, ?_, ?_⟩
        · rw [ht.attempt, h.attempt, BitVec.add_zero]
        · rw [ht.flushes, h.flushes]
          simp [retriesBefore]
      | succ left => exact .inl ⟨he, ht.after_retry h.attempt h.flushes⟩
    · exact .inr ⟨he, n + 1, Nat.succ_lt_succ hn, before hn ht⟩

/-- The flushes and the delays of the loop of attempts (R187, R203). -/
theorem treAttempts_flushes {exp : Word} (left : Nat) {s : State} (hv : s.regs.status.seqValid = true)
    (he : exp.toNat ≤ s.cfg.rxPayloadMax) : (treAttempts exp left s).FlushesIn left s := by
  induction left generalizing s with
  | zero => exact .inl ⟨rfl, (BitVec.add_zero _).symm, by simp [retriesBefore]⟩
  | succ left ih =>
    rw [treAttempts]
    rcases treAttempt_cases hv he with ⟨m, r, t, ht, -⟩ | ⟨m, t, ht, -⟩ | ⟨t, ht, b, -⟩ | ⟨t, ht, -⟩ <;> rw [ht]
    · cases r with
      | none =>
        obtain ⟨hsame, hattempt, -, -⟩ := treAttempt_sameFlushes hv ht
        exact ⟨0, Nat.succ_pos left, .one hattempt hsame⟩
      | some f =>
        rw [Run.bind_ok]
        dsimp only
        cases hu : retryEdge f (left != 0) t with
        | ok x u =>
          have hfail := retryEdge_failedOnce hv ht hu
          exact hfail.flushesIn (ih (hfail.status ▸ hv) (hfail.cfg ▸ he))
        | stop w u =>
          cases w with
          | raised e => exact absurd hu (retryEdge_not_raised _ _ _ _ _)
          | cutByReset => trivial
    · trivial
    · exact .inr ⟨rfl, 0, Nat.succ_pos left, .one b.attempt b.sameFlushes⟩
    · trivial

/-! ## The operation -/

/-- The flushes and the delays by ATTEMPT, which counts the attempts from 0 on (R26, R187). -/
theorem Flushed.of_start {n : Nat} {last : List Access} {s t : State} (h : Flushed n last s.exchangeStart t)
    (hn : n < 2 ^ 32) : flushesAndDelays t.edge.trace = flushesAndDelays s.edge.trace ++
      (List.replicate (t.regs.attempt.toNat - 1) [Access.rxFlush, Access.delay]).flatten ++ last := by
  have hattempt : t.regs.attempt = BitVec.ofNat 32 n := h.attempt.trans (BitVec.zero_add _)
  rw [hattempt, BitVec.toNat_ofNat, Nat.mod_eq_of_lt hn]
  exact h.flushes

/-- An operation with DONE set holds 0 in ERR where it finished (R28). -/
theorem Run.Ends.settle_err {k : BitVec 4} {s : State} {r : Run Unit} {Q : State → Prop} {E : ErrKind → State → Prop}
    (h : r.Ends (fun _ => Q) E) (m : Moves (s.begin k) r.state) (hd : r.settle.regs.status.done = true) :
    (∃ t, Q t ∧ r.settle = t.finished ∧ t.regs.err = 0#8) ∨ ∃ e t, E e t ∧ r.settle = t.raised e := by
  match r with
  | .ok () t => exact .inl ⟨t, h, rfl, m.err⟩
  | .stop (.raised e) t => exact .inr ⟨e, t, h, rfl⟩
  | .stop .cutByReset t => cases hd

/-- Settles O33: the edge, and how often the loop passes it at each of its ends. -/
theorem retryEdgeFlushesThenDelays : Obligations.RetryEdgeFlushesThenDelays := by
  refine ⟨fun f again s t h => ?_, fun s t hs hv he h hd => ?_⟩
  · obtain ⟨re, htrace, hnow⟩ := retryEdge_eq_ok h
    refine ⟨htrace, ?_, ?_, ?_, re.reads.nvs, re.reads.sent, re.failures, hnow⟩ <;> rw [re.only]
  · obtain rfl := exec_treXchg_settle hs h
    have hlt : s.count1 < 2 ^ 32 := s.regs.arg1.isLt
    have hm := treXchg_moves s.regs.arg0 s.regs.arg1 (s.begin 0x9#4)
    rw [treXchg_begin_eq_loop hv he] at hd hm ⊢
    have hends := treAttempts_flushes s.count1 (s := s.exchangeStart) hv he
    rcases Run.Ends.settle_err hends hm hd with ⟨t, ⟨n, hn, ht⟩, e, herr⟩ | ⟨e, t, ⟨rfl, ht⟩ | ⟨rfl, n, hn, ht⟩, e'⟩
    · rw [e, if_neg (by simp [herr])]
      exact ht.of_start (by omega)
    · rw [e']
      refine (ht.of_start hlt).trans (congrArg _ ?_)
      simp [ErrKind.code, count1_eq_zero_iff]
    · rw [e', if_neg (by simp [ErrKind.code])]
      exact ht.of_start (by omega)

end Sys2Proof.Machine
end

section
/-! SUPPORT. An attempt under a prompt environment: each of its steps, and the attempt up to the header of the reply
(R189 to R200). -/

namespace Sys2Proof.Machine

open Codec

/-! ## Prompt accesses -/

/-- A prompt `TxWrite` sends all it is given (R72). -/
theorem txWrite_of_prompt {s : State} {n : Nat} (h : s.edge.prompt (n + 1) = true) (b : List Byte) :
    txWrite b s = .ok true
      { s with edge := { s.edge.prompted 1 0 [.txWrite b true] with sent := s.edge.sent ++ b } } := by
  obtain ⟨a, ha, hp⟩ := Edge.prompt_head h
  obtain ⟨hr, hok, helapsed, harrived, -⟩ := EnvAnswer.prompt_iff.mp hp
  simp only [txWrite, afterAccess, Edge.answer_of_answers ha, hr, hok, helapsed, harrived, Bool.false_eq_true, if_false]
  simp [Edge.prompted, Edge.pass, Edge.record]

/-- A prompt `RxFlush` drops what has arrived (R74). -/
theorem rxFlush_of_prompt {s : State} {n : Nat} (h : s.edge.prompt (n + 1) = true) :
    ∃ k, rxFlush s = .ok () { s with edge := s.edge.prompted 1 k [.rxFlush] } := by
  obtain ⟨a, ha, hp⟩ := Edge.prompt_head h
  obtain ⟨hr, -, helapsed, harrived, -⟩ := EnvAnswer.prompt_iff.mp hp
  refine ⟨a.count, ?_⟩
  simp only [rxFlush, afterAccess, Edge.answer_of_answers ha, hr, helapsed, harrived, Bool.false_eq_true, if_false]
  simp [Edge.prompted, Edge.pass, Edge.record]

/-- What is prompt for longer is prompt for less long. -/
theorem Edge.prompt_mono {e : Edge} {m n : Nat} (h : e.prompt n = true) (hm : m ≤ n) : e.prompt m = true := by
  obtain ⟨hlen, hall⟩ := Edge.prompt_iff.mp h
  exact Edge.prompt_iff.mpr ⟨hm.trans hlen, fun a ha => hall a (List.take_subset_take_left _ hm ha)⟩

/-! ## The steps of an attempt -/

/-- The state after a prompt build: a number allocated, the next one persisted, and the frame stamped (R189). -/
def State.afterBuild (s : State) : State :=
  { s with
    regs := { s.regs with
      tre := .build, seq := s.regs.seq + 1#32, curseq := s.regs.seq
      res := crc32 (stampInput s.txbuf s.regs.txlen.toNat s.regs.seq)
      crcAcc := crcRemainder (stampInput s.txbuf s.regs.txlen.toNat s.regs.seq) }
    txbuf := stamped s.txbuf s.regs.txlen.toNat s.regs.seq
    edge := { s.edge.prompted 1 0 [.nvWrite (storeBytes (s.regs.seq + 1#32)) true] with
      nvs := .bytes (storeBytes (s.regs.seq + 1#32)) } }

theorem treBuild_of_prompt {s : State} {n : Nat} (hv : s.regs.status.seqValid = true)
    (h : s.edge.prompt (n + 1) = true) : treBuild s = .ok none s.afterBuild := by
  obtain ⟨a, ha, hp⟩ := Edge.prompt_head h
  obtain ⟨hr, hok, -⟩ := EnvAnswer.prompt_iff.mp hp
  have hnext := seqNext_of_answers (s := s.toTre .build) hv ha hr
  rw [if_pos hok, State.persisting, State.toTre_edge, Edge.drawn_of_prompt _ hp, if_pos hok, hok] at hnext
  simp only [treBuild, State.toTre_regs] at hnext ⊢
  rw [hnext]
  dsimp only
  rw [frmStamp_eq, Run.bind_ok]
  rfl

/-- The state after a prompt send: the marker and the frame handed over (R191). -/
def State.afterSend (s : State) : State :=
  { s.toTre .send with
    edge := { s.edge.prompted 2 0 [.txWrite Config.marker true, .txWrite s.txFrame true] with
      sent := s.edge.sent ++ Config.marker ++ s.txFrame } }

theorem treSend_of_prompt {s : State} {n : Nat} (h : s.edge.prompt (n + 2) = true) :
    treSend s = .ok none s.afterSend := by
  have h2 : (s.edge.prompted 1 0 [.txWrite Config.marker true]).prompt (n + 1) = true :=
    Edge.prompt_prompted (by rwa [Nat.add_comm 1]) _ _
  rw [treSend, txWrite_of_prompt (s := s.toTre .send) h, Run.bind_ok, if_neg (by simp),
    txWrite_of_prompt (by exact h2), Run.bind_ok]
  simp [State.afterSend, Edge.prompted, State.txFrame]

/-- The state after a prompt resync that found the marker at the front of the stream (R193). -/
def State.afterResync (s : State) : State :=
  { s with
    regs := { s.regs with tre := .resync, res := 1#32, syn := .gotFirst }
    edge := s.edge.prompted 5 2 (.now :: searchAccesses Config.marker) }

theorem treResync_of_prompt {s : State} {rest : List Byte} (h : s.edge.prompt 5 = true)
    (hrx : s.edge.rx = Config.marker ++ rest) : treResync s = .ok none s.afterResync := by
  have hscan : synScan .search s.edge.rx = some 2 := by
    rw [hrx]
    exact synScan_search_of_front ⟨rfl, rfl⟩
  have htake : s.edge.rx.take 2 = Config.marker := by rw [hrx]; rfl
  rw [treResync, synAwait_of_prompt (s := s.toTre .resync) hscan (by decide) h, State.toTre_edge, htake]
  rfl

/-- The state after a prompt read of the header `h` (R194). -/
def State.afterHeader (s : State) (h : List Byte) : State :=
  { s with
    regs := { s.regs with
      tre := .readHeader
      rcmd := (decodeHeader Config.byteOrder h).command, rplen := (decodeHeader Config.byteOrder h).payloadLength
      rseq := (decodeHeader Config.byteOrder h).sequence, rcsum := (decodeHeader Config.byteOrder h).checksum }
    rxbuf := s.rxbuf.write 0 h
    edge := s.edge.prompted 1 16 [.rxRead 16 h] }

/-- What the length check makes of a header (R196). -/
def lengthCheck (exp : Word) (h : List Byte) : Option AttemptFailure :=
  if (decodeHeader Config.byteOrder h).payloadLength = exp then none else some .lengthMismatch

theorem treReadHeader_of_prompt {exp : Word} {s : State} {h rest : List Byte} (hp : s.edge.prompt 1 = true)
    (hl : h.length = 16) (hrx : s.edge.rx = h ++ rest) :
    treReadHeader exp s = .ok (lengthCheck exp h) (s.afterHeader h) := by
  have htake : s.edge.rx.take 16 = h := by rw [hrx, ← hl, List.take_left]
  have hread : (s.rxbuf.write 0 h).read 0 16 = h := hl ▸ Memory.read_write_self s.rxbuf 0 h
  rw [treReadHeader, rxRead_of_prompt (s := s.toTre .readHeader) hp (by decide), Run.bind_ok, State.toTre_edge,
    Config.headerSize_eq, htake, if_neg (by omega)]
  simp only [frmDechdr, Run.bind_ok, State.rxFrame, Config.headerSize_eq, State.toTre_rxbuf, hread]
  rfl

/-- A prompt payload read takes the expected bytes at the front; where none are expected it is left out (R197). -/
theorem treReadPayload_of_prompt {exp : Word} {s : State} {p rest : List Byte} {n : Nat}
    (hp : s.edge.prompt (n + 1) = true) (hl : p.length = exp.toNat) (hrx : s.edge.rx = p ++ rest) :
    ∃ tre k xs, k ≤ 1 ∧ treReadPayload exp s = .ok none { s with
      regs := { s.regs with tre := tre }
      rxbuf := s.rxbuf.write 16 p
      edge := s.edge.prompted k exp.toNat xs } := by
  by_cases he : exp = 0#32
  · subst he
    obtain rfl : p = [] := List.length_eq_zero_iff.mp hl
    refine ⟨s.regs.tre, 0, [], Nat.zero_le 1, ?_⟩
    rw [treReadPayload, if_pos rfl]
    simp [Memory.write, Edge.prompted]
  · have htake : s.edge.rx.take exp.toNat = p := by rw [hrx, ← hl, List.take_left]
    refine ⟨.readPayload, 1, [.rxRead exp.toNat p], Nat.le_refl 1, ?_⟩
    rw [treReadPayload, if_neg he, rxRead_of_prompt (s := s.toTre .readPayload) hp exp.isLt.le, Run.bind_ok,
      State.toTre_edge, htake, if_neg (by omega)]
    rfl

/-- A validation of another number fails before the checksum is looked at (R198, R199). -/
theorem treValidate_of_other_number {exp : Word} {s : State} (h : s.regs.rseq ≠ s.regs.curseq) :
    treValidate exp s = .ok (some .sequenceMismatch) (s.toTre .validate) := if_pos h

/-- A validation of the attempt's own number and a frame that verifies passes (R199, R200). -/
theorem treValidate_of_verified {exp : Word} {s : State} (hq : s.regs.rseq = s.regs.curseq)
    (he : exp.toNat ≤ s.cfg.rxPayloadMax)
    (hv : verifyFrame Config.byteOrder (s.rxbuf.read 0 (16 + exp.toNat)) = true) :
    ∃ res acc, treValidate exp s = .ok none
      { s with regs := { s.regs with tre := .validate, res := res, crcAcc := acc } } := by
  have hm : lengthMatches Config.byteOrder (s.rxbuf.read 0 (16 + exp.toNat)) = true := (Bool.and_eq_true_iff.mp hv).1
  refine ⟨1#32, crc32 (zeroChecksum (s.rxbuf.read 0 (16 + exp.toNat))) ^^^ 0xFFFFFFFF#32, ?_⟩
  have hbody := frmVerify_of_match (s := s.toTre .validate) (len := 16 + exp.toNat) (by omega)
    (by rw [State.toTre_cfg, Params.rxCapacity_eq]; omega) hm
  have hnum : ¬ (s.toTre .validate).regs.rseq ≠ (s.toTre .validate).regs.curseq := not_not_intro hq
  rw [treValidate]
  dsimp only
  rw [if_neg hnum, Config.headerSize_eq, hbody, Run.bind_ok,
    show verifyFrame Config.byteOrder ((s.toTre .validate).rxFrame (16 + exp.toNat)) = true from hv]
  rfl

/-! ## An attempt -/

/-- The accesses of an attempt under a prompt environment, up to the header `h` of the reply (R189 to R194). -/
def headerAccesses (s : State) (h : List Byte) : List Access :=
  .nvWrite (storeBytes (s.regs.seq + 1#32)) true :: .txWrite Config.marker true ::
    .txWrite (stampFrame Config.byteOrder s.regs.seq s.txFrame) true :: .now ::
      (searchAccesses Config.marker ++ [.rxRead 16 h])

/-- The state of such an attempt, once it has read the header. -/
def State.headerRead (s : State) (h : List Byte) : State :=
  { s with
    regs := { s.regs with
      attempt := s.regs.attempt + 1#32, seq := s.regs.seq + 1#32, curseq := s.regs.seq, res := 1#32
      crcAcc := crcRemainder (stampInput s.txbuf s.regs.txlen.toNat s.regs.seq), tre := .readHeader, syn := .gotFirst
      rcmd := (decodeHeader Config.byteOrder h).command, rplen := (decodeHeader Config.byteOrder h).payloadLength
      rseq := (decodeHeader Config.byteOrder h).sequence, rcsum := (decodeHeader Config.byteOrder h).checksum }
    txbuf := stamped s.txbuf s.regs.txlen.toNat s.regs.seq
    rxbuf := s.rxbuf.write 0 h
    edge := { s.edge.prompted 9 18 (headerAccesses s h) with
      nvs := .bytes (storeBytes (s.regs.seq + 1#32))
      sent := s.edge.sent ++ Config.marker ++ stampFrame Config.byteOrder s.regs.seq s.txFrame } }

/-- The frame that is sent is the stamped one (R189, R191). -/
theorem txFrame_afterBuild (s : State) : s.afterBuild.txFrame = stampFrame Config.byteOrder s.regs.seq s.txFrame :=
  read_stamped s.txbuf s.regs.txlen.toNat s.regs.seq

theorem headerRead_eq (s : State) (h : List Byte) :
    s.nextAttempt.afterBuild.afterSend.afterResync.afterHeader h = s.headerRead h := by
  have hframe : s.nextAttempt.afterBuild.txFrame = stampFrame Config.byteOrder s.regs.seq s.txFrame :=
    txFrame_afterBuild s.nextAttempt
  rw [State.headerRead, headerAccesses, ← hframe]
  simp [State.afterHeader, State.afterResync, State.afterSend, State.afterBuild, State.nextAttempt, Edge.prompted,
    State.txFrame, List.drop_drop, State.toTre]

/-- A step that passed is followed by the next one (R198). -/
theorem andThen_passed (s : State) (k : State → Run (Option AttemptFailure)) : andThen (.ok none s) k = k s := rfl

/-- An attempt under a prompt environment, where a marker and a header stand at the front of the stream: the steps up to
the length check pass, or fail there (R189 to R196). -/
theorem treAttempt_of_prompt {exp : Word} {s : State} {h rest : List Byte} (hv : s.regs.status.seqValid = true)
    (hp : s.edge.prompt 9 = true) (hl : h.length = 16) (hrx : s.edge.rx = Config.marker ++ (h ++ rest)) :
    treAttempt exp s = andThen (andThen (.ok (lengthCheck exp h) (s.headerRead h)) (treReadPayload exp))
      (treValidate exp) := by
  have hp1 : s.nextAttempt.afterBuild.edge.prompt 8 = true := Edge.prompt_prompted hp 0 []
  have hp2 : s.nextAttempt.afterBuild.afterSend.edge.prompt 6 = true := Edge.prompt_prompted hp1 0 []
  have hp3 : s.nextAttempt.afterBuild.afterSend.afterResync.edge.prompt 1 = true := Edge.prompt_prompted hp2 2 []
  have hrx2 : s.nextAttempt.afterBuild.afterSend.edge.rx = Config.marker ++ (h ++ rest) := hrx
  have hrx3 : s.nextAttempt.afterBuild.afterSend.afterResync.edge.rx = h ++ rest := congrArg (List.drop 2) hrx2
  have hbuild : treBuild s.nextAttempt = .ok none s.nextAttempt.afterBuild := treBuild_of_prompt (n := 8) hv hp
  rw [State.nextAttempt] at hbuild
  rw [treAttempt, hbuild, andThen_passed, ← State.nextAttempt, treSend_of_prompt (n := 6) hp1, andThen_passed,
    treResync_of_prompt (Edge.prompt_mono hp2 (by decide)) hrx2, andThen_passed, treReadHeader_of_prompt hp3 hl hrx3,
    headerRead_eq]

end Sys2Proof.Machine
end

section
/-! SUPPORT. An attempt under a prompt environment that gets a reply: whole, with its own number or with another, or with
a header of another length (R194 to R201). -/

namespace Sys2Proof.Machine

open Codec

/-! ## What an attempt took -/

theorem headerRead_prompt {s : State} {m : Nat} (h : s.edge.prompt (9 + m) = true) (b : List Byte) :
    (s.headerRead b).edge.prompt m = true :=
  Edge.prompt_prompted h 18 (headerAccesses s b)

/-- Up to the header an attempt takes the marker and the header (R193, R194). -/
theorem takenBytes_headerAccesses (s : State) (h : List Byte) :
    takenBytes (headerAccesses s h) = Config.marker ++ h := by
  simp [takenBytes, headerAccesses, searchAccesses, Config.marker]

/-- The header that `encode` puts before a payload (R154). -/
def replyHeader (cmd q : Word) (p : List Byte) : List Byte :=
  headerBytes Config.byteOrder cmd (lengthWord p) q (frameChecksum Config.byteOrder cmd q p)

theorem decodeHeader_headerBytes (o : ByteOrder) (c l q k : Word) :
    decodeHeader o (headerBytes o c l q k) = ⟨c, l, q, k⟩ := by
  simpa using decodeHeader_headerBytes_append o c l q k []

theorem lengthWord_eq {exp : Word} {p : List Byte} (h : p.length = exp.toNat) : lengthWord p = exp := by
  rw [lengthWord, h, BitVec.ofNat_toNat, BitVec.setWidth_eq]

/-- The state of an attempt under a prompt environment that has read a whole reply, the payload in `k` accesses `xs`
(R189 to R197). -/
def State.replyRead (s : State) (cmd q : Word) (p : List Byte) (tre : TreState) (k : Nat) (xs : List Access) : State :=
  { s.headerRead (replyHeader cmd q p) with
    regs := { (s.headerRead (replyHeader cmd q p)).regs with tre := tre }
    rxbuf := s.rxbuf.write 0 (encodeFrame Config.byteOrder cmd q p)
    edge := (s.headerRead (replyHeader cmd q p)).edge.prompted k p.length xs }

section
variable {exp cmd q : Word} {s : State} {p tail : List Byte}

/-- An attempt under a prompt environment that gets a reply of the expected length comes to its validation (R196 to
R198). -/
theorem treAttempt_of_reply (hv : s.regs.status.seqValid = true) (hp : s.edge.prompt 10 = true)
    (hl : p.length = exp.toNat)
    (hrx : s.edge.rx = Config.marker ++ (encodeFrame Config.byteOrder cmd q p ++ tail)) :
    ∃ tre k xs, k ≤ 1 ∧ treAttempt exp s = treValidate exp (s.replyRead cmd q p tre k xs) := by
  have hh : (replyHeader cmd q p).length = 16 := length_headerBytes ..
  have hrx' : s.edge.rx = Config.marker ++ (replyHeader cmd q p ++ (p ++ tail)) := by
    rw [hrx, encodeFrame, List.append_assoc, replyHeader]
  have hcheck : lengthCheck exp (replyHeader cmd q p) = none := by
    rw [lengthCheck, replyHeader, decodeHeader_headerBytes, if_pos (lengthWord_eq hl)]
  have hrest : (s.headerRead (replyHeader cmd q p)).edge.rx = p ++ tail := by
    have h18 : (Config.marker ++ replyHeader cmd q p).length = 18 := by rw [List.length_append, hh]; rfl
    show s.edge.rx.drop 18 = p ++ tail
    rw [hrx', ← List.append_assoc, List.drop_left' h18]
  obtain ⟨tre, k, xs, hk, hpay⟩ := treReadPayload_of_prompt (n := 0) (headerRead_prompt hp _) hl hrest
  refine ⟨tre, k, xs, hk, ?_⟩
  have hbuf : (s.headerRead (replyHeader cmd q p)).rxbuf.write 16 p =
      s.rxbuf.write 0 (encodeFrame Config.byteOrder cmd q p) := by
    rw [encodeFrame, Memory.write_append, length_headerBytes]
    rfl
  rw [treAttempt_of_prompt hv (Edge.prompt_mono hp (by decide)) hh hrx', hcheck, andThen_passed, hpay, andThen_passed,
    hbuf, ← hl]
  rfl

/-- What an attempt under a prompt environment leaves that has read a whole reply, before and after a validation that
passes (R189 to R200). -/
structure Received (cmd q : Word) (p tail : List Byte) (s t : State) : Prop where
  regs  : ∃ res acc tre, t.regs = { s.regs with
    attempt := s.regs.attempt + 1#32, seq := s.regs.seq + 1#32, curseq := s.regs.seq
    res := res, crcAcc := acc, tre := tre, syn := .gotFirst
    rcmd := cmd, rplen := lengthWord p, rseq := q, rcsum := frameChecksum Config.byteOrder cmd q p }
  rxbuf : t.rxbuf = s.rxbuf.write 0 (encodeFrame Config.byteOrder cmd q p)
  frame : t.txFrame = stampFrame Config.byteOrder s.regs.seq s.txFrame
  nvs   : t.edge.nvs = .bytes (storeBytes (s.regs.seq + 1#32))
  sent  : t.edge.sent = s.edge.sent ++ Config.marker ++ stampFrame Config.byteOrder s.regs.seq s.txFrame
  rx    : t.edge.rx = tail

theorem replyRead_received (tre : TreState) (k : Nat) (xs : List Access)
    (hrx : s.edge.rx = Config.marker ++ (encodeFrame Config.byteOrder cmd q p ++ tail)) :
    Received cmd q p tail s (s.replyRead cmd q p tre k xs) := by
  have hd : decodeHeader Config.byteOrder (replyHeader cmd q p) = _ := decodeHeader_headerBytes ..
  refine ⟨?_, ?_, ?_, ?_, ?_, ?_⟩
  · simp only [State.replyRead, State.headerRead, hd]
    exact ⟨_, _, _, rfl⟩
  · rw [State.replyRead]
  · exact read_stamped s.txbuf s.regs.txlen.toNat s.regs.seq
  · rw [State.replyRead]; rfl
  · rw [State.replyRead]; rfl
  · have hfront : (Config.marker ++ encodeFrame Config.byteOrder cmd q p).length = 18 + p.length := by
      rw [List.length_append, length_encodeFrame, ← Nat.add_assoc]
      rfl
    show (s.edge.rx.drop 18).drop p.length = tail
    rw [List.drop_drop, hrx, ← List.append_assoc, List.drop_left' hfront]

/-- The reply in RXBUF, whole (R194, R197). -/
theorem Received.read_reply {t : State} (h : Received cmd q p tail s t) :
    t.rxbuf.read 0 (16 + p.length) = encodeFrame Config.byteOrder cmd q p := by
  rw [h.rxbuf, ← length_encodeFrame Config.byteOrder cmd q p]
  exact Memory.read_write_self s.rxbuf 0 _

/-- Its payload alone (R197, R201). -/
theorem Received.read_payload {t : State} (h : Received cmd q p tail s t) : t.rxbuf.read 16 p.length = p := by
  have hd := Memory.drop_read t.rxbuf 0 (16 + p.length) 16
  rw [h.read_reply, encodeFrame, List.drop_left' (length_headerBytes ..), Nat.zero_add, Nat.add_sub_cancel_left] at hd
  exact hd.symm

end

/-- A correct reply with the attempt's own number makes the attempt pass (R198 to R200). -/
theorem treAttempt_of_own_reply {exp cmd : Word} {s : State} {p tail : List Byte}
    (hv : s.regs.status.seqValid = true) (he : exp.toNat ≤ s.cfg.rxPayloadMax) (hp : s.edge.prompt 10 = true)
    (hl : p.length = exp.toNat)
    (hrx : s.edge.rx = Config.marker ++ (encodeFrame Config.byteOrder cmd s.regs.seq p ++ tail)) :
    ∃ t, treAttempt exp s = .ok none t ∧ Received cmd s.regs.seq p tail s t := by
  obtain ⟨tre, k, xs, -, ht⟩ := treAttempt_of_reply hv hp hl hrx
  have hr := replyRead_received tre k xs hrx
  have hcfg : (s.replyRead cmd s.regs.seq p tre k xs).cfg = s.cfg := by rw [State.replyRead]; rfl
  have hlen : p.length < 4294967280 := by
    have := s.cfg.rxPayloadMax_lt
    omega
  generalize s.replyRead cmd s.regs.seq p tre k xs = u at ht hr hcfg
  obtain ⟨_, _, _, hregs⟩ := hr.regs
  obtain ⟨res, acc, hval⟩ := treValidate_of_verified (exp := exp) (s := u) (by rw [hregs]) (hcfg ▸ he)
    (by rw [← hl, hr.read_reply]; exact (encodedFrameVerifies _ _ _ _ hlen).1)
  exact ⟨_, ht.trans hval, ⟨⟨res, acc, .validate, by rw [hregs]⟩, hr.rxbuf, hr.frame, hr.nvs, hr.sent, hr.rx⟩⟩

/-- A correct reply with another number makes it fail (R199, R208). -/
theorem treAttempt_of_stale_reply {exp cmd q : Word} {s : State} {p tail : List Byte}
    (hv : s.regs.status.seqValid = true) (hp : s.edge.prompt 11 = true) (hl : p.length = exp.toNat)
    (hrx : s.edge.rx = Config.marker ++ (encodeFrame Config.byteOrder cmd q p ++ tail)) (hq : q ≠ s.regs.seq) :
    ∃ u, treAttempt exp s = .ok (some .sequenceMismatch) u ∧ u.failures = s.failures ∧ u.edge.prompt 1 = true := by
  obtain ⟨tre, k, xs, hk, ht⟩ := treAttempt_of_reply hv (Edge.prompt_mono hp (by decide)) hl hrx
  have hother : (s.replyRead cmd q p tre k xs).regs.rseq ≠ (s.replyRead cmd q p tre k xs).regs.curseq := by
    obtain ⟨_, _, _, hregs⟩ := (replyRead_received tre k xs hrx).regs
    rw [hregs]
    exact hq
  have hfirst : (s.headerRead (replyHeader cmd q p)).edge.prompt 2 = true := headerRead_prompt hp _
  refine ⟨_, ht.trans (treValidate_of_other_number hother), ?_, ?_⟩
  · rw [State.toTre_failures, State.replyRead]
    rfl
  · rw [State.toTre_edge, State.replyRead]
    exact Edge.prompt_prompted (Edge.prompt_mono hfirst (by omega)) p.length xs

/-- A header of another length makes it fail, and nothing behind it is read (R196, R250). -/
theorem treAttempt_of_other_length {exp : Word} {s : State} {h tail : List Byte}
    (hv : s.regs.status.seqValid = true) (hp : s.edge.prompt 9 = true) (hl : h.length = 16)
    (hrx : s.edge.rx = Config.marker ++ (h ++ tail))
    (hne : (decodeHeader Config.byteOrder h).payloadLength ≠ exp) :
    treAttempt exp s = .ok (some .lengthMismatch) (s.headerRead h) := by
  rw [treAttempt_of_prompt hv hp hl hrx, lengthCheck, if_neg hne]
  rfl

end Sys2Proof.Machine
end

section
/-! SUPPORT. `TRE.XCHG` under a prompt environment: a reply to the first attempt that is correct, carries another number,
or has another length (R186 to R208). -/

namespace Sys2Proof.Machine

open Codec

/-! ## A correct reply -/

/-- An attempt that passes ends the exchange (R199, R201). -/
theorem treAttempts_of_passed {exp : Word} {left : Nat} {s t : State} (h : treAttempt exp s = .ok none t) :
    treAttempts exp (left + 1) s = .ok () ((t.toTre .done).withRes exp) := by
  rw [treAttempts, h, Run.bind_ok]

/-- Settles O27: the first attempt gets a correct reply with its own number, and passes. -/
theorem exchangeSucceeds : Obligations.ExchangeSucceeds := by
  intro s cmd payload tail hs hv hl he hm hw ho hp hrx
  obtain ⟨n, hn⟩ := count1_eq_succ hm
  obtain ⟨u, hu, h⟩ := treAttempt_of_own_reply (exp := s.regs.arg0) (s := s.exchangeStart) hv he hp hl
    (hrx.trans (List.append_assoc ..))
  refine ⟨_, exec_treXchg_of_attempt hs hv he hm hw ho, ?_⟩
  rw [hn, treAttempts_of_passed hu, Run.settle]
  obtain ⟨res, acc, tre, hregs⟩ := h.regs
  have hstatus : u.regs.status = s.exchangeStart.regs.status := by rw [hregs]
  have hread := h.read_reply
  have hpayload := h.read_payload
  rw [hl] at hread hpayload
  refine ⟨congrArg Regs.err hregs, ?_, rfl, congrArg Regs.expLen hregs, congrArg Regs.maxAtt hregs,
    congrArg Regs.attempt hregs, congrArg Regs.curseq hregs, congrArg Regs.seq hregs, h.nvs, rfl,
    congrArg Regs.syn hregs, congrArg Regs.rcmd hregs, (congrArg Regs.rplen hregs).trans (lengthWord_eq hl),
    congrArg Regs.rseq hregs, congrArg Regs.rcsum hregs, hread, hpayload, h.frame, h.sent, h.rx⟩
  rw [State.finished_regs, State.withRes_regs, State.toTre_regs, hstatus]
  rfl

/-! ## One failed attempt -/

/-- The Retry edge after the last allowed attempt, under a prompt environment (R203). -/
theorem retryEdge_of_prompt {f : AttemptFailure} {s : State} (h : s.edge.prompt 1 = true) :
    ∃ t, retryEdge f false s = .ok () t := by
  obtain ⟨k, hk⟩ := rxFlush_of_prompt (s := { s.toTre .retry with failures := s.failures ++ [f] }) (n := 0) h
  exact ⟨_, by rw [retryEdge, hk, Run.bind_ok, if_neg Bool.false_ne_true]⟩

/-- With one attempt allowed a failed one exhausts the exchange: its cause is recorded, and the stream flushed once
(R202, R203). -/
theorem exec_treXchg_of_failed {f : AttemptFailure} {s u : State} (hs : s.ready = true)
    (hv : s.regs.status.seqValid = true) (he : s.count0 ≤ s.cfg.rxPayloadMax) (hm : s.regs.arg1 = 1#32)
    (hw : s.stampable s.regs.txlen.toNat = true) (ho : s.edge.tpOpen = true)
    (hu : treAttempt s.regs.arg0 s.exchangeStart = .ok (some f) u) (hp : u.edge.prompt 1 = true) :
    ∃ t, exec .treXchg s = .next t ∧ t.regs.err = 4#8 ∧ t.failures = u.failures ++ [f] ∧
      t.edge.trace = u.edge.trace ++ [.rxFlush] := by
  obtain ⟨v, hretry⟩ := retryEdge_of_prompt (f := f) hp
  obtain ⟨re, htrace, -⟩ := retryEdge_eq_ok hretry
  have hloop : treAttempts s.regs.arg0 s.count1 s.exchangeStart =
      raise .retriesExhausted (v.toTre .failed).replyLost := by
    rw [State.count1, hm]
    show (treAttempt _ _).bind _ = _
    rw [hu, Run.bind_ok]
    show (retryEdge f false u).bind _ = _
    rw [hretry, Run.bind_ok, treAttempts]
  refine ⟨_, exec_treXchg_of_attempt hs hv he (by rw [hm]; decide) hw ho, ?_⟩
  rw [hloop]
  exact ⟨rfl, re.failures, htrace⟩

/-- Settles O28: the number does not match, and the exchange has no attempt left. -/
theorem staleReplyIsRefused : Obligations.StaleReplyIsRefused := by
  intro s cmd q payload tail hs hv hl he hm hw ho hp hrx hq
  obtain ⟨u, hu, hf, hpu⟩ := treAttempt_of_stale_reply (exp := s.regs.arg0) (s := s.exchangeStart) hv hp hl
    (hrx.trans (List.append_assoc ..)) hq
  obtain ⟨t, ht, herr, hfailures, -⟩ := exec_treXchg_of_failed hs hv he hm hw ho hu hpu
  obtain ⟨-, htre, -, hattempt, -, hseq, -, -, hrxbuf⟩ := exhaustedExchangeMadeAllAttempts s t hs ht herr
  rw [hm] at hattempt hseq
  exact ⟨t, ht, herr, hattempt, htre, hseq, hfailures.trans (by rw [hf]; rfl), hrxbuf⟩

/-- Settles O29: the length does not match, and the last bytes taken are those of the header. -/
theorem wrongLengthIsRefusedUnread : Obligations.WrongLengthIsRefusedUnread := by
  intro s cmd len q c tail hs hv he hm hw ho hp hrx hne
  have hlength : (decodeHeader Config.byteOrder (headerBytes .little cmd len q c)).payloadLength ≠ s.regs.arg0 := by
    rw [Config.byteOrder, decodeHeader_headerBytes]
    exact hne
  have hu := treAttempt_of_other_length (exp := s.regs.arg0) (s := s.exchangeStart) hv
    (Edge.prompt_mono hp (by decide)) (length_headerBytes ..) (hrx.trans (List.append_assoc ..)) hlength
  obtain ⟨t, ht, herr, hfailures, htrace⟩ :=
    exec_treXchg_of_failed hs hv he hm hw ho hu (headerRead_prompt (s := s.exchangeStart) (m := 1) hp _)
  refine ⟨t, ht, herr, hfailures, ?_⟩
  rw [htrace, takenBytes_append]
  show takenBytes (s.edge.trace ++ headerAccesses _ _) ++ [] = _
  rw [takenBytes_append, takenBytes_headerAccesses, List.append_nil, ← List.append_assoc]
  rfl

end Sys2Proof.Machine
end

section
/-! SUPPORT. The Command Builder's operations, and the host operations where they need no given environment: what each
layout leaves in TXBUF, where `EXECUTE_SPI` is turned away, what `SHUTDOWN` does, when LINK_OK is set (R216 to R227). -/

namespace Sys2Proof.Machine

open Codec

/-! ## `CMB.PROBE` -/

/-- `CMB.PROBE` lays out the header of an empty frame (R97, R216). -/
theorem cmbProbe_eq (s : State) : cmbProbe s = .ok () { s with
    txbuf := laidOut s.txbuf Config.cmdProbe 0#32, regs := { s.regs with txlen := 0#32 } } :=
  frmLayout_fits (Nat.zero_le _)

/-- `CMB.PROBE` as an operation (R28, R216). -/
theorem exec_cmbProbe {s : State} (hs : s.ready = true) :
    exec .cmbProbe s = .next { s.after 0xA#4 with
      txbuf := laidOut s.txbuf Config.cmdProbe 0#32, regs := { (s.after 0xA#4).regs with txlen := 0#32 } } := by
  refine (operate_run (pre := noPrecondition) hs rfl).trans ?_
  rw [cmbProbe_eq]
  simp only [Run.settle, State.finished, State.begin, State.after, Status.ended]

/-- Settles O35: the header of an empty probe frame is sixteen zero bytes. -/
theorem probeLayout : Obligations.ProbeLayout := by
  intro s hs
  have hzero : headerBytes Config.byteOrder Config.cmdProbe 0#32 0#32 0#32 = List.replicate 16 0#8 := by decide
  refine ⟨_, exec_cmbProbe hs, ?_⟩
  dsimp only
  exact ⟨rfl, written_laidOut_header .., (read_laidOut_header ..).trans hzero, fun a => get?_laidOut_outside _ _ _⟩

/-! ## `CMB.SPI` -/

/-- The argument block of a request in the state (R96, R217). -/
def State.spiArguments (s : State) (wcount rcount : Word) : List Byte :=
  argumentBlock Config.byteOrder s.regs.speed s.cfg.spiK0 s.cfg.spiK1 s.cfg.spiK2 s.cfg.spiK3 wcount rcount

@[simp] theorem length_spiArguments (s : State) (w r : Word) : (s.spiArguments w r).length = 28 :=
  length_argumentBlock ..

/-- TXBUF after `CMB.SPI` whose write bytes fit (R217). -/
def State.spiLaidOut (s : State) (wcount rcount : Word) : Memory :=
  laidOut (s.txbuf.write 16 (s.spiArguments wcount rcount)) Config.cmdSpi (28#32 + wcount)

theorem ofNat_add_toNat (n : Nat) (w : Word) : BitVec.ofNat 32 (n + w.toNat) = BitVec.ofNat 32 n + w := by
  rw [BitVec.ofNat_add, BitVec.ofNat_toNat, BitVec.setWidth_eq]

/-- `CMB.SPI` whose write bytes fit lays out argument block and header (R217). -/
theorem cmbSpi_eq {w r : Word} {s : State} (h : w.toNat ≤ s.maxWriteBytes) :
    cmbSpi w r s = .ok () { s with
      txbuf := s.spiLaidOut w r, regs := { s.regs with txlen := 28#32 + w } } := by
  rw [cmbSpi_of_le h, ofNat_add_toNat]
  rfl

/-- TXLEN of a request that fits does not wrap (R8, R217). -/
theorem toNat_spiLength {w : Word} {s : State} (h : w.toNat ≤ s.maxWriteBytes) :
    (28#32 + w).toNat = 28 + w.toNat := by
  have := s.cfg.txPayloadMax_lt
  rw [State.maxWriteBytes_eq] at h
  bv_omega

theorem get?_spiLaidOut_outside (s : State) (w r : Word) {a : Nat} (h : 44 ≤ a) :
    (s.spiLaidOut w r).get? a = s.txbuf.get? a := by
  rw [State.spiLaidOut, get?_laidOut_outside _ _ _ (by omega),
    Memory.get?_write_outside (.inr (by rw [length_spiArguments]; exact h))]

theorem written_spiLaidOut (s : State) (w r : Word) : (s.spiLaidOut w r).written 0 44 = true := by
  refine Memory.written_add (n := 16) (k := 28) (written_laidOut_header ..) (Memory.written_write ?_ _ _)
  exact Memory.written_write_self _ (Nat.le_refl _) (by simp)

/-- The payload of a request: the argument block, and the write bytes as the host left them (R98, R217). -/
theorem read_spiArguments (s : State) (w r : Word) (n : Nat) :
    (s.txbuf.write 16 (s.spiArguments w r)).read 16 (28 + n) = s.spiArguments w r ++ s.txbuf.read 44 n := by
  have hself := Memory.read_write_self s.txbuf 16 (s.spiArguments w r)
  rw [length_spiArguments] at hself
  rw [Memory.read_add, hself, Memory.read_write_outside (.inr (by simp))]

/-- `CMB.SPI` of write bytes that fit, as an operation (R28, R217). -/
theorem exec_cmbSpi_of_le {s : State} (hs : s.ready = true) (h : s.count0 ≤ s.maxWriteBytes) :
    exec .cmbSpi s = .next { s.after 0xB#4 with
      txbuf := s.spiLaidOut s.regs.arg0 s.regs.arg1
      regs := { (s.after 0xB#4).regs with txlen := 28#32 + s.regs.arg0 } } := by
  refine (operate_run (pre := noPrecondition) hs rfl).trans ?_
  rw [cmbSpiBody, cmbSpi_eq (by exact h)]
  simp only [Run.settle, State.finished, State.begin, State.after, Status.ended, State.spiLaidOut, State.spiArguments]

/-- Settles O36: the write bytes fit behind the argument block, or it raises before any write. -/
theorem spiLayout : Obligations.SpiLayout := by
  intro s hs
  refine ⟨fun hw => ?_, fun hw => ?_⟩
  · have hread : (s.spiLaidOut s.regs.arg0 s.regs.arg1).read 0 44 =
        headerBytes Config.byteOrder Config.cmdSpi (28#32 + s.regs.arg0) 0#32 0#32 ++
          s.spiArguments s.regs.arg0 s.regs.arg1 :=
      (read_laidOut _ _ _ 28).trans (congrArg _ ((read_spiArguments s _ _ 0).trans (List.append_nil _)))
    refine ⟨_, exec_cmbSpi_of_le hs hw, ?_⟩
    dsimp only
    exact ⟨rfl, toNat_spiLength hw, written_spiLaidOut .., hread, fun a => get?_spiLaidOut_outside s _ _⟩
  · refine (operate_run (pre := noPrecondition) hs rfl).trans ?_
    rw [cmbSpiBody, cmbSpi_full (by exact hw), ← raised_begin hs rfl]
    rfl

/-! ## `EXECUTE_SPI` turned away -/

/-- With a link, `EXECUTE_SPI` refuses counts that do not fit (R83, R224). -/
theorem spiBody_full {s : State} (hl : s.regs.status.linkOk = true)
    (h : s.cfg.rxPayloadMax < s.count1 ∨ s.maxWriteBytes < s.count0) : spiBody s = raise .allocationFailure s := by
  rw [spiBody, if_neg (by simp [hl])]
  by_cases hr : s.cfg.rxPayloadMax < s.count1
  · rw [if_pos hr]
  · rw [if_neg hr, cmbSpi_full (h.resolve_left hr)]
    rfl

/-- An `EXECUTE_SPI` whose own test fails does nothing but raise the error (R224, R225, R250). -/
theorem exec_hostExecuteSpi_raised {s : State} (hs : s.ready = true) (hp : spiPrecondition s = none) {e : ErrKind}
    (hr : spiBody (s.begin 0xD#4) = raise e (s.begin 0xD#4)) (he : e.fatal = false) :
    exec .hostExecuteSpi s = .next (s.refusedWith 0xD#4 e) := by
  refine (operate_run hs hp).trans ?_
  rw [hr, ← raised_begin hs he]
  rfl

/-- Settles O40: the tests of LINK_OK and of the two counts come before everything else. -/
theorem executeSpiTurnedAway : Obligations.ExecuteSpiTurnedAway := by
  intro s hs
  refine ⟨fun hl => ?_, fun hl hfull => ?_⟩
  · exact exec_hostExecuteSpi_raised hs (by simp [spiPrecondition, hl]) (spiBody_notReady (by exact hl)) rfl
  · refine exec_hostExecuteSpi_raised hs (if_neg ?_) (spiBody_full (by exact hl) (by exact hfull)) rfl
    rw [← State.maxWriteBytes_eq] at hfull
    simp only [Bool.and_eq_true, decide_eq_true_eq, not_and]
    omega

/-! ## `SHUTDOWN` and the owner's opening -/

/-- `TpRelease` under an answer without reset (R75). -/
theorem tpRelease_of_answers {s : State} {a : EnvAnswer} {rest : List EnvAnswer} (h : s.edge.answers = a :: rest)
    (hr : a.reset = false) : tpRelease s = .ok ()
      { s with edge := ({ s.edge.drawn a rest with tpOpen := false }).record .tpRelease } := by
  simp only [tpRelease, afterAccess, Edge.answer_of_answers h, hr, Bool.false_and, Bool.false_eq_true, if_false]
  rfl

/-- Settles O42: the release is the only access of `SHUTDOWN`; the opening is an event of its own. -/
theorem shutdownReleasesOwnerOpens : Obligations.ShutdownReleasesOwnerOpens := by
  refine ⟨fun s a rest hs ha hr => ?_, fun s rest h => step_of_pending h⟩
  refine (operate_run (pre := noPrecondition) hs rfl).trans ?_
  rw [shutdownBody, tpRelease_of_answers (by exact ha) hr]
  rfl

/-! ## LINK_OK after `INITIALIZE` -/

/-- `INITIALIZE` clears LINK_OK first and sets it last, and no part between touches it (R221). -/
theorem startBody_link (s : State) : (startBody s).Ends (fun _ t => t.regs.status.linkOk = true)
    fun _ t => t.regs.status.linkOk = false := by
  have hload : (seqLoadBody (s.withLink false)).Ends (fun _ t => t.regs.status.linkOk = false)
      fun _ t => t.regs.status.linkOk = false :=
    (seqLoadBody_ends _).mono (fun _ _ h => by rw [h.only]; rfl) fun _ _ h => by rw [h.2.only]; rfl
  refine Run.Ends.bind hload fun _ u hu => ?_
  rw [cmbProbe_eq, Run.bind_ok]
  refine Run.Ends.bind (Q := fun _ _ => True) ((treXchg_flags _ _ _).mono (fun _ _ _ => trivial) fun _ _ h => ?_)
    fun _ _ _ => rfl
  rw [h.2]
  exact hu

/-- Settles O38: every error leaves LINK_OK cleared, and has a code that is not 0. -/
theorem linkOkMeansInitialized : Obligations.LinkOkMeansInitialized := by
  intro s t hr h hd
  obtain ⟨rfl, -⟩ := exec_ready (k := 0xC#4) (pre := startPrecondition) (body := startBody) (fun _ => rfl) hr h
  have m := startBody_moves (s.begin 0xC#4)
  have hlink := startBody_link (s.begin 0xC#4)
  rcases settle_cases (startBody (s.begin 0xC#4)) with ⟨u, hu, ht⟩ | ⟨e, u, hu, ht⟩ | ⟨u, -, ht⟩
  · rw [hu] at m hlink
    have herr : u.regs.err = 0#8 := m.err
    have hset : u.regs.status.linkOk = true := hlink
    rw [ht, State.finished_regs, herr, hset]
    rfl
  · rw [hu] at hlink
    have hclear : u.regs.status.linkOk = false := hlink
    rw [ht, State.raised_regs, hclear]
    exact (beq_false_of_ne (bne_iff_ne.mp (code_ne_zero e))).symm
  · rw [ht] at hd
    cases hd

end Sys2Proof.Machine
end

section
/-! SUPPORT. `INITIALIZE` and `EXECUTE_SPI` under a prompt environment whose stream begins with a correct reply: the
exchange as a part of an operation, and the request that is sent, as a message of the wire (R186 to R226). -/

namespace Sys2Proof.Machine

open Codec

/-! ## Frames as messages -/

/-- A message with the right checksum is the marker and an encoded frame (R91, R154). -/
theorem encodeMessage_frameChecksum (cmd q : Word) (p : List Byte) :
    encodeMessage cmd q (frameChecksum Config.byteOrder cmd q p) p =
      Config.marker ++ encodeFrame Config.byteOrder cmd q p :=
  List.append_assoc ..

/-- A reply at the front of the stream is a marker and an encoded frame (R91, R99). -/
theorem rx_of_wireReply {e : Edge} {cmd q : Word} {p tail : List Byte}
    (h : e.rx = encode (.wireReply cmd q (frameChecksum Config.byteOrder cmd q p) p) ++ tail) :
    e.rx = Config.marker ++ (encodeFrame Config.byteOrder cmd q p ++ tail) := by
  rw [h, encode, encodeMessage_frameChecksum, List.append_assoc]

/-- The stamp of a laid-out frame is the encoded frame (R152 to R154). -/
theorem stampFrame_laidOut {s : State} {m : Memory} {cmd : Word} (h : s.txbuf = laidOut m cmd s.regs.txlen)
    (seq : Word) : stampFrame Config.byteOrder seq s.txFrame =
      encodeFrame Config.byteOrder cmd seq (m.read 16 s.regs.txlen.toNat) := by
  rw [State.txFrame, Config.headerSize_eq, h, ← read_stamped,
    read_stamped_laidOut m cmd seq (lengthWord_eq (Memory.length_read ..)).symm]

/-- An attempt whose stamped frame is an encoded frame sends the message of that frame (R91, R191). -/
theorem Received.sent_message {cmd q c : Word} {p w tail : List Byte} {s t : State} (h : Received cmd q p tail s t)
    (hf : stampFrame Config.byteOrder s.regs.seq s.txFrame = encodeFrame Config.byteOrder c s.regs.seq w) :
    t.edge.sent = s.edge.sent ++ encodeMessage c s.regs.seq (frameChecksum Config.byteOrder c s.regs.seq w) w := by
  rw [h.sent, hf, encodeMessage_frameChecksum, List.append_assoc]

/-! ## The exchange as a part of an operation -/

/-- The state in which the attempts of an exchange start (R186). -/
def State.attemptsStart (s : State) (exp max : Word) : State :=
  { s with regs := { s.regs with expLen := exp, maxAtt := max, attempt := 0#32 }, failures := [] }

/-- What an exchange leaves whose last attempt left `u` and passed (R201). -/
def State.exchanged (u : State) (exp : Word) : State := (u.toTre .done).withRes exp

/-- An exchange whose first attempt passes (R186, R199, R201). -/
theorem treXchg_of_passed {exp max : Word} {s u : State} (hv : s.regs.status.seqValid = true)
    (he : exp.toNat ≤ s.cfg.rxPayloadMax) (hm : max ≠ 0#32)
    (hu : treAttempt exp (s.attemptsStart exp max) = .ok none u) :
    treXchg exp max s = .ok () (u.exchanged exp) := by
  obtain ⟨n, hn⟩ := Nat.exists_eq_add_one_of_ne_zero (n := max.toNat) fun h => hm (BitVec.eq_of_toNat_eq h)
  rw [treXchg_loop hv he, hn]
  exact treAttempts_of_passed hu

/-- An exchange under a prompt environment that gets a correct reply (R186 to R201). -/
theorem treXchg_of_own_reply {exp max cmd : Word} {s : State} {p tail : List Byte}
    (hv : s.regs.status.seqValid = true) (he : exp.toNat ≤ s.cfg.rxPayloadMax) (hm : max ≠ 0#32)
    (hp : s.edge.prompt 10 = true) (hl : p.length = exp.toNat)
    (hrx : s.edge.rx = Config.marker ++ (encodeFrame Config.byteOrder cmd s.regs.seq p ++ tail)) :
    ∃ u, treXchg exp max s = .ok () (u.exchanged exp) ∧
      Received cmd s.regs.seq p tail (s.attemptsStart exp max) u :=
  have ⟨u, hu, h⟩ := treAttempt_of_own_reply (s := s.attemptsStart exp max) hv he hp hl hrx
  ⟨u, treXchg_of_passed hv he hm hu, h⟩

/-- An attempt that expects no payload makes no access for one: it comes from the header to its validation (R197). -/
theorem treAttempt_of_empty_reply {cmd q : Word} {s : State} {tail : List Byte} (hv : s.regs.status.seqValid = true)
    (hp : s.edge.prompt 9 = true)
    (hrx : s.edge.rx = Config.marker ++ (encodeFrame Config.byteOrder cmd q [] ++ tail)) :
    treAttempt 0#32 s = treValidate 0#32 (s.replyRead cmd q [] .readHeader 0 []) := by
  have hframe : encodeFrame Config.byteOrder cmd q [] = replyHeader cmd q [] := List.append_nil _
  have hcheck : lengthCheck 0#32 (replyHeader cmd q []) = none := by
    rw [lengthCheck, replyHeader, decodeHeader_headerBytes]
    rfl
  have hstate : s.replyRead cmd q [] .readHeader 0 [] = s.headerRead (replyHeader cmd q []) := by
    simp [State.replyRead, State.headerRead, hframe, Edge.prompted]
  rw [hstate, treAttempt_of_prompt (h := replyHeader cmd q []) hv hp (length_headerBytes ..) (hframe ▸ hrx), hcheck,
    andThen_passed]
  rfl

/-- A correct reply without payload, with the attempt's own number, makes the attempt pass (R197 to R200). -/
theorem treAttempt_of_own_empty_reply {cmd : Word} {s : State} {tail : List Byte}
    (hv : s.regs.status.seqValid = true) (hp : s.edge.prompt 9 = true)
    (hrx : s.edge.rx = Config.marker ++ (encodeFrame Config.byteOrder cmd s.regs.seq [] ++ tail)) :
    ∃ t, treAttempt 0#32 s = .ok none t ∧ Received cmd s.regs.seq [] tail s t := by
  have hr := replyRead_received .readHeader 0 [] hrx
  have ht := treAttempt_of_empty_reply hv hp hrx
  generalize s.replyRead cmd s.regs.seq [] .readHeader 0 [] = u at ht hr
  obtain ⟨_, _, _, hregs⟩ := hr.regs
  obtain ⟨res, acc, hval⟩ := treValidate_of_verified (exp := 0#32) (s := u) (by rw [hregs]) (Nat.zero_le _)
    ((congrArg _ hr.read_reply).trans (encodedFrameVerifies _ _ _ _ (by decide)).1)
  exact ⟨_, ht.trans hval, ⟨⟨res, acc, .validate, by rw [hregs]⟩, hr.rxbuf, hr.frame, hr.nvs, hr.sent, hr.rx⟩⟩

/-! ## `INITIALIZE` -/

/-- `SEQ.LOAD` under a prompt environment on a store that holds a value (R137). -/
theorem seqLoadBody_of_prompt {s : State} {b : List Byte} {n : Nat} (hp : s.edge.prompt (n + 1) = true)
    (hb : s.edge.nvs = .bytes b) (hl : 4 ≤ b.length) :
    seqLoadBody s = .ok () (State.counterLoaded
      { s.withSeq (bytesWord Config.byteOrder b) with edge := s.edge.prompted 1 0 [.nvRead] }) := by
  obtain ⟨a, ha, hpa⟩ := Edge.prompt_head hp
  obtain ⟨hr, ho, -⟩ := EnvAnswer.prompt_iff.mp hpa
  rw [seqLoadBody_of_stored ha hr ho hb hl, Edge.drawn_of_prompt _ hpa]
  rfl

/-- The state of an `INITIALIZE` that has loaded the counter `v` under a prompt environment and laid out the probe frame
(R221). -/
def State.probing (s : State) (v : Word) : State :=
  { s with
    regs := { s.regs with
      seq := v, txlen := 0#32, status := { s.regs.status with seqValid := true, linkOk := false } }
    txbuf := laidOut s.txbuf Config.cmdProbe 0#32
    edge := s.edge.prompted 1 0 [.nvRead] }

/-- `INITIALIZE` on a loaded store under a prompt environment that brings a correct probe reply (R221). -/
theorem startBody_of_own_reply {s : State} {b : List Byte} {v cmd : Word} {tail : List Byte}
    (hb : s.edge.nvs = .bytes b) (hl : 4 ≤ b.length) (hv : bytesWord Config.byteOrder b = v)
    (hm : s.regs.arg1 ≠ 0#32) (hp : s.edge.prompt 10 = true)
    (hrx : s.edge.rx = Config.marker ++ (encodeFrame Config.byteOrder cmd v [] ++ tail)) :
    ∃ u, startBody s = .ok () ((u.exchanged 0#32).withLink true) ∧
      Received cmd v [] tail ((s.probing v).attemptsStart 0#32 s.regs.arg1) u := by
  have hp9 : (s.probing v).edge.prompt 9 = true := Edge.prompt_prompted (n := 1) hp 0 [.nvRead]
  obtain ⟨u, hu, h⟩ := treAttempt_of_own_empty_reply (s := (s.probing v).attemptsStart 0#32 s.regs.arg1) rfl hp9 hrx
  have hxchg : treXchg 0#32 s.regs.arg1 (s.probing v) = .ok () (u.exchanged 0#32) :=
    treXchg_of_passed rfl (Nat.zero_le _) hm hu
  refine ⟨u, ?_, h⟩
  rw [startBody, seqLoadBody_of_prompt (s := s.withLink false) hp hb hl, hv, Run.bind_ok, cmbProbe_eq, Run.bind_ok]
  exact (congrArg (Run.bind · _) hxchg).trans rfl

/-- The frame that `INITIALIZE` stamps is the probe request (R97). -/
theorem stampFrame_probing (s : State) (v exp max : Word) :
    stampFrame Config.byteOrder v ((s.probing v).attemptsStart exp max).txFrame =
      encodeFrame Config.byteOrder Config.cmdProbe v [] :=
  stampFrame_laidOut (s := (s.probing v).attemptsStart exp max) (m := s.txbuf) (cmd := Config.cmdProbe) rfl v

/-- Settles O37: the load, the layout, and an exchange whose first attempt gets its own reply. -/
theorem initializeSucceeds : Obligations.InitializeSucceeds := by
  intro s b v cmd tail hs hb hl hv hm ho hp hrx
  obtain ⟨u, hu, h⟩ := startBody_of_own_reply (s := s.begin 0xC#4) hb hl hv hm hp (rx_of_wireReply hrx)
  have hexec : exec .hostInitialize s = .next ((u.exchanged 0#32).withLink true).finished :=
    (operate_run hs ((startPrecondition_of_attempt hm).trans (attemptPrecondition_open ho))).trans (by rw [hu]; rfl)
  obtain ⟨-, -, -, hargs, -⟩ := operationEndsOrIsCut s _ .hostInitialize rfl hs hexec
  obtain ⟨-, h0, h1, h2, hspeed⟩ := hargs rfl
  obtain ⟨htx, -⟩ := (hostOperationFrame s _ hs rfl).1 hexec
  obtain ⟨res, acc, tre, hregs⟩ := h.regs
  have hsent := h.sent_message (stampFrame_probing (s.begin 0xC#4) v 0#32 s.regs.arg1)
  have hstatus : ((u.exchanged 0#32).withLink true).finished.regs.status =
      { s.regs.status.ended with seqValid := true, linkOk := true } := by
    show { u.regs.status with busy := false, done := true, linkOk := true } = _
    rw [hregs]
    rfl
  exact ⟨_, hexec, congrArg Regs.err hregs, hstatus, congrArg Regs.seq hregs, h.nvs, rfl, congrArg Regs.attempt hregs,
    congrArg Regs.curseq hregs, congrArg Regs.txlen hregs, rfl, hsent, h.rx, h0, h1, h2, hspeed, htx⟩

/-! ## `EXECUTE_SPI` -/

/-- The state of an `EXECUTE_SPI` that has laid out its request (R224). -/
def State.requesting (s : State) (wcount rcount : Word) : State :=
  { s with txbuf := s.spiLaidOut wcount rcount, regs := { s.regs with txlen := 28#32 + wcount } }

/-- `EXECUTE_SPI` with a link and counts that fit is its layout and its exchange (R224). -/
theorem spiBody_of_le {s : State} (hl : s.regs.status.linkOk = true) (hr : s.count1 ≤ s.cfg.rxPayloadMax)
    (hw : s.count0 ≤ s.maxWriteBytes) :
    spiBody s = treXchg s.regs.arg1 s.regs.arg2 (s.requesting s.regs.arg0 s.regs.arg1) := by
  rw [spiBody, if_neg (by simp [hl]), if_neg (Nat.not_lt.mpr hr), cmbSpi_eq (by exact hw), Run.bind_ok]
  rfl

/-- ARG0 is the length word of the write bytes (R96). -/
theorem lengthWord_read_count0 (s : State) : lengthWord (s.txbuf.read 44 s.count0) = s.regs.arg0 :=
  lengthWord_eq (Memory.length_read ..)

/-- The frame that `EXECUTE_SPI` stamps is the SPI request over the host's write bytes (R96, R98). -/
theorem stampFrame_requesting {s : State} (hw : s.count0 ≤ s.maxWriteBytes) (seq rcount exp max : Word) :
    stampFrame Config.byteOrder seq ((s.requesting s.regs.arg0 rcount).attemptsStart exp max).txFrame =
      encodeFrame Config.byteOrder Config.cmdSpi seq (spiPayload s.regs.speed s.cfg.spiK0 s.cfg.spiK1 s.cfg.spiK2
        s.cfg.spiK3 rcount (s.txbuf.read 44 s.count0)) := by
  have hlen : (28#32 + s.regs.arg0).toNat = 28 + s.count0 := toNat_spiLength hw
  have hpay : (s.txbuf.write 16 (s.spiArguments s.regs.arg0 rcount)).read 16 (28#32 + s.regs.arg0).toNat =
      spiPayload s.regs.speed s.cfg.spiK0 s.cfg.spiK1 s.cfg.spiK2 s.cfg.spiK3 rcount (s.txbuf.read 44 s.count0) := by
    rw [hlen, read_spiArguments, spiPayload, lengthWord_read_count0]
    rfl
  have hbuf : ((s.requesting s.regs.arg0 rcount).attemptsStart exp max).txbuf =
      laidOut (s.txbuf.write 16 (s.spiArguments s.regs.arg0 rcount)) Config.cmdSpi (28#32 + s.regs.arg0) := by
    rw [State.attemptsStart, State.requesting, State.spiLaidOut]
  rw [← hpay]
  exact stampFrame_laidOut hbuf seq

/-- Settles O39: the layout, and an exchange whose first attempt gets its own reply. -/
theorem executeSpiSucceeds : Obligations.ExecuteSpiSucceeds := by
  intro s cmd payload tail w hs hlink hv hl hr hw hm hb hw' ho hp hrx
  obtain ⟨u, hu, h⟩ := treXchg_of_own_reply (exp := s.regs.arg1) (max := s.regs.arg2)
    (s := (s.begin 0xD#4).requesting s.regs.arg0 s.regs.arg1) hv hr hm hp hl (rx_of_wireReply hrx)
  have hpre : spiPrecondition s = none :=
    (spiPrecondition_of_attempt hlink hv hr hw hm).trans (hb ▸ attemptPrecondition_open ho)
  have hexec : exec .hostExecuteSpi s = .next (u.exchanged s.regs.arg1).finished := by
    refine (operate_run hs hpre).trans ?_
    rw [spiBody_of_le (s := s.begin 0xD#4) hlink hr hw]
    exact congrArg (fun r : Run Unit => Host.Outcome.next r.settle) hu
  obtain ⟨-, -, -, hargs, -⟩ := operationEndsOrIsCut s _ .hostExecuteSpi rfl hs hexec
  obtain ⟨-, h0, h1, h2, hspeed⟩ := hargs rfl
  obtain ⟨htx, -⟩ := (hostOperationFrame s _ hs rfl).2 hexec
  obtain ⟨res, acc, tre, hregs⟩ := h.regs
  have hsent := h.sent_message (stampFrame_requesting (s := s.begin 0xD#4) hw s.regs.seq s.regs.arg1 _ _)
  have hstatus : (u.exchanged s.regs.arg1).finished.regs.status = s.regs.status.ended := by
    show { u.regs.status with busy := false, done := true } = _
    rw [hregs]
    rfl
  have hwritten : u.rxbuf.written 16 s.count1 = true := by
    rw [h.rxbuf]
    exact Memory.written_write_self _ (Nat.zero_le _) (by rw [length_encodeFrame, hl]; omega)
  have hread : u.rxbuf.read 16 s.count1 = payload := hl ▸ h.read_payload
  rw [hw']
  exact ⟨_, _, hexec, congrArg Regs.err hregs, hstatus, rfl, hwritten, hread, congrArg Regs.seq hregs, h.nvs, hsent,
    rfl, h.rx, hspeed, h0, h1, h2, htx⟩

end Sys2Proof.Machine
end

section
/-! SUPPORT. How errors end an operation: the reserved selector, a halted engine, and what an exchange that failed
leaves of RXBUF (R246 to R252, R270, R290). -/

namespace Sys2Proof.Machine

/-! ## The reserved selector -/

/-- Settles O43: the operation raises its error at once, and that error is not fatal. -/
theorem reservedSelectorRaises : Obligations.ReservedSelectorRaises := by
  intro s hs
  rw [← raised_begin hs rfl]
  exact operate_run (pre := noPrecondition) hs rfl

/-! ## A halted engine -/

/-- In a halted engine an instruction leaves STATUS, ERR, SEQ and the store: an operation is ignored, and a message of
the wire only arrives (R36, R252). -/
theorem exec_halted {i : Instr} {s t : State} (hh : s.regs.status.halted = true) (h : exec i s = .next t) :
    t.regs = s.regs ∧ t.edge.nvs = s.edge.nvs := by
  by_cases hi : portOf i = .op
  · rw [(operationsNeedIdleEngine s i hi).1 hh] at h
    cases h
    exact ⟨rfl, rfl⟩
  · rw [exec_wire hi] at h
    cases h
    exact ⟨rfl, rfl⟩

/-- Settles O46: a step that is no reset runs an instruction, which a halted engine ignores, or it is aside. -/
theorem onlyResetLeavesHalted : Obligations.OnlyResetLeavesHalted := by
  intro s t hh h hreset
  rcases step_cases h with ⟨-, rfl⟩ | ⟨e, rest, hp, ⟨i, hi, -⟩ | ⟨rfl, -⟩ | ⟨-, ha⟩⟩
  · exact ⟨rfl, rfl, rfl, rfl⟩
  · obtain ⟨hregs, hnvs⟩ := exec_halted (s := { s with pending := rest }) hh hi
    rw [hregs]
    exact ⟨rfl, rfl, rfl, hnvs⟩
  · exact absurd hp (hreset rest)
  · exact ⟨ha.status, ha.err, ha.seq, ha.nvs⟩

/-! ## An exchange that failed -/

/-- A run that raises one of the errors `L` only with RXBUF left without a value (R34, R290). -/
def Run.EmptiesReply {α : Type} (L : ErrKind → Prop) (r : Run α) : Prop :=
  r.Ends (fun _ _ => True) fun e t => L e → t.rxbuf = []

section
variable {α β : Type} {L L' : ErrKind → Prop}

theorem Run.EmptiesReply.mono {r : Run α} (h : r.EmptiesReply L) (hl : ∀ e, L' e → L e) : r.EmptiesReply L' :=
  Run.Ends.mono h (fun _ _ => id) fun e _ he hL => he (hl e hL)

theorem Run.EmptiesReply.bind {r : Run α} {k : α → State → Run β} (h : r.EmptiesReply L)
    (hk : ∀ a s, (k a s).EmptiesReply L) : (r.bind k).EmptiesReply L :=
  Run.Ends.bind h fun a s _ => hk a s

/-- An error outside `L` says nothing of RXBUF. -/
theorem raise_emptiesReply {e : ErrKind} (h : ¬ L e) (s : State) : (raise e s : Run α).EmptiesReply L :=
  fun he => absurd he h

end

theorem not_losesReply_notReady : ¬ ErrKind.losesReply .notReady := by simp [ErrKind.losesReply]

theorem not_losesReply_allocationFailure : ¬ ErrKind.losesReply .allocationFailure := by simp [ErrKind.losesReply]

theorem losesReply_of_code {e : ErrKind} (h : e.code = 4#8 ∨ e.code = 5#8) : e.losesReply := by
  cases e
  case retriesExhausted => exact .inl rfl
  case storeUnavailable => exact .inr rfl
  all_goals exact absurd h (by decide)

/-- An exchange that runs out of attempts or loses its store leaves no reply (R190, R202, R290). -/
theorem treXchg_emptiesReply (exp max : Word) (s : State) : (treXchg exp max s).EmptiesReply ErrKind.losesReply := by
  refine (treXchg_ends exp max s).mono (fun _ _ _ => trivial) fun e t h hl => ?_
  cases h with
  | notReady => exact absurd hl not_losesReply_notReady
  | full => exact absurd hl not_losesReply_allocationFailure
  | exhausted x rx tre store => exact rx
  | unavailable x rx tre => exact rx

/-- `INITIALIZE` raises `RetriesExhausted` in its exchange only: the load raises only `StoreUnavailable` (R140,
R221). -/
theorem startBody_emptiesReply (s : State) : (startBody s).EmptiesReply (· = .retriesExhausted) := by
  have hload (u : State) : (seqLoadBody u).EmptiesReply (· = .retriesExhausted) :=
    (seqLoadBody_ends u).mono (fun _ _ _ => trivial) fun e t ⟨he, _⟩ hx => by
      rw [he] at hx
      cases hx
  refine (hload _).bind fun _ u => ?_
  rw [cmbProbe_eq, Run.bind_ok]
  exact ((treXchg_emptiesReply _ _ _).mono fun _ => .inl).bind fun _ _ => trivial

/-- `EXECUTE_SPI` loses the reply in its exchange only (R224, R225). -/
theorem spiBody_emptiesReply (s : State) : (spiBody s).EmptiesReply ErrKind.losesReply := by
  unfold spiBody
  split
  · exact raise_emptiesReply not_losesReply_notReady s
  · split
    · exact raise_emptiesReply not_losesReply_allocationFailure s
    · refine Run.EmptiesReply.bind ?_ fun _ u => treXchg_emptiesReply _ _ u
      by_cases h : s.regs.arg0.toNat ≤ s.maxWriteBytes
      · rw [cmbSpi_eq h]; trivial
      · rw [cmbSpi_full (by omega)]; exact raise_emptiesReply not_losesReply_allocationFailure s

/-- ERR is not 0 only where the operation raised an error: a normal end and a reset leave it 0 (R28, R38, R251). -/
theorem Run.Ends.settle_raised {k : BitVec 4} {s : State} {r : Run Unit} {Q : State → Prop}
    {E : ErrKind → State → Prop} (h : r.Ends (fun _ => Q) E) (m : Moves (s.begin k) r.state)
    (he : r.settle.regs.err ≠ 0#8) : ∃ e t, E e t ∧ r.settle = t.raised e := by
  match r with
  | .ok () t => exact absurd m.err he
  | .stop (.raised e) t => exact ⟨e, t, h, rfl⟩
  | .stop .cutByReset t => exact absurd rfl he

/-- An operation whose body empties RXBUF with the errors `L` leaves it empty where ERR holds the code of one. -/
theorem exec_emptiesReply {i : Instr} {k : BitVec 4} {pre : State → Option Refusal} {body : State → Run Unit}
    {L : ErrKind → Prop} (hi : ∀ s, exec i s = operate k pre body s) (hm : ∀ s, Moves s (body s).state)
    (hb : ∀ s, (body s).EmptiesReply L) {s t : State} (hr : s.ready = true) (h : exec i s = .next t)
    (hne : t.regs.err ≠ 0#8) (hl : ∀ e : ErrKind, e.code = t.regs.err → L e) : t.rxbuf = [] := by
  obtain ⟨rfl, -⟩ := exec_ready hi hr h
  obtain ⟨e, u, hu, ht⟩ := Run.Ends.settle_raised (hb (s.begin k)) (hm _) hne
  rw [ht] at hl ⊢
  exact hu (hl e rfl)

/-- Settles O44: the exchange empties RXBUF where it fails, and no other part of an operation raises its errors. -/
theorem noPartialPayload : Obligations.NoPartialPayload := by
  intro s t i hi hr h herr
  have hne : t.regs.err ≠ 0#8 := by
    rcases herr with h4 | ⟨h5, -⟩
    · rw [h4]; decide
    · rw [h5]; decide
  have hl (e : ErrKind) (he : e.code = t.regs.err) : e.losesReply :=
    losesReply_of_code (he ▸ herr.imp_right And.left)
  simp only [List.mem_cons, List.not_mem_nil, or_false] at hi
  rcases hi with rfl | rfl | rfl
  · exact exec_emptiesReply (body := treXchgBody) (fun _ => rfl) (fun _ => treXchg_moves _ _ _)
      (fun _ => treXchg_emptiesReply _ _ _) hr h hne hl
  · have h4 : t.regs.err = 4#8 := herr.resolve_right fun h5 => h5.2 rfl
    exact exec_emptiesReply (fun _ => rfl) startBody_moves startBody_emptiesReply hr h hne
      fun e he => eq_retriesExhausted_of_code (he.trans h4)
  · exact exec_emptiesReply (fun _ => rfl) spiBody_moves spiBody_emptiesReply hr h hne hl

end Sys2Proof.Machine
end
